-- ==== Sys2Proof/Word.lean ====
section
/-! DEFINITION. The words, addresses and numbers of the P4 core (00_scope.md R5, R7). -/

namespace Sys2Proof

/-- A machine word: 16 bits, an instruction or a datum (R5). -/
abbrev Word := BitVec 16

/-- A program-memory or data-memory word address: 15 bits, wrapping (R13, R22). -/
abbrev PAddr := BitVec 15

/-- An 8-bit immediate, displacement or software-interrupt number (R49). -/
abbrev Byte := BitVec 8

/-- The number of a general register, R0 to R7 (R10). -/
abbrev Reg := Fin 8

/-- The index of a hardware interrupt source, 0 to 15 (R5, R17). -/
abbrev Source := Fin 16

end Sys2Proof
end

