-- ==== Sys2Proof/Syntax.lean ====
section
/-! DEFINITION. The instructions of the P4 core, one constructor per row of spec/opcode_table.json
(30_encoding.md R50). Every operand is typed by its field (R49): a register number is below 8, a displacement,
an immediate and an interrupt number are bytes. -/

namespace Sys2Proof

/-- The eleven legal conditions of BR, JMP and JAL (30_encoding.md R47). -/
inductive Cond where
  | always
  | z
  | nz
  | c
  | nc
  | n
  | nn
  | o
  | no
  | p
  | np
deriving DecidableEq, Repr

/-- The instructions (R50). The operand fields are those the instruction reads; the bits it ignores (R53) are
no part of it. -/
inductive Instr where
  /-- NOP, `0000------------` (R67). -/
  | nop
  /-- BR, `00010001iiiiiiii` (R68). -/
  | br (disp : Byte)
  /-- BR.Z, `00010010iiiiiiii` (R68). -/
  | brZ (disp : Byte)
  /-- BR.NZ, `00010011iiiiiiii` (R68). -/
  | brNz (disp : Byte)
  /-- BR.C, `00010100iiiiiiii` (R68). -/
  | brC (disp : Byte)
  /-- BR.NC, `00010101iiiiiiii` (R68). -/
  | brNc (disp : Byte)
  /-- BR.N, `00010110iiiiiiii` (R68). -/
  | brN (disp : Byte)
  /-- BR.NN, `00010111iiiiiiii` (R68). -/
  | brNn (disp : Byte)
  /-- BR.O, `00011000iiiiiiii` (R68). -/
  | brO (disp : Byte)
  /-- BR.NO, `00011001iiiiiiii` (R68). -/
  | brNo (disp : Byte)
  /-- BR.P, `00011010iiiiiiii` (R68). -/
  | brP (disp : Byte)
  /-- BR.NP, `00011011iiiiiiii` (R68). -/
  | brNp (disp : Byte)
  /-- JMP, `00100001-----sss` (R69). -/
  | jmp (rs : Reg)
  /-- JMP.Z, `00100010-----sss` (R69). -/
  | jmpZ (rs : Reg)
  /-- JMP.NZ, `00100011-----sss` (R69). -/
  | jmpNz (rs : Reg)
  /-- JMP.C, `00100100-----sss` (R69). -/
  | jmpC (rs : Reg)
  /-- JMP.NC, `00100101-----sss` (R69). -/
  | jmpNc (rs : Reg)
  /-- JMP.N, `00100110-----sss` (R69). -/
  | jmpN (rs : Reg)
  /-- JMP.NN, `00100111-----sss` (R69). -/
  | jmpNn (rs : Reg)
  /-- JMP.O, `00101000-----sss` (R69). -/
  | jmpO (rs : Reg)
  /-- JMP.NO, `00101001-----sss` (R69). -/
  | jmpNo (rs : Reg)
  /-- JMP.P, `00101010-----sss` (R69). -/
  | jmpP (rs : Reg)
  /-- JMP.NP, `00101011-----sss` (R69). -/
  | jmpNp (rs : Reg)
  /-- JAL, `00110001-----sss` (R70). -/
  | jal (rs : Reg)
  /-- JAL.Z, `00110010-----sss` (R70). -/
  | jalZ (rs : Reg)
  /-- JAL.NZ, `00110011-----sss` (R70). -/
  | jalNz (rs : Reg)
  /-- JAL.C, `00110100-----sss` (R70). -/
  | jalC (rs : Reg)
  /-- JAL.NC, `00110101-----sss` (R70). -/
  | jalNc (rs : Reg)
  /-- JAL.N, `00110110-----sss` (R70). -/
  | jalN (rs : Reg)
  /-- JAL.NN, `00110111-----sss` (R70). -/
  | jalNn (rs : Reg)
  /-- JAL.O, `00111000-----sss` (R70). -/
  | jalO (rs : Reg)
  /-- JAL.NO, `00111001-----sss` (R70). -/
  | jalNo (rs : Reg)
  /-- JAL.P, `00111010-----sss` (R70). -/
  | jalP (rs : Reg)
  /-- JAL.NP, `00111011-----sss` (R70). -/
  | jalNp (rs : Reg)
  /-- MOV, `01ddd000--aaa---` (R71). -/
  | mov (rd ra : Reg)
  /-- LOAD, `01ddd010--aaa---` (R72). -/
  | load (rd ra : Reg)
  /-- STOR, `01---011--aaabbb` (R73). -/
  | stor (ra rb : Reg)
  /-- ENI, `01---100--------` (R74). -/
  | eni
  /-- DSI, `01---101--------` (R75). -/
  | dsi
  /-- RTI, `01---110--------` (R76). -/
  | rti
  /-- INT, `01---111nnnnnnnn` (R77). -/
  | int (n : Byte)
  /-- ADD, `10ddd00000aaabbb` (R83). -/
  | add (rd ra rb : Reg)
  /-- SUB, `10ddd00001aaabbb` (R84). -/
  | sub (rd ra rb : Reg)
  /-- ADDC, `10ddd00010aaabbb` (R85). -/
  | addc (rd ra rb : Reg)
  /-- SUBB, `10ddd00011aaabbb` (R86). -/
  | subb (rd ra rb : Reg)
  /-- DEC, `10ddd00100aaa---` (R87). -/
  | dec (rd ra : Reg)
  /-- INC, `10ddd00101aaa---` (R88). -/
  | inc (rd ra : Reg)
  /-- COM, `10ddd01000aaa---` (R89). -/
  | com (rd ra : Reg)
  /-- AND, `10ddd01001aaabbb` (R90). -/
  | and (rd ra rb : Reg)
  /-- OR, `10ddd01010aaabbb` (R91). -/
  | or (rd ra rb : Reg)
  /-- XOR, `10ddd01011aaabbb` (R92). -/
  | xor (rd ra rb : Reg)
  /-- SHR, `10ddd10000aaa---` (R94). -/
  | shr (rd ra : Reg)
  /-- SHL, `10ddd10001aaa---` (R95). -/
  | shl (rd ra : Reg)
  /-- SHRA, `10ddd10010aaa---` (R96). -/
  | shra (rd ra : Reg)
  /-- SHLA, `10ddd10011aaa---` (R97). -/
  | shla (rd ra : Reg)
  /-- ROR, `10ddd10100aaa---` (R98). -/
  | ror (rd ra : Reg)
  /-- ROL, `10ddd10101aaa---` (R99). -/
  | rol (rd ra : Reg)
  /-- RORC, `10ddd10110aaa---` (R100). -/
  | rorc (rd ra : Reg)
  /-- ROLC, `10ddd10111aaa---` (R101). -/
  | rolc (rd ra : Reg)
  /-- MVI, `11ddd000iiiiiiii` (R102). -/
  | mvi (rd : Reg) (imm8 : Byte)
  /-- MVIH, `11ddd010iiiiiiii` (R103). -/
  | mvih (rd : Reg) (imm8 : Byte)
  /-- MVIL, `11ddd011iiiiiiii` (R104). -/
  | mvil (rd : Reg) (imm8 : Byte)
  /-- CLC, `11---100--------` (R105). -/
  | clc
  /-- STC, `11---101--------` (R106). -/
  | stc
  /-- CMC, `11---110--------` (R107). -/
  | cmc
deriving DecidableEq, Repr

end Sys2Proof
end

