-- ==== Sys2Proof/WellFormed.lean ====
section
/-! DEFINITION. Which words are instructions. An `Instr` cannot be ill-formed: its operands are typed by their
fields. What can be ill-formed on this hardware is a WORD: 30_encoding.md R52 lists the words outside the
enumerated encodings, class by class, and R50 lists the encodings. Both are transcribed here as masks,
independently of the decoder. -/

namespace Sys2Proof

/-- Why a word is no instruction: the classes of 30_encoding.md R52. -/
inductive IllegalClass where
  /-- BR, JMP or JAL with condition 0. -/
  | condUnused
  /-- BR, JMP or JAL with condition 12 to 15. -/
  | condReserved
  /-- Format 01 with sub = 1. -/
  | transferSub
  /-- ALU codes 6 and 7. -/
  | arithCode
  /-- ALU codes 12 to 15. -/
  | logicCode
  /-- ALU codes 24 to 31. -/
  | unitCode
  /-- Format 11 with sub = 1 or sub = 7. -/
  | immediateSub
deriving DecidableEq, Repr

/-- Format 00 with op ≠ 0: a word of BR, JMP or JAL (30_encoding.md R42). -/
def isBranchOp (w : Word) : Bool := w &&& 0xC000#16 = 0#16 && w &&& 0x3000#16 ≠ 0#16

/-- The class of R52 a word falls in, by the selecting bits of that table; none for an instruction. -/
def illegalClass (w : Word) : Option IllegalClass :=
  if isBranchOp w && w &&& 0x0F00#16 = 0#16 then some .condUnused
  else if isBranchOp w && w &&& 0x0C00#16 = 0x0C00#16 then some .condReserved
  else if w &&& 0xC700#16 = 0x4100#16 then some .transferSub
  else if w &&& 0xC780#16 = 0x8180#16 then some .arithCode
  else if w &&& 0xC700#16 = 0x8300#16 then some .logicCode
  else if w &&& 0xC600#16 = 0x8600#16 then some .unitCode
  else if w &&& 0xC700#16 = 0xC100#16 || w &&& 0xC700#16 = 0xC700#16 then some .immediateSub
  else none

/-- A word is well-formed when it is in no class of R52. -/
def wellFormedWord (w : Word) : Bool := (illegalClass w).isNone

/-- A row of the opcode map (R50): the words w with w AND mask = value are the instruction of that name. -/
structure OpRow where
  mnemonic : String
  value : Word
  mask : Word
  /-- The bits of the pattern that are fixed or an operand's; every other bit is ignored (R50, R53). -/
  used : Word
deriving DecidableEq, Repr

/-- The word is one of the row's. -/
def OpRow.covers (r : OpRow) (w : Word) : Bool := w &&& r.mask = r.value

/-- No word is covered by both rows: they differ in a bit that both fix. -/
def OpRow.disjoint (r q : OpRow) : Bool := (r.value ^^^ q.value) &&& r.mask &&& q.mask ≠ 0#16

/-- The rows of format 00 Control (R50). -/
def controlRows : List OpRow := [
  ⟨"NOP", 0x0000#16, 0xF000#16, 0xF000#16⟩,
  ⟨"BR", 0x1100#16, 0xFF00#16, 0xFFFF#16⟩,
  ⟨"BR.Z", 0x1200#16, 0xFF00#16, 0xFFFF#16⟩,
  ⟨"BR.NZ", 0x1300#16, 0xFF00#16, 0xFFFF#16⟩,
  ⟨"BR.C", 0x1400#16, 0xFF00#16, 0xFFFF#16⟩,
  ⟨"BR.NC", 0x1500#16, 0xFF00#16, 0xFFFF#16⟩,
  ⟨"BR.N", 0x1600#16, 0xFF00#16, 0xFFFF#16⟩,
  ⟨"BR.NN", 0x1700#16, 0xFF00#16, 0xFFFF#16⟩,
  ⟨"BR.O", 0x1800#16, 0xFF00#16, 0xFFFF#16⟩,
  ⟨"BR.NO", 0x1900#16, 0xFF00#16, 0xFFFF#16⟩,
  ⟨"BR.P", 0x1A00#16, 0xFF00#16, 0xFFFF#16⟩,
  ⟨"BR.NP", 0x1B00#16, 0xFF00#16, 0xFFFF#16⟩,
  ⟨"JMP", 0x2100#16, 0xFF00#16, 0xFF07#16⟩,
  ⟨"JMP.Z", 0x2200#16, 0xFF00#16, 0xFF07#16⟩,
  ⟨"JMP.NZ", 0x2300#16, 0xFF00#16, 0xFF07#16⟩,
  ⟨"JMP.C", 0x2400#16, 0xFF00#16, 0xFF07#16⟩,
  ⟨"JMP.NC", 0x2500#16, 0xFF00#16, 0xFF07#16⟩,
  ⟨"JMP.N", 0x2600#16, 0xFF00#16, 0xFF07#16⟩,
  ⟨"JMP.NN", 0x2700#16, 0xFF00#16, 0xFF07#16⟩,
  ⟨"JMP.O", 0x2800#16, 0xFF00#16, 0xFF07#16⟩,
  ⟨"JMP.NO", 0x2900#16, 0xFF00#16, 0xFF07#16⟩,
  ⟨"JMP.P", 0x2A00#16, 0xFF00#16, 0xFF07#16⟩,
  ⟨"JMP.NP", 0x2B00#16, 0xFF00#16, 0xFF07#16⟩,
  ⟨"JAL", 0x3100#16, 0xFF00#16, 0xFF07#16⟩,
  ⟨"JAL.Z", 0x3200#16, 0xFF00#16, 0xFF07#16⟩,
  ⟨"JAL.NZ", 0x3300#16, 0xFF00#16, 0xFF07#16⟩,
  ⟨"JAL.C", 0x3400#16, 0xFF00#16, 0xFF07#16⟩,
  ⟨"JAL.NC", 0x3500#16, 0xFF00#16, 0xFF07#16⟩,
  ⟨"JAL.N", 0x3600#16, 0xFF00#16, 0xFF07#16⟩,
  ⟨"JAL.NN", 0x3700#16, 0xFF00#16, 0xFF07#16⟩,
  ⟨"JAL.O", 0x3800#16, 0xFF00#16, 0xFF07#16⟩,
  ⟨"JAL.NO", 0x3900#16, 0xFF00#16, 0xFF07#16⟩,
  ⟨"JAL.P", 0x3A00#16, 0xFF00#16, 0xFF07#16⟩,
  ⟨"JAL.NP", 0x3B00#16, 0xFF00#16, 0xFF07#16⟩]

/-- The rows of format 01 Transfer/System (R50). -/
def transferRows : List OpRow := [
  ⟨"MOV", 0x4000#16, 0xC700#16, 0xFF38#16⟩,
  ⟨"LOAD", 0x4200#16, 0xC700#16, 0xFF38#16⟩,
  ⟨"STOR", 0x4300#16, 0xC700#16, 0xC73F#16⟩,
  ⟨"ENI", 0x4400#16, 0xC700#16, 0xC700#16⟩,
  ⟨"DSI", 0x4500#16, 0xC700#16, 0xC700#16⟩,
  ⟨"RTI", 0x4600#16, 0xC700#16, 0xC700#16⟩,
  ⟨"INT", 0x4700#16, 0xC700#16, 0xC7FF#16⟩]

/-- The rows of format 10 ALU (R50). -/
def aluRows : List OpRow := [
  ⟨"ADD", 0x8000#16, 0xC7C0#16, 0xFFFF#16⟩,
  ⟨"SUB", 0x8040#16, 0xC7C0#16, 0xFFFF#16⟩,
  ⟨"ADDC", 0x8080#16, 0xC7C0#16, 0xFFFF#16⟩,
  ⟨"SUBB", 0x80C0#16, 0xC7C0#16, 0xFFFF#16⟩,
  ⟨"DEC", 0x8100#16, 0xC7C0#16, 0xFFF8#16⟩,
  ⟨"INC", 0x8140#16, 0xC7C0#16, 0xFFF8#16⟩,
  ⟨"COM", 0x8200#16, 0xC7C0#16, 0xFFF8#16⟩,
  ⟨"AND", 0x8240#16, 0xC7C0#16, 0xFFFF#16⟩,
  ⟨"OR", 0x8280#16, 0xC7C0#16, 0xFFFF#16⟩,
  ⟨"XOR", 0x82C0#16, 0xC7C0#16, 0xFFFF#16⟩,
  ⟨"SHR", 0x8400#16, 0xC7C0#16, 0xFFF8#16⟩,
  ⟨"SHL", 0x8440#16, 0xC7C0#16, 0xFFF8#16⟩,
  ⟨"SHRA", 0x8480#16, 0xC7C0#16, 0xFFF8#16⟩,
  ⟨"SHLA", 0x84C0#16, 0xC7C0#16, 0xFFF8#16⟩,
  ⟨"ROR", 0x8500#16, 0xC7C0#16, 0xFFF8#16⟩,
  ⟨"ROL", 0x8540#16, 0xC7C0#16, 0xFFF8#16⟩,
  ⟨"RORC", 0x8580#16, 0xC7C0#16, 0xFFF8#16⟩,
  ⟨"ROLC", 0x85C0#16, 0xC7C0#16, 0xFFF8#16⟩]

/-- The rows of format 11 Immediate/System (R50). -/
def immediateRows : List OpRow := [
  ⟨"MVI", 0xC000#16, 0xC700#16, 0xFFFF#16⟩,
  ⟨"MVIH", 0xC200#16, 0xC700#16, 0xFFFF#16⟩,
  ⟨"MVIL", 0xC300#16, 0xC700#16, 0xFFFF#16⟩,
  ⟨"CLC", 0xC400#16, 0xC700#16, 0xC700#16⟩,
  ⟨"STC", 0xC500#16, 0xC700#16, 0xC700#16⟩,
  ⟨"CMC", 0xC600#16, 0xC700#16, 0xC700#16⟩]

/-- The opcode map, 65 rows in the table's order (R50). -/
def opcodeRows : List OpRow := controlRows ++ transferRows ++ aluRows ++ immediateRows

end Sys2Proof
end

