-- ==== Sys2Proof/Decode.lean ====
section
/-! DEFINITION. Decoding a word (30_encoding.md R51) and encoding an instruction (R42 to R46, R50). -/

namespace Sys2Proof

/-! ## Conditions -/

/-- The condition field's value of a condition (R47). -/
def Cond.code : Cond → BitVec 4
  | .always => 1#4
  | .z => 2#4
  | .nz => 3#4
  | .c => 4#4
  | .nc => 5#4
  | .n => 6#4
  | .nn => 7#4
  | .o => 8#4
  | .no => 9#4
  | .p => 10#4
  | .np => 11#4

/-- The condition a field value stands for; 0 and 12 to 15 are not enumerated (R47, R51). -/
def condOf (field : Fin 16) : Except IllegalClass Cond :=
  match field with
  | 0 => .error .condUnused
  | 1 => .ok .always
  | 2 => .ok .z
  | 3 => .ok .nz
  | 4 => .ok .c
  | 5 => .ok .nc
  | 6 => .ok .n
  | 7 => .ok .nn
  | 8 => .ok .o
  | 9 => .ok .no
  | 10 => .ok .p
  | 11 => .ok .np
  | _ => .error .condReserved

/-- The BR with a condition (R68). -/
def brOf (cond : Cond) (disp : Byte) : Instr :=
  match cond with
  | .always => .br disp
  | .z => .brZ disp
  | .nz => .brNz disp
  | .c => .brC disp
  | .nc => .brNc disp
  | .n => .brN disp
  | .nn => .brNn disp
  | .o => .brO disp
  | .no => .brNo disp
  | .p => .brP disp
  | .np => .brNp disp

/-- The JMP with a condition (R69). -/
def jmpOf (cond : Cond) (rs : Reg) : Instr :=
  match cond with
  | .always => .jmp rs
  | .z => .jmpZ rs
  | .nz => .jmpNz rs
  | .c => .jmpC rs
  | .nc => .jmpNc rs
  | .n => .jmpN rs
  | .nn => .jmpNn rs
  | .o => .jmpO rs
  | .no => .jmpNo rs
  | .p => .jmpP rs
  | .np => .jmpNp rs

/-- The JAL with a condition (R70). -/
def jalOf (cond : Cond) (rs : Reg) : Instr :=
  match cond with
  | .always => .jal rs
  | .z => .jalZ rs
  | .nz => .jalNz rs
  | .c => .jalC rs
  | .nc => .jalNc rs
  | .n => .jalN rs
  | .nn => .jalNn rs
  | .o => .jalO rs
  | .no => .jalNo rs
  | .p => .jalP rs
  | .np => .jalNp rs

/-! ## Fields of a word (R49) -/

/-- op, bits 13 to 12 of format 00 (R42). -/
def opField (w : Word) : Fin 4 := (w.extractLsb' 12 2).toFin

/-- cond, bits 11 to 8 of format 00 (R47). -/
def condField (w : Word) : Fin 16 := (w.extractLsb' 8 4).toFin

/-- sub, bits 10 to 8 of formats 01 and 11 (R43, R46). -/
def subField (w : Word) : Fin 8 := (w.extractLsb' 8 3).toFin

/-- unit, bits 10 to 9 of format 10 (R45). -/
def unitField (w : Word) : Fin 4 := (w.extractLsb' 9 2).toFin

/-- op, bits 8 to 6 of format 10 (R45). -/
def aluOpField (w : Word) : Fin 8 := (w.extractLsb' 6 3).toFin

/-- rd, bits 13 to 11 (R49). -/
def rdField (w : Word) : Reg := (w.extractLsb' 11 3).toFin

/-- ra, bits 5 to 3 (R49). -/
def raField (w : Word) : Reg := (w.extractLsb' 3 3).toFin

/-- rb, and rs of JMP and JAL, bits 2 to 0 (R49). -/
def rbField (w : Word) : Reg := (w.extractLsb' 0 3).toFin

/-- disp, n and imm8, bits 7 to 0 (R49). -/
def byteField (w : Word) : Byte := w.extractLsb' 0 8

/-! ## Decoding -/

/-- Format 00, Control (R42, R51): NOP ignores the condition field. -/
def decodeControl (w : Word) : Except IllegalClass Instr :=
  match opField w with
  | 0 => .ok .nop
  | 1 => (condOf (condField w)).map fun cond => brOf cond (byteField w)
  | 2 => (condOf (condField w)).map fun cond => jmpOf cond (rbField w)
  | 3 => (condOf (condField w)).map fun cond => jalOf cond (rbField w)

/-- Format 01, Transfer/System (R43, R44, R51). -/
def decodeTransfer (w : Word) : Except IllegalClass Instr :=
  match subField w with
  | 0 => .ok (.mov (rdField w) (raField w))
  | 1 => .error .transferSub
  | 2 => .ok (.load (rdField w) (raField w))
  | 3 => .ok (.stor (raField w) (rbField w))
  | 4 => .ok .eni
  | 5 => .ok .dsi
  | 6 => .ok .rti
  | 7 => .ok (.int (byteField w))

/-- Format 10, ALU (R45, R48, R51). -/
def decodeAlu (w : Word) : Except IllegalClass Instr :=
  match unitField w, aluOpField w with
  | 0, 0 => .ok (.add (rdField w) (raField w) (rbField w))
  | 0, 1 => .ok (.sub (rdField w) (raField w) (rbField w))
  | 0, 2 => .ok (.addc (rdField w) (raField w) (rbField w))
  | 0, 3 => .ok (.subb (rdField w) (raField w) (rbField w))
  | 0, 4 => .ok (.dec (rdField w) (raField w))
  | 0, 5 => .ok (.inc (rdField w) (raField w))
  | 0, 6 | 0, 7 => .error .arithCode
  | 1, 0 => .ok (.com (rdField w) (raField w))
  | 1, 1 => .ok (.and (rdField w) (raField w) (rbField w))
  | 1, 2 => .ok (.or (rdField w) (raField w) (rbField w))
  | 1, 3 => .ok (.xor (rdField w) (raField w) (rbField w))
  | 1, 4 | 1, 5 | 1, 6 | 1, 7 => .error .logicCode
  | 2, 0 => .ok (.shr (rdField w) (raField w))
  | 2, 1 => .ok (.shl (rdField w) (raField w))
  | 2, 2 => .ok (.shra (rdField w) (raField w))
  | 2, 3 => .ok (.shla (rdField w) (raField w))
  | 2, 4 => .ok (.ror (rdField w) (raField w))
  | 2, 5 => .ok (.rol (rdField w) (raField w))
  | 2, 6 => .ok (.rorc (rdField w) (raField w))
  | 2, 7 => .ok (.rolc (rdField w) (raField w))
  | 3, _ => .error .unitCode

/-- Format 11, Immediate/System (R46, R51). -/
def decodeImmediate (w : Word) : Except IllegalClass Instr :=
  match subField w with
  | 0 => .ok (.mvi (rdField w) (byteField w))
  | 2 => .ok (.mvih (rdField w) (byteField w))
  | 3 => .ok (.mvil (rdField w) (byteField w))
  | 4 => .ok .clc
  | 5 => .ok .stc
  | 6 => .ok .cmc
  | 1 | 7 => .error .immediateSub

/-- The format, bits 15 to 14 (R41). -/
def formatField (w : Word) : Fin 4 := (w.extractLsb' 14 2).toFin

/-- Decoding, total over the 16-bit words (R51): an instruction, or the class of R52 that makes the word
illegal. -/
def decode (w : Word) : Except IllegalClass Instr :=
  match formatField w with
  | 0 => decodeControl w
  | 1 => decodeTransfer w
  | 2 => decodeAlu w
  | 3 => decodeImmediate w

/-! ## Encoding -/

/-- The bits of a register number. -/
def regBits (r : Reg) : BitVec 3 := BitVec.ofFin r

/-- A word of BR (R42): op 1. -/
def encodeBr (cond : Cond) (disp : Byte) : Word := 0b0001#4 ++ cond.code ++ disp

/-- A word of JMP (R42): op 2, the ignored bits 7 to 3 zero (log 16). -/
def encodeJmp (cond : Cond) (rs : Reg) : Word := 0b0010#4 ++ cond.code ++ 0#5 ++ regBits rs

/-- A word of JAL (R42): op 3, the ignored bits 7 to 3 zero (log 16). -/
def encodeJal (cond : Cond) (rs : Reg) : Word := 0b0011#4 ++ cond.code ++ 0#5 ++ regBits rs

/-- A word of format 01 in the register layout (R43), the fields in the order of the table. -/
def encodeTransfer (rd : Reg) (sub : BitVec 3) (ra rb : Reg) : Word :=
  0b01#2 ++ regBits rd ++ sub ++ 0#2 ++ regBits ra ++ regBits rb

/-- A word of format 10 (R45). -/
def encodeAlu (rd : Reg) (unit : BitVec 2) (op : BitVec 3) (ra rb : Reg) : Word :=
  0b10#2 ++ regBits rd ++ unit ++ op ++ regBits ra ++ regBits rb

/-- A word of format 11 (R46). -/
def encodeImmediate (rd : Reg) (sub : BitVec 3) (imm8 : Byte) : Word :=
  0b11#2 ++ regBits rd ++ sub ++ imm8

/-- The word of an instruction (R50). Every bit the instruction ignores is 0: DESIGN CHOICE (log 16), safe, as
no ignored bit changes what a word is (R53). -/
def encode : Instr → Word
  | .nop => 0x0000#16
  | .br disp => encodeBr .always disp
  | .brZ disp => encodeBr .z disp
  | .brNz disp => encodeBr .nz disp
  | .brC disp => encodeBr .c disp
  | .brNc disp => encodeBr .nc disp
  | .brN disp => encodeBr .n disp
  | .brNn disp => encodeBr .nn disp
  | .brO disp => encodeBr .o disp
  | .brNo disp => encodeBr .no disp
  | .brP disp => encodeBr .p disp
  | .brNp disp => encodeBr .np disp
  | .jmp rs => encodeJmp .always rs
  | .jmpZ rs => encodeJmp .z rs
  | .jmpNz rs => encodeJmp .nz rs
  | .jmpC rs => encodeJmp .c rs
  | .jmpNc rs => encodeJmp .nc rs
  | .jmpN rs => encodeJmp .n rs
  | .jmpNn rs => encodeJmp .nn rs
  | .jmpO rs => encodeJmp .o rs
  | .jmpNo rs => encodeJmp .no rs
  | .jmpP rs => encodeJmp .p rs
  | .jmpNp rs => encodeJmp .np rs
  | .jal rs => encodeJal .always rs
  | .jalZ rs => encodeJal .z rs
  | .jalNz rs => encodeJal .nz rs
  | .jalC rs => encodeJal .c rs
  | .jalNc rs => encodeJal .nc rs
  | .jalN rs => encodeJal .n rs
  | .jalNn rs => encodeJal .nn rs
  | .jalO rs => encodeJal .o rs
  | .jalNo rs => encodeJal .no rs
  | .jalP rs => encodeJal .p rs
  | .jalNp rs => encodeJal .np rs
  | .mov rd ra => encodeTransfer rd 0#3 ra 0
  | .load rd ra => encodeTransfer rd 2#3 ra 0
  | .stor ra rb => encodeTransfer 0 3#3 ra rb
  | .eni => encodeTransfer 0 4#3 0 0
  | .dsi => encodeTransfer 0 5#3 0 0
  | .rti => encodeTransfer 0 6#3 0 0
  | .int n => 0b01#2 ++ 0#3 ++ 0b111#3 ++ n
  | .add rd ra rb => encodeAlu rd 0#2 0#3 ra rb
  | .sub rd ra rb => encodeAlu rd 0#2 1#3 ra rb
  | .addc rd ra rb => encodeAlu rd 0#2 2#3 ra rb
  | .subb rd ra rb => encodeAlu rd 0#2 3#3 ra rb
  | .dec rd ra => encodeAlu rd 0#2 4#3 ra 0
  | .inc rd ra => encodeAlu rd 0#2 5#3 ra 0
  | .com rd ra => encodeAlu rd 1#2 0#3 ra 0
  | .and rd ra rb => encodeAlu rd 1#2 1#3 ra rb
  | .or rd ra rb => encodeAlu rd 1#2 2#3 ra rb
  | .xor rd ra rb => encodeAlu rd 1#2 3#3 ra rb
  | .shr rd ra => encodeAlu rd 2#2 0#3 ra 0
  | .shl rd ra => encodeAlu rd 2#2 1#3 ra 0
  | .shra rd ra => encodeAlu rd 2#2 2#3 ra 0
  | .shla rd ra => encodeAlu rd 2#2 3#3 ra 0
  | .ror rd ra => encodeAlu rd 2#2 4#3 ra 0
  | .rol rd ra => encodeAlu rd 2#2 5#3 ra 0
  | .rorc rd ra => encodeAlu rd 2#2 6#3 ra 0
  | .rolc rd ra => encodeAlu rd 2#2 7#3 ra 0
  | .mvi rd imm8 => encodeImmediate rd 0#3 imm8
  | .mvih rd imm8 => encodeImmediate rd 2#3 imm8
  | .mvil rd imm8 => encodeImmediate rd 3#3 imm8
  | .clc => encodeImmediate 0 4#3 0#8
  | .stc => encodeImmediate 0 5#3 0#8
  | .cmc => encodeImmediate 0 6#3 0#8

/-- The instruction the decoder reads from an instruction whose bits are w, as spec/opcode_table.json numbers
them; every bit above nbits is 0. Every instruction is one word (R40), so bits past 15 are no part of it. -/
def decodeTableWord (nbits w : Nat) : Option Instr :=
  match decode (BitVec.ofNat 16 (w % 2 ^ nbits)) with
  | .ok i => some i
  | .error _ => none

end Sys2Proof
end

