-- ==== Sys2Proof/Config.lean ====
section
/-! DEFINITION. The open parameters of the spec (00_scope.md R6): what an implementation fixes and the spec
leaves open. Each is an opaque constant, so that a claim holds whatever its value is. -/

namespace Sys2Proof

/-- How MVI widens its immediate: the values of `P_MVI_EXT` (43_immediate_system.md R102). -/
inductive MviExt where
  | sign
  | zero
deriving DecidableEq, Repr, Inhabited

/-- What JAL adds to its own address for the link: the values of `P_JAL_LINK_OFS` (40_control.md R70). -/
inductive LinkOfs where
  | one
  | two
deriving DecidableEq, Repr, Inhabited

/-- The number a link offset stands for. -/
def LinkOfs.toNat : LinkOfs → Nat
  | .one => 1
  | .two => 2

/-- The peripheral registers of the I/O window (20_memory.md R29); the interrupt mask, which belongs to the
core, is not among them (R122). -/
inductive PeriphReg where
  | terminalData
  | terminalState
  | terminalCursor
  | terminalColor
  | switches
  | leds
  | timerValue
  | timerControl
  | lcdWrite
  | lcdControl
  | sevenSegment (latch : Fin 6)
  | accelX
  | accelY
  | accelZ
deriving DecidableEq, Repr, Inhabited

/-- The devices of the I/O window (R29). -/
inductive Device where
  | terminal
  | switches
  | leds
  | timer
  | lcd
  | sevenSegment
  | accelerometer
deriving DecidableEq, Repr, Inhabited

/-- What a write to a register of the timer does to its pending callback (20_memory.md R30). -/
inductive TimerEffect where
  | arm
  | disarm
  | neither
deriving DecidableEq, Repr, Inhabited

/-- An access delivered to a peripheral register (20_memory.md R26, R27, R29). -/
inductive DevEvent where
  | read (reg : PeriphReg)
  | write (reg : PeriphReg) (v : Word)
deriving DecidableEq, Repr, Inhabited

namespace Config

/-- `P_MVI_EXT` (R6, R102). DESIGN CHOICE (log 1), safe: left free. -/
opaque mviExt : MviExt

/-- `P_JAL_LINK_REG` (R6, R70). DESIGN CHOICE (log 2), safe: left free. -/
opaque jalLinkReg : Reg

/-- `P_JAL_LINK_OFS` (R6, R70). DESIGN CHOICE (log 2), safe: left free. -/
opaque jalLinkOfs : LinkOfs

/-- The low byte of `P_ADDR_IMASK`, whose high byte is 0xFF (20_memory.md R28). DESIGN CHOICE (log 3), safe:
left free. -/
opaque imaskOffset : Byte

/-- `P_ADDR_IMASK`: an address of the I/O window (R28). -/
def addrImask : Word := (0xFF#8) ++ imaskOffset

/-- `P_IO_MAP`: which I/O address reaches which peripheral register (R6, R29). DESIGN CHOICE (log 3), safe:
left free. Only addresses of the I/O window are ever looked up. -/
opaque ioMap : Word → Option PeriphReg

/-- The oracle `DevRead` (R29): what a read of a peripheral register answers, given the accesses delivered to
the devices before it. DESIGN CHOICE (log 4): nothing is assumed of the value. -/
opaque devRead : List DevEvent → PeriphReg → Word

/-- `P_IRQ_SOURCES`: which device drives each of the sources 0 to 14, if any does (R6, 60_exceptions.md R122). DESIGN
CHOICE (log 7), safe: left free. Source 15 is the timer's line (R121) and is never looked up. -/
opaque irqDriver : Source → Option Device

/-- `P_TIMER`: whether a write to the timer's value or control register arms or disarms the timer, given the accesses
delivered before it (R6, 20_memory.md R30). DESIGN CHOICE (log 7), safe: left free. Its time unit has no part in the
model, as R30 lets the raise arrive at any boundary after arming. -/
opaque timerEffect : List DevEvent → PeriphReg → Word → TimerEffect

end Config

end Sys2Proof
end

