-- ==== Sys2Proof/Machine/State.lean ====
section
/-! DEFINITION. The state of the P4 core (10_state.md), the reasons a step can stop, and the state after reset
(10_state.md R21). -/

namespace Sys2Proof.Machine

/-- A memory of 32768 words (20_memory.md R22) as byte cells: the word at address a is in the cells 2a (bits 7
to 0) and 2a + 1 (bits 15 to 8). DESIGN CHOICE (log 9), safe: no program can see a byte of memory (R31). A cell
that is not listed reads 0, as a word the host does not load does (R21). -/
abbrev Memory := List Host.Cell

/-- The flag register (10_state.md R15): five independent bits. -/
structure Flags where
  /-- E, the global interrupt enable. -/
  e : Bool
  /-- Z, zero. -/
  z : Bool
  /-- C, carry or borrow. -/
  c : Bool
  /-- N, negative. -/
  n : Bool
  /-- O, overflow. -/
  o : Bool
deriving DecidableEq, Repr

/-- RUN, the core's run state (10_state.md R18). -/
inductive Run where
  | running
  /-- The core met the undecodable word W at address A and is stuck until reset (60_exceptions.md R118). -/
  | illegal (a : PAddr) (w : Word)
deriving DecidableEq, Repr

/-- The state of the core, at a boundary between two steps. -/
structure State where
  /-- REG (R10, R11). The entry of R0 is never written. -/
  regs : Vector Word 8
  /-- PC: the address of the next instruction to fetch (R13). -/
  pc : PAddr
  /-- JP: the previous step took a jump, this one is its delay slot (R14). -/
  jp : Bool
  /-- JT: the target of the pending jump, meaningful while JP = 1 (R14). -/
  jt : PAddr
  /-- E, Z, C, N, O (R15). -/
  flags : Flags
  /-- IMASK: bit s set, source s may be serviced (R17). -/
  imask : Word
  /-- IPEND: bit s set, source s raised and awaits a re-scan (R17). -/
  ipend : Word
  /-- SE: what E was at the last service (R17). -/
  se : Bool
  /-- RA: where RTI returns to (R17). -/
  ra : PAddr
  /-- RESCAN: a re-scan of IPEND is owed (R17). -/
  rescan : Bool
  /-- RUN (R18). -/
  run : Run
  /-- PMEM, read by fetch only (20_memory.md R22, R23). -/
  pmem : Memory
  /-- DMEM (R22, R24). -/
  dmem : Memory
  /-- DMEM_INIT: the data image the host loaded last, which a reset restores (70_reset_and_hazards.md R127,
  R129). -/
  dmemInit : Memory
  /-- The model's own: the hardware requests the environment delivers, the head at the coming boundary (R20,
  60_exceptions.md R115). DESIGN CHOICE (log 5). -/
  raises : List (List Source)
  /-- The model's own: the requests that met a boundary with a jump pending and are presented again at the next one
  (R115). DESIGN CHOICE (log 6). -/
  held : List Source
  /-- The model's own: how many armings of the timer have neither fired nor been cancelled (20_memory.md R30). DESIGN
  CHOICE (log 7). -/
  timerArmed : Nat
  /-- The model's own: the accesses delivered to peripheral registers, newest first (20_memory.md R29). DESIGN
  CHOICE (log 4). -/
  devEvents : List DevEvent
deriving DecidableEq, Repr

/-- The faults of a step: none. The one fault of the core, the decode failure, is a state (RUN = illegal), and
no other fault exists (60_exceptions.md R108, R118). -/
inductive Fault
deriving DecidableEq, Repr

/-- The refusals of a step. -/
inductive Refusal where
  /-- Raised by `exec` for an instruction that has no meaning yet: safe. No arm of this model raises it. -/
  | notModelled (mnemonic : String)
deriving DecidableEq, Repr

/-- What a meaning and a step answer. -/
abbrev Answer := Host.Outcome State Fault Refusal

/-- The machine right after reset, with no image loaded (10_state.md R21, 70_reset_and_hazards.md R126, R127;
log 10). The requests (log 5, log 6), the timer's arming (log 7) and the devices' history (log 4) are no registers of
the core; their values here are DESIGN CHOICE. -/
def State.reset : State where
  regs := Vector.replicate 8 0#16
  pc := 0#15
  jp := false
  jt := 0#15
  flags := { e := false, z := false, c := false, n := false, o := false }
  imask := 0#16
  ipend := 0#16
  se := false
  ra := 0#15
  rescan := false
  run := .running
  pmem := []
  dmem := []
  dmemInit := []
  raises := []
  held := []
  timerArmed := 1
  devEvents := []

end Sys2Proof.Machine
end

