-- ==== Sys2Proof/Machine/Ops.lean ====
section
/-! DEFINITION. The operations the meanings share: memory, registers, the data bus, the program counter and its
delay slot, interrupt service and the boundary that ends a step. -/

namespace Sys2Proof.Machine

/-! ## Memory cells -/

/-- A byte of memory; a cell that is not listed reads 0 (10_state.md R21). -/
def Memory.readByte (m : Memory) (k : Nat) : Byte :=
  match m with
  | [] => 0#8
  | (k', b) :: rest => if k = k' then b else Memory.readByte rest k

/-- Writing a byte keeps the addresses strictly rising and lists no cell that reads 0 unlisted. -/
def Memory.writeByte (m : Memory) (k : Nat) (b : Byte) : Memory :=
  match m with
  | [] => if b = 0#8 then [] else [(k, b)]
  | (k', b') :: rest =>
    if k < k' then (if b = 0#8 then (k', b') :: rest else (k, b) :: (k', b') :: rest)
    else if k = k' then (if b = 0#8 then rest else (k, b) :: rest)
    else (k', b') :: Memory.writeByte rest k b

/-- The word at a word address (20_memory.md R22, R31; cells as log 9 says). -/
def Memory.readWord (m : Memory) (a : PAddr) : Word :=
  Memory.readByte m (2 * a.toNat + 1) ++ Memory.readByte m (2 * a.toNat)

/-- Writing the word at a word address. -/
def Memory.writeWord (m : Memory) (a : PAddr) (v : Word) : Memory :=
  Memory.writeByte (Memory.writeByte m (2 * a.toNat) (v.extractLsb' 0 8)) (2 * a.toNat + 1) (v.extractLsb' 8 8)

/-- The cells are in canonical form from address lo on: rising, below 65536 (32768 words of two cells), none
zero. -/
def Memory.wfFrom (lo : Nat) (m : Memory) : Bool :=
  match m with
  | [] => true
  | (k, b) :: rest => lo ≤ k && k < 65536 && b ≠ 0#8 && Memory.wfFrom (k + 1) rest

/-- The memory is in its one canonical form. -/
def Memory.wf (m : Memory) : Bool := Memory.wfFrom 0 m

/-! ## General registers -/

/-- x[i]: R0 reads 0 (10_state.md R11). -/
def State.readReg (s : State) (i : Reg) : Word := if i = 0 then 0#16 else s.regs[i]

/-- x[i] ← v: a write to R0 is discarded (10_state.md R11). -/
def State.writeReg (s : State) (i : Reg) (v : Word) : State :=
  { s with regs := if i = 0 then s.regs else s.regs.set i v }

/-! ## Fetch -/

/-- The word at PC (20_memory.md R23). -/
def State.fetch (s : State) : Word := s.pmem.readWord s.pc

/-! ## The data bus -/

/-- What a data address reaches (20_memory.md R24, R26). -/
inductive BusTarget where
  | imask
  | device (r : PeriphReg)
  | unmapped
  | dmem (a : PAddr)
deriving DecidableEq, Repr

/-- The I/O test is made on the whole address; every other address is masked to 15 bits (R24). In the I/O
window, IMASK's address comes before the map (R26). -/
def busTarget (a : Word) : BusTarget :=
  if a.extractLsb' 8 8 = 0xFF#8 then
    if a = Config.addrImask then .imask
    else match Config.ioMap a with
      | some r => .device r
      | none => .unmapped
  else .dmem (a.setWidth 15)

/-- MemRead (R26): the value, and the state after it, where a peripheral register has seen the read (R29; its
value is the free value of log 4). What a read does to the device the spec does not define; that a read of a timer
register neither arms nor disarms the timer is DESIGN CHOICE (log 7). -/
def State.busRead (s : State) (a : Word) : Word × State :=
  match busTarget a with
  | .imask => (s.imask, s)
  | .device r => (Config.devRead s.devEvents r, { s with devEvents := .read r :: s.devEvents })
  | .unmapped => (0xFFFF#16, s)
  | .dmem d => (s.dmem.readWord d, s)

/-- The timer's pending armings after a write to a peripheral register (R30): one more if the write arms it, none if it
disarms it. What a write does is the open parameter `P_TIMER`; that no read does either is DESIGN CHOICE (log 7). -/
def State.timerAfterWrite (s : State) (r : PeriphReg) (v : Word) : Nat :=
  if r = .timerValue ∨ r = .timerControl then
    match Config.timerEffect s.devEvents r v with
    | .arm => s.timerArmed + 1
    | .disarm => 0
    | .neither => s.timerArmed
  else s.timerArmed

/-- MemWrite (R27): all 16 bits of IMASK, an event to a peripheral register, nothing at an unmapped address, or
a word of DMEM. -/
def State.busWrite (s : State) (a : Word) (v : Word) : State :=
  match busTarget a with
  | .imask => { s with imask := v }
  | .device r => { s with devEvents := .write r v :: s.devEvents, timerArmed := s.timerAfterWrite r v }
  | .unmapped => s
  | .dmem d => { s with dmem := s.dmem.writeWord d v }

/-! ## The program counter and the delay slot -/

/-- The end of Execute (40_control.md R62): PC goes on, to the pending target after a delay slot, and a taken
jump becomes pending. JT keeps its value when no jump is taken (log 14). -/
def State.advance (s : State) (take : Option PAddr) : State :=
  { s with
    pc := if s.jp then s.jt else s.pc + 1#15
    jp := take.isSome
    jt := take.getD s.jt }

/-! ## Taking an interrupt and returning from one -/

/-- The vector page base, fixed (60_exceptions.md R109). -/
def vectorBase : PAddr := 0x7F00#15

/-- HwVector(s) = 0x7F00 | (s << 4) (R109). -/
def hwVector (src : Source) : PAddr := vectorBase ||| (BitVec.ofNat 15 src.val <<< 4)

/-- SwVector(n) = 0x7F00 | n (R109). -/
def swVector (n : Byte) : PAddr := vectorBase ||| n.setWidth 15

/-- Service(v), the interrupt entry, the same for every cause (60_exceptions.md R110). -/
def State.service (s : State) (v : PAddr) : State :=
  { s with se := s.flags.e, flags := { s.flags with e := false }, ra := s.pc, pc := v }

/-- What RTI does before its delay slot: E from SE, a re-scan owed, the jump to RA pending
(41_transfer_system.md R76). -/
def State.returnFromInterrupt (s : State) : State :=
  State.advance { s with flags := { s.flags with e := s.se }, rescan := true } (some s.ra)

/-! ## The arbiter -/

/-- The source's mask bit is set (10_state.md R17). -/
def State.unmasked (s : State) (src : Source) : Bool := s.imask.getLsbD src.val

/-- A raise of a source at a boundary (60_exceptions.md R112): serviced if E = 1 and it is the timer or its mask
bit is set, else pending. -/
def State.raise (s : State) (src : Source) : State :=
  if s.flags.e && (src = 15 || s.unmasked src) then s.service (hwVector src)
  else { s with ipend := s.ipend ||| BitVec.twoPow 16 src.val }

/-- The lowest index with its bit set (60_exceptions.md R113). -/
def lowestSource (m : Word) : Option Source := (List.finRange 16).find? fun src => m.getLsbD src.val

/-- Rescan() (60_exceptions.md R113): the lowest pending source whose mask bit is set is serviced, whatever E
is, and is pending no more. -/
def State.runRescan (s : State) : State :=
  match lowestSource (s.ipend &&& s.imask) with
  | none => { s with rescan := false }
  | some src =>
    State.service { s with rescan := false, ipend := s.ipend &&& ~~~(BitVec.twoPow 16 src.val) } (hwVector src)

/-- Of a boundary's scheduled requests, those that arrive, and the armings of the timer left after them: the timer's
line, source 15, is raised once per arming and not at all without one (20_memory.md R30; log 7). -/
def arriving (armed : Nat) (now : List Source) : List Source × Nat :=
  match now with
  | [] => ([], armed)
  | k :: rest =>
    if k = 15 then
      match armed with
      | 0 => arriving 0 rest
      | n + 1 => (k :: (arriving n rest).1, (arriving n rest).2)
    else (k :: (arriving armed rest).1, (arriving armed rest).2)

/-- The requests of this boundary arrive and join those held from the one before. Which come first the spec does not
say: the held ones, DESIGN CHOICE (log 6). -/
def State.takeRequests (s : State) : State :=
  match s.raises with
  | [] => s
  | now :: later =>
    { s with
      held := s.held ++ (arriving s.timerArmed now).1
      timerArmed := (arriving s.timerArmed now).2
      raises := later }

/-- The raises presented at this boundary, in order (60_exceptions.md R115). -/
def State.deliverRaises (s : State) : State := s.held.foldl State.raise { s with held := [] }

/-- The instruction is a software interrupt, serviced first at its own boundary (R115). -/
def isSoftwareInterrupt (i : Instr) : Bool :=
  match i with
  | .int _ => true
  | _ => false

/-- The boundary that ends a step (60_exceptions.md R115), after the service of a software interrupt, which
`exec` has done if there was one (log 15). While a jump is pending nothing is serviced, and the requests are held for
the next boundary; else an owed re-scan, unless a software interrupt was serviced; then the raises. -/
def State.boundary (s : State) (serviced : Bool) : State :=
  let t := s.takeRequests
  if t.jp then t
  else State.deliverRaises (if t.rescan && !serviced then t.runRescan else t)

/-! ## The decode-failure stop -/

/-- Illegal(A, W) (60_exceptions.md R118): RUN records the address and the word, nothing else changes. No boundary is
run, and what becomes of the requests scheduled for it, or for one of a stuck core, the spec does not say: DESIGN
CHOICE (log 19), they stay to come and meet the first boundary after the reset. -/
def State.stopIllegal (s : State) : State := { s with run := .illegal s.pc s.fetch }

end Sys2Proof.Machine
end

