-- ==== Sys2Proof/Machine/Flags.lean ====
section
/-! DEFINITION. The conditions (40_control.md R66) and what the ALU computes, flags included (42_alu.md R78 to
R101). -/

namespace Sys2Proof.Machine

/-! ## Conditions -/

/-- P ("positive"), computed and not stored (10_state.md R16). -/
def Flags.positive (f : Flags) : Bool := !(f.n || f.z)

/-- The flag or computed bit a condition selects, by bits 3 to 1 of its field (R66). -/
def Flags.condBase (f : Flags) (idx : BitVec 3) : Bool :=
  match idx.toNat with
  | 0 => false
  | 1 => f.z
  | 2 => f.c
  | 3 => f.n
  | 4 => f.o
  | _ => f.positive

/-- Cond(c): the selected bit, negated if bit 0 of the field is set (R66). -/
def Flags.holds (f : Flags) (cond : Cond) : Bool :=
  f.condBase (cond.code.extractLsb' 1 3) ^^ cond.code.getLsbD 0

/-! ## The ALU -/

/-- What an ALU instruction computes: the 16-bit result, and the carry and the overflow where the instruction
defines them (R80). -/
structure AluOut where
  result : Word
  carry : Option Bool
  overflow : Option Bool
deriving DecidableEq, Repr

/-- The flags after an ALU instruction: N and Z always, C and O only where defined, E never (R80). -/
def AluOut.flags (out : AluOut) (f : Flags) : Flags :=
  { e := f.e
    z := out.result = 0#16
    c := out.carry.getD f.c
    n := out.result.getLsbD 15
    o := out.overflow.getD f.o }

/-- The carry-in as a number (R78). -/
def carryIn (f : Flags) : Int := if f.c then 1 else 0

/-- The raw result of the arithmetic unit: the exact integer modulo 2^17 (R79). -/
def rawResult (exact : Int) : BitVec 17 := BitVec.ofInt 17 exact

/-- The arithmetic unit: the low 16 bits of the raw result, its bit 16 the carry or the borrow, and an overflow
formula over the result (R79, R80). -/
def arithOut (exact : Int) (overflow : Word → Bool) : AluOut :=
  let r := (rawResult exact).setWidth 16
  { result := r, carry := some ((rawResult exact).getLsbD 16), overflow := some (overflow r) }

/-- Overflow of ADD and ADDC: the operand signs are equal and differ from the result's (R83). -/
def addOverflow (a b r : Word) : Bool := a.getLsbD 15 == b.getLsbD 15 && r.getLsbD 15 != a.getLsbD 15

/-- Overflow of SUB and SUBB: the operand signs differ and the result's differs from operand A's (R84). -/
def subOverflow (a b r : Word) : Bool := a.getLsbD 15 != b.getLsbD 15 && r.getLsbD 15 != a.getLsbD 15

/-- ADD (R83). -/
def aluAdd (a b : Word) : AluOut := arithOut (a.toNat + b.toNat) (addOverflow a b)

/-- SUB (R84): the carry is the borrow. -/
def aluSub (a b : Word) : AluOut := arithOut ((a.toNat : Int) - b.toNat) (subOverflow a b)

/-- ADDC (R85). -/
def aluAddc (f : Flags) (a b : Word) : AluOut := arithOut (a.toNat + b.toNat + carryIn f) (addOverflow a b)

/-- SUBB (R86). -/
def aluSubb (f : Flags) (a b : Word) : AluOut :=
  arithOut ((a.toNat : Int) - b.toNat - carryIn f) (subOverflow a b)

/-- DEC (R87): overflow when operand A is negative and the result is not. -/
def aluDec (a : Word) : AluOut := arithOut ((a.toNat : Int) - 1) fun r => a.getLsbD 15 && !r.getLsbD 15

/-- INC (R88): overflow when operand A is not negative and the result is. -/
def aluInc (a : Word) : AluOut := arithOut ((a.toNat : Int) + 1) fun r => !a.getLsbD 15 && r.getLsbD 15

/-- The logic unit writes neither C nor O (R80, R89 to R92). -/
def logicOut (r : Word) : AluOut := { result := r, carry := none, overflow := none }

/-- The shift unit: C is the bit shifted out, O is not written (R80, R93). -/
def shiftOut (r : Word) (out : Bool) : AluOut := { result := r, carry := some out, overflow := none }

/-- SHR (R94). -/
def aluShr (a : Word) : AluOut := shiftOut (a >>> 1) (a.getLsbD 0)

/-- SHL (R95). -/
def aluShl (a : Word) : AluOut := shiftOut (a <<< 1) (a.getLsbD 15)

/-- SHRA (R96): bit 15 is kept. -/
def aluShra (a : Word) : AluOut := shiftOut ((a >>> 1) ||| (a &&& 0x8000#16)) (a.getLsbD 0)

/-- SHLA (R97): as SHL, and O when the sign changes. -/
def aluShla (a : Word) : AluOut :=
  { shiftOut (a <<< 1) (a.getLsbD 15) with overflow := some (a.getLsbD 15 != (a <<< 1).getLsbD 15) }

/-- ROR (R98). -/
def aluRor (a : Word) : AluOut := shiftOut (a.extractLsb' 0 1 ++ a.extractLsb' 1 15) (a.getLsbD 0)

/-- ROL (R99). -/
def aluRol (a : Word) : AluOut := shiftOut (a.extractLsb' 0 15 ++ a.extractLsb' 15 1) (a.getLsbD 15)

/-- RORC (R100): the carry-in enters at bit 15. -/
def aluRorc (f : Flags) (a : Word) : AluOut :=
  shiftOut (BitVec.ofBool f.c ++ a.extractLsb' 1 15) (a.getLsbD 0)

/-- ROLC (R101): the carry-in enters at bit 0. -/
def aluRolc (f : Flags) (a : Word) : AluOut :=
  shiftOut (a.extractLsb' 0 15 ++ BitVec.ofBool f.c) (a.getLsbD 15)

/-- The result goes to rd, discarded for R0, and the flags are written whatever rd is (R81). -/
def State.applyAlu (s : State) (rd : Reg) (out : AluOut) : State :=
  State.writeReg { s with flags := out.flags s.flags } rd out.result

end Sys2Proof.Machine
end

