-- ==== Sys2Proof/Machine/Operands.lean ====
section
/-! DEFINITION. The operand forms (30_encoding.md R49): immediates, displacements, jump targets and links. -/

namespace Sys2Proof.Machine

/-- The target of BR: A plus the sign-extended displacement, modulo 2^15 (40_control.md R68, R65). -/
def branchTarget (a : PAddr) (disp : Byte) : PAddr := a + disp.signExtend 15

/-- The target of JMP and JAL: the register's low 15 bits (40_control.md R69). -/
def jumpTarget (x : Word) : PAddr := x.setWidth 15

/-- JAL's link: the address of the JAL plus the open offset, modulo 2^15, widened with zeros (40_control.md R70;
log 2). -/
def linkValue (a : PAddr) : Word := (a + BitVec.ofNat 15 Config.jalLinkOfs.toNat).setWidth 16

/-- MVI's immediate, widened as the open parameter says (43_immediate_system.md R102; log 1). -/
def mviValue (imm8 : Byte) : Word :=
  match Config.mviExt with
  | .sign => imm8.signExtend 16
  | .zero => imm8.setWidth 16

/-- MVIH: the high byte replaced, the low byte kept (43_immediate_system.md R103). -/
def withHighByte (x : Word) (imm8 : Byte) : Word := imm8 ++ x.extractLsb' 0 8

/-- MVIL: the low byte replaced, the high byte kept (43_immediate_system.md R104). -/
def withLowByte (x : Word) (imm8 : Byte) : Word := x.extractLsb' 8 8 ++ imm8

end Sys2Proof.Machine
end

