-- ==== Sys2Proof/Machine/Alu.lean ====
section
/-! DEFINITION. The meanings of format 10: the ALU instructions (42_alu.md R78 to R101). Operands and the
carry-in are those at the start of the step (R78). -/

namespace Sys2Proof.Machine

/-- An ALU instruction with the two operands Aop and Bop (R78, R81). -/
def aluBinary (rd ra rb : Reg) (f : Word → Word → AluOut) (s : State) : Answer :=
  .next ((s.applyAlu rd (f (s.readReg ra) (s.readReg rb))).advance none)

/-- An ALU instruction with the operand Aop only; rb is ignored (R78, R81). -/
def aluUnary (rd ra : Reg) (f : Word → AluOut) (s : State) : Answer :=
  .next ((s.applyAlu rd (f (s.readReg ra))).advance none)

/-- ADD (R83). -/
def execAdd (rd ra rb : Reg) (s : State) : Answer := aluBinary rd ra rb aluAdd s

/-- SUB (R84). -/
def execSub (rd ra rb : Reg) (s : State) : Answer := aluBinary rd ra rb aluSub s

/-- ADDC (R85). -/
def execAddc (rd ra rb : Reg) (s : State) : Answer := aluBinary rd ra rb (aluAddc s.flags) s

/-- SUBB (R86). -/
def execSubb (rd ra rb : Reg) (s : State) : Answer := aluBinary rd ra rb (aluSubb s.flags) s

/-- DEC (R87). -/
def execDec (rd ra : Reg) (s : State) : Answer := aluUnary rd ra aluDec s

/-- INC (R88). -/
def execInc (rd ra : Reg) (s : State) : Answer := aluUnary rd ra aluInc s

/-- COM (R89). -/
def execCom (rd ra : Reg) (s : State) : Answer := aluUnary rd ra (fun a => logicOut (~~~a)) s

/-- AND (R90). -/
def execAnd (rd ra rb : Reg) (s : State) : Answer := aluBinary rd ra rb (fun a b => logicOut (a &&& b)) s

/-- OR (R91). -/
def execOr (rd ra rb : Reg) (s : State) : Answer := aluBinary rd ra rb (fun a b => logicOut (a ||| b)) s

/-- XOR (R92). -/
def execXor (rd ra rb : Reg) (s : State) : Answer := aluBinary rd ra rb (fun a b => logicOut (a ^^^ b)) s

/-- SHR (R94). -/
def execShr (rd ra : Reg) (s : State) : Answer := aluUnary rd ra aluShr s

/-- SHL (R95). -/
def execShl (rd ra : Reg) (s : State) : Answer := aluUnary rd ra aluShl s

/-- SHRA (R96). -/
def execShra (rd ra : Reg) (s : State) : Answer := aluUnary rd ra aluShra s

/-- SHLA (R97). -/
def execShla (rd ra : Reg) (s : State) : Answer := aluUnary rd ra aluShla s

/-- ROR (R98). -/
def execRor (rd ra : Reg) (s : State) : Answer := aluUnary rd ra aluRor s

/-- ROL (R99). -/
def execRol (rd ra : Reg) (s : State) : Answer := aluUnary rd ra aluRol s

/-- RORC (R100). -/
def execRorc (rd ra : Reg) (s : State) : Answer := aluUnary rd ra (aluRorc s.flags) s

/-- ROLC (R101). -/
def execRolc (rd ra : Reg) (s : State) : Answer := aluUnary rd ra (aluRolc s.flags) s

end Sys2Proof.Machine
end

