-- ==== Sys2Proof/Machine/Control.lean ====
section
/-! DEFINITION. The meanings of format 00: NOP, BR, JMP and JAL (40_control.md R67 to R70). A meaning is Execute
and the program counter's advance of R62; the boundary comes after it, in the step (log 15). -/

namespace Sys2Proof.Machine

/-- BR on a condition (R68): relative to the address of the BR itself. -/
def branchOn (cond : Cond) (disp : Byte) (s : State) : Answer :=
  .next (s.advance (if s.flags.holds cond then some (branchTarget s.pc disp) else none))

/-- JMP on a condition (R69). -/
def jumpOn (cond : Cond) (rs : Reg) (s : State) : Answer :=
  .next (s.advance (if s.flags.holds cond then some (jumpTarget (s.readReg rs)) else none))

/-- JAL on a condition (R70): the target is read before the link is written, and no link is written when the
condition is false. -/
def jumpLinkOn (cond : Cond) (rs : Reg) (s : State) : Answer :=
  .next (if s.flags.holds cond
    then (s.writeReg Config.jalLinkReg (linkValue s.pc)).advance (some (jumpTarget (s.readReg rs)))
    else s.advance none)

/-- NOP (R67). -/
def execNop (s : State) : Answer := .next (s.advance none)

/-- BR (R68). -/
def execBr (disp : Byte) (s : State) : Answer := branchOn .always disp s

/-- BR.Z (R68). -/
def execBrZ (disp : Byte) (s : State) : Answer := branchOn .z disp s

/-- BR.NZ (R68). -/
def execBrNz (disp : Byte) (s : State) : Answer := branchOn .nz disp s

/-- BR.C (R68). -/
def execBrC (disp : Byte) (s : State) : Answer := branchOn .c disp s

/-- BR.NC (R68). -/
def execBrNc (disp : Byte) (s : State) : Answer := branchOn .nc disp s

/-- BR.N (R68). -/
def execBrN (disp : Byte) (s : State) : Answer := branchOn .n disp s

/-- BR.NN (R68). -/
def execBrNn (disp : Byte) (s : State) : Answer := branchOn .nn disp s

/-- BR.O (R68). -/
def execBrO (disp : Byte) (s : State) : Answer := branchOn .o disp s

/-- BR.NO (R68). -/
def execBrNo (disp : Byte) (s : State) : Answer := branchOn .no disp s

/-- BR.P (R68). -/
def execBrP (disp : Byte) (s : State) : Answer := branchOn .p disp s

/-- BR.NP (R68). -/
def execBrNp (disp : Byte) (s : State) : Answer := branchOn .np disp s

/-- JMP (R69). -/
def execJmp (rs : Reg) (s : State) : Answer := jumpOn .always rs s

/-- JMP.Z (R69). -/
def execJmpZ (rs : Reg) (s : State) : Answer := jumpOn .z rs s

/-- JMP.NZ (R69). -/
def execJmpNz (rs : Reg) (s : State) : Answer := jumpOn .nz rs s

/-- JMP.C (R69). -/
def execJmpC (rs : Reg) (s : State) : Answer := jumpOn .c rs s

/-- JMP.NC (R69). -/
def execJmpNc (rs : Reg) (s : State) : Answer := jumpOn .nc rs s

/-- JMP.N (R69). -/
def execJmpN (rs : Reg) (s : State) : Answer := jumpOn .n rs s

/-- JMP.NN (R69). -/
def execJmpNn (rs : Reg) (s : State) : Answer := jumpOn .nn rs s

/-- JMP.O (R69). -/
def execJmpO (rs : Reg) (s : State) : Answer := jumpOn .o rs s

/-- JMP.NO (R69). -/
def execJmpNo (rs : Reg) (s : State) : Answer := jumpOn .no rs s

/-- JMP.P (R69). -/
def execJmpP (rs : Reg) (s : State) : Answer := jumpOn .p rs s

/-- JMP.NP (R69). -/
def execJmpNp (rs : Reg) (s : State) : Answer := jumpOn .np rs s

/-- JAL (R70). -/
def execJal (rs : Reg) (s : State) : Answer := jumpLinkOn .always rs s

/-- JAL.Z (R70). -/
def execJalZ (rs : Reg) (s : State) : Answer := jumpLinkOn .z rs s

/-- JAL.NZ (R70). -/
def execJalNz (rs : Reg) (s : State) : Answer := jumpLinkOn .nz rs s

/-- JAL.C (R70). -/
def execJalC (rs : Reg) (s : State) : Answer := jumpLinkOn .c rs s

/-- JAL.NC (R70). -/
def execJalNc (rs : Reg) (s : State) : Answer := jumpLinkOn .nc rs s

/-- JAL.N (R70). -/
def execJalN (rs : Reg) (s : State) : Answer := jumpLinkOn .n rs s

/-- JAL.NN (R70). -/
def execJalNn (rs : Reg) (s : State) : Answer := jumpLinkOn .nn rs s

/-- JAL.O (R70). -/
def execJalO (rs : Reg) (s : State) : Answer := jumpLinkOn .o rs s

/-- JAL.NO (R70). -/
def execJalNo (rs : Reg) (s : State) : Answer := jumpLinkOn .no rs s

/-- JAL.P (R70). -/
def execJalP (rs : Reg) (s : State) : Answer := jumpLinkOn .p rs s

/-- JAL.NP (R70). -/
def execJalNp (rs : Reg) (s : State) : Answer := jumpLinkOn .np rs s

end Sys2Proof.Machine
end

