-- ==== Sys2Proof/Machine/Immediate.lean ====
section
/-! DEFINITION. The meanings of format 11: immediate moves and the carry instructions (43_immediate_system.md
R102 to R107). -/

namespace Sys2Proof.Machine

/-- The state with C set to b and no other flag changed (R105 to R107). -/
def State.setCarry (s : State) (b : Bool) : State := { s with flags := { s.flags with c := b } }

/-- MVI (R102). -/
def execMvi (rd : Reg) (imm8 : Byte) (s : State) : Answer := .next ((s.writeReg rd (mviValue imm8)).advance none)

/-- MVIH (R103). -/
def execMvih (rd : Reg) (imm8 : Byte) (s : State) : Answer :=
  .next ((s.writeReg rd (withHighByte (s.readReg rd) imm8)).advance none)

/-- MVIL (R104). -/
def execMvil (rd : Reg) (imm8 : Byte) (s : State) : Answer :=
  .next ((s.writeReg rd (withLowByte (s.readReg rd) imm8)).advance none)

/-- CLC (R105). -/
def execClc (s : State) : Answer := .next ((s.setCarry false).advance none)

/-- STC (R106). -/
def execStc (s : State) : Answer := .next ((s.setCarry true).advance none)

/-- CMC (R107). -/
def execCmc (s : State) : Answer := .next ((s.setCarry (!s.flags.c)).advance none)

end Sys2Proof.Machine
end

