-- ==== Sys2Proof/Machine/Transfer.lean ====
section
/-! DEFINITION. The meanings of format 01: transfer and system instructions (41_transfer_system.md R71 to R77). -/

namespace Sys2Proof.Machine

/-- MOV (R71). -/
def execMov (rd ra : Reg) (s : State) : Answer := .next ((s.writeReg rd (s.readReg ra)).advance none)

/-- LOAD (R72): the bus read happens whatever rd is. -/
def execLoad (rd ra : Reg) (s : State) : Answer :=
  let read := s.busRead (s.readReg ra)
  .next ((read.2.writeReg rd read.1).advance none)

/-- STOR (R73). -/
def execStor (ra rb : Reg) (s : State) : Answer :=
  .next ((s.busWrite (s.readReg ra) (s.readReg rb)).advance none)

/-- ENI (R74): the re-scan it asks for happens at the boundary. -/
def execEni (s : State) : Answer :=
  .next (State.advance { s with flags := { s.flags with e := true }, rescan := true } none)

/-- DSI (R75). -/
def execDsi (s : State) : Answer := .next (State.advance { s with flags := { s.flags with e := false } } none)

/-- RTI (R76). -/
def execRti (s : State) : Answer := .next s.returnFromInterrupt

/-- INT n (R77): the service, which comes first at this step's boundary (60_exceptions.md R114, R115); no jump
can be pending there, as INT sets none. -/
def execInt (n : Byte) (s : State) : Answer := .next ((s.advance none).service (swVector n))

end Sys2Proof.Machine
end

