-- ==== Sys2Proof/Machine/Dispatch.lean ====
section
/-! DEFINITION. What each instruction does: one arm per constructor. -/

namespace Sys2Proof.Machine

def exec (i : Instr) (s : State) : Host.Outcome State Fault Refusal :=
  match i with
  | .nop => Sys2Proof.Machine.execNop s
  | .br disp => Sys2Proof.Machine.execBr disp s
  | .brZ disp => Sys2Proof.Machine.execBrZ disp s
  | .brNz disp => Sys2Proof.Machine.execBrNz disp s
  | .brC disp => Sys2Proof.Machine.execBrC disp s
  | .brNc disp => Sys2Proof.Machine.execBrNc disp s
  | .brN disp => Sys2Proof.Machine.execBrN disp s
  | .brNn disp => Sys2Proof.Machine.execBrNn disp s
  | .brO disp => Sys2Proof.Machine.execBrO disp s
  | .brNo disp => Sys2Proof.Machine.execBrNo disp s
  | .brP disp => Sys2Proof.Machine.execBrP disp s
  | .brNp disp => Sys2Proof.Machine.execBrNp disp s
  | .jmp rs => Sys2Proof.Machine.execJmp rs s
  | .jmpZ rs => Sys2Proof.Machine.execJmpZ rs s
  | .jmpNz rs => Sys2Proof.Machine.execJmpNz rs s
  | .jmpC rs => Sys2Proof.Machine.execJmpC rs s
  | .jmpNc rs => Sys2Proof.Machine.execJmpNc rs s
  | .jmpN rs => Sys2Proof.Machine.execJmpN rs s
  | .jmpNn rs => Sys2Proof.Machine.execJmpNn rs s
  | .jmpO rs => Sys2Proof.Machine.execJmpO rs s
  | .jmpNo rs => Sys2Proof.Machine.execJmpNo rs s
  | .jmpP rs => Sys2Proof.Machine.execJmpP rs s
  | .jmpNp rs => Sys2Proof.Machine.execJmpNp rs s
  | .jal rs => Sys2Proof.Machine.execJal rs s
  | .jalZ rs => Sys2Proof.Machine.execJalZ rs s
  | .jalNz rs => Sys2Proof.Machine.execJalNz rs s
  | .jalC rs => Sys2Proof.Machine.execJalC rs s
  | .jalNc rs => Sys2Proof.Machine.execJalNc rs s
  | .jalN rs => Sys2Proof.Machine.execJalN rs s
  | .jalNn rs => Sys2Proof.Machine.execJalNn rs s
  | .jalO rs => Sys2Proof.Machine.execJalO rs s
  | .jalNo rs => Sys2Proof.Machine.execJalNo rs s
  | .jalP rs => Sys2Proof.Machine.execJalP rs s
  | .jalNp rs => Sys2Proof.Machine.execJalNp rs s
  | .mov rd ra => Sys2Proof.Machine.execMov rd ra s
  | .load rd ra => Sys2Proof.Machine.execLoad rd ra s
  | .stor ra rb => Sys2Proof.Machine.execStor ra rb s
  | .eni => Sys2Proof.Machine.execEni s
  | .dsi => Sys2Proof.Machine.execDsi s
  | .rti => Sys2Proof.Machine.execRti s
  | .int n => Sys2Proof.Machine.execInt n s
  | .add rd ra rb => Sys2Proof.Machine.execAdd rd ra rb s
  | .sub rd ra rb => Sys2Proof.Machine.execSub rd ra rb s
  | .addc rd ra rb => Sys2Proof.Machine.execAddc rd ra rb s
  | .subb rd ra rb => Sys2Proof.Machine.execSubb rd ra rb s
  | .dec rd ra => Sys2Proof.Machine.execDec rd ra s
  | .inc rd ra => Sys2Proof.Machine.execInc rd ra s
  | .com rd ra => Sys2Proof.Machine.execCom rd ra s
  | .and rd ra rb => Sys2Proof.Machine.execAnd rd ra rb s
  | .or rd ra rb => Sys2Proof.Machine.execOr rd ra rb s
  | .xor rd ra rb => Sys2Proof.Machine.execXor rd ra rb s
  | .shr rd ra => Sys2Proof.Machine.execShr rd ra s
  | .shl rd ra => Sys2Proof.Machine.execShl rd ra s
  | .shra rd ra => Sys2Proof.Machine.execShra rd ra s
  | .shla rd ra => Sys2Proof.Machine.execShla rd ra s
  | .ror rd ra => Sys2Proof.Machine.execRor rd ra s
  | .rol rd ra => Sys2Proof.Machine.execRol rd ra s
  | .rorc rd ra => Sys2Proof.Machine.execRorc rd ra s
  | .rolc rd ra => Sys2Proof.Machine.execRolc rd ra s
  | .mvi rd imm8 => Sys2Proof.Machine.execMvi rd imm8 s
  | .mvih rd imm8 => Sys2Proof.Machine.execMvih rd imm8 s
  | .mvil rd imm8 => Sys2Proof.Machine.execMvil rd imm8 s
  | .clc => Sys2Proof.Machine.execClc s
  | .stc => Sys2Proof.Machine.execStc s
  | .cmc => Sys2Proof.Machine.execCmc s

end Sys2Proof.Machine
end

