-- ==== Sys2Proof/Machine/Step.lean ====
section
/-! DEFINITION. One step of the core (40_control.md R62), and the state in which the next step runs a given word. -/

namespace Sys2Proof.Machine

/-- One step (R62): a stuck core does nothing (R118); else the word at PC is fetched and decoded; an illegal word
stops the core; an instruction is executed and the boundary ends the step (R115). -/
def step (s : State) : Host.Outcome State Fault Refusal :=
  match s.run with
  | .illegal _ _ => .next s
  | .running =>
    match decode s.fetch with
    | .error _ => .next s.stopIllegal
    | .ok i =>
      match exec i s with
      | .next t => .next (t.boundary (isSoftwareInterrupt i))
      | .fault r => .fault r
      | .refused r => .refused r

/-- The state with the word w stored at PC, where the next step fetches, and the core running (log 10, log 17). -/
def State.withFetchWord (s : State) (nbits w : Nat) : State :=
  { s with pmem := s.pmem.writeWord s.pc (BitVec.ofNat 16 (w % 2 ^ nbits)), run := .running }

end Sys2Proof.Machine
end

