-- ==== Sys2Proof/Machine/HostInterface.lean ====
section
/-! DEFINITION. What the host does to the core between steps (10_state.md R20, 70_reset_and_hazards.md R126 to
R136). -/

namespace Sys2Proof.Machine

/-- Loading the two memory images (R129): `PMEM_INIT` and `DMEM_INIT`. -/
def State.hostLoad (s : State) (pmemImage dmemImage : Memory) : State :=
  { s with pmem := pmemImage, dmem := dmemImage, dmemInit := dmemImage }

/-- The reset input (R20, R126, R127): every register at its reset value, PMEM and DMEM at the images loaded
last. PMEM holds its image still, since no instruction writes it (20_memory.md R23; log 11). What the devices
have seen and what the environment has still to deliver, held requests included, are not the core's, and stay: DESIGN
CHOICE (log 4, log 19). The timer's arming is as in `State.reset` (log 7). -/
def State.hostReset (s : State) : State :=
  { State.reset with
    pmem := s.pmem
    dmem := s.dmemInit
    dmemInit := s.dmemInit
    raises := s.raises
    held := s.held
    devEvents := s.devEvents }

/-- A hardware request added to those of the coming boundary, after the ones already there (R20, R128). -/
def State.hostDeliver (s : State) (src : Source) : State :=
  match s.raises with
  | [] => { s with raises := [[src]] }
  | now :: later => { s with raises := (now ++ [src]) :: later }

/-- A device may raise this source: the timer source 15 (60_exceptions.md R121), any other source the device that
`P_IRQ_SOURCES` names for it (R122). -/
def deviceDrives (d : Device) (src : Source) : Bool :=
  if src = 15 then d = .timer else Config.irqDriver src = some d

/-- A device raises a source at the coming boundary (60_exceptions.md R112); a source it does not drive is not raised. -/
def State.deviceRaise (s : State) (d : Device) (src : Source) : State :=
  if deviceDrives d src then s.hostDeliver src else s

/-- A breakpoint match: on PC after a step, any service included (R135). -/
def State.breakpointHit (s : State) (bp : PAddr) : Bool := s.pc = bp

/-- Stepping until the breakpoint matches, the core is stuck, or the step budget is spent (R135, R136). -/
def runToBreakpoint (bp : PAddr) (budget : Nat) (s : State) : Answer :=
  match budget with
  | 0 => .next s
  | n + 1 =>
    match step s with
    | .next t => if t.breakpointHit bp || t.run ≠ .running then .next t else runToBreakpoint bp n t
    | .fault r => .fault r
    | .refused r => .refused r

end Sys2Proof.Machine
end

