-- ==== Sys2Proof/Machine/Toolchain.lean ====
section
/-! DEFINITION. The toolchain contract (30_encoding.md R57 to R61): the parts of the assembler and disassembler that
fix facts of the instruction set. The assembler itself, as software, is out of scope (00_scope.md R4). -/

namespace Sys2Proof.Machine

/-- The row of the opcode map an instruction belongs to (30_encoding.md R50). -/
def rowOf : Instr → OpRow
  | .nop => ⟨"NOP", 0x0000#16, 0xF000#16, 0xF000#16⟩
  | .br _ => ⟨"BR", 0x1100#16, 0xFF00#16, 0xFFFF#16⟩
  | .brZ _ => ⟨"BR.Z", 0x1200#16, 0xFF00#16, 0xFFFF#16⟩
  | .brNz _ => ⟨"BR.NZ", 0x1300#16, 0xFF00#16, 0xFFFF#16⟩
  | .brC _ => ⟨"BR.C", 0x1400#16, 0xFF00#16, 0xFFFF#16⟩
  | .brNc _ => ⟨"BR.NC", 0x1500#16, 0xFF00#16, 0xFFFF#16⟩
  | .brN _ => ⟨"BR.N", 0x1600#16, 0xFF00#16, 0xFFFF#16⟩
  | .brNn _ => ⟨"BR.NN", 0x1700#16, 0xFF00#16, 0xFFFF#16⟩
  | .brO _ => ⟨"BR.O", 0x1800#16, 0xFF00#16, 0xFFFF#16⟩
  | .brNo _ => ⟨"BR.NO", 0x1900#16, 0xFF00#16, 0xFFFF#16⟩
  | .brP _ => ⟨"BR.P", 0x1A00#16, 0xFF00#16, 0xFFFF#16⟩
  | .brNp _ => ⟨"BR.NP", 0x1B00#16, 0xFF00#16, 0xFFFF#16⟩
  | .jmp _ => ⟨"JMP", 0x2100#16, 0xFF00#16, 0xFF07#16⟩
  | .jmpZ _ => ⟨"JMP.Z", 0x2200#16, 0xFF00#16, 0xFF07#16⟩
  | .jmpNz _ => ⟨"JMP.NZ", 0x2300#16, 0xFF00#16, 0xFF07#16⟩
  | .jmpC _ => ⟨"JMP.C", 0x2400#16, 0xFF00#16, 0xFF07#16⟩
  | .jmpNc _ => ⟨"JMP.NC", 0x2500#16, 0xFF00#16, 0xFF07#16⟩
  | .jmpN _ => ⟨"JMP.N", 0x2600#16, 0xFF00#16, 0xFF07#16⟩
  | .jmpNn _ => ⟨"JMP.NN", 0x2700#16, 0xFF00#16, 0xFF07#16⟩
  | .jmpO _ => ⟨"JMP.O", 0x2800#16, 0xFF00#16, 0xFF07#16⟩
  | .jmpNo _ => ⟨"JMP.NO", 0x2900#16, 0xFF00#16, 0xFF07#16⟩
  | .jmpP _ => ⟨"JMP.P", 0x2A00#16, 0xFF00#16, 0xFF07#16⟩
  | .jmpNp _ => ⟨"JMP.NP", 0x2B00#16, 0xFF00#16, 0xFF07#16⟩
  | .jal _ => ⟨"JAL", 0x3100#16, 0xFF00#16, 0xFF07#16⟩
  | .jalZ _ => ⟨"JAL.Z", 0x3200#16, 0xFF00#16, 0xFF07#16⟩
  | .jalNz _ => ⟨"JAL.NZ", 0x3300#16, 0xFF00#16, 0xFF07#16⟩
  | .jalC _ => ⟨"JAL.C", 0x3400#16, 0xFF00#16, 0xFF07#16⟩
  | .jalNc _ => ⟨"JAL.NC", 0x3500#16, 0xFF00#16, 0xFF07#16⟩
  | .jalN _ => ⟨"JAL.N", 0x3600#16, 0xFF00#16, 0xFF07#16⟩
  | .jalNn _ => ⟨"JAL.NN", 0x3700#16, 0xFF00#16, 0xFF07#16⟩
  | .jalO _ => ⟨"JAL.O", 0x3800#16, 0xFF00#16, 0xFF07#16⟩
  | .jalNo _ => ⟨"JAL.NO", 0x3900#16, 0xFF00#16, 0xFF07#16⟩
  | .jalP _ => ⟨"JAL.P", 0x3A00#16, 0xFF00#16, 0xFF07#16⟩
  | .jalNp _ => ⟨"JAL.NP", 0x3B00#16, 0xFF00#16, 0xFF07#16⟩
  | .mov _ _ => ⟨"MOV", 0x4000#16, 0xC700#16, 0xFF38#16⟩
  | .load _ _ => ⟨"LOAD", 0x4200#16, 0xC700#16, 0xFF38#16⟩
  | .stor _ _ => ⟨"STOR", 0x4300#16, 0xC700#16, 0xC73F#16⟩
  | .eni => ⟨"ENI", 0x4400#16, 0xC700#16, 0xC700#16⟩
  | .dsi => ⟨"DSI", 0x4500#16, 0xC700#16, 0xC700#16⟩
  | .rti => ⟨"RTI", 0x4600#16, 0xC700#16, 0xC700#16⟩
  | .int _ => ⟨"INT", 0x4700#16, 0xC700#16, 0xC7FF#16⟩
  | .add _ _ _ => ⟨"ADD", 0x8000#16, 0xC7C0#16, 0xFFFF#16⟩
  | .sub _ _ _ => ⟨"SUB", 0x8040#16, 0xC7C0#16, 0xFFFF#16⟩
  | .addc _ _ _ => ⟨"ADDC", 0x8080#16, 0xC7C0#16, 0xFFFF#16⟩
  | .subb _ _ _ => ⟨"SUBB", 0x80C0#16, 0xC7C0#16, 0xFFFF#16⟩
  | .dec _ _ => ⟨"DEC", 0x8100#16, 0xC7C0#16, 0xFFF8#16⟩
  | .inc _ _ => ⟨"INC", 0x8140#16, 0xC7C0#16, 0xFFF8#16⟩
  | .com _ _ => ⟨"COM", 0x8200#16, 0xC7C0#16, 0xFFF8#16⟩
  | .and _ _ _ => ⟨"AND", 0x8240#16, 0xC7C0#16, 0xFFFF#16⟩
  | .or _ _ _ => ⟨"OR", 0x8280#16, 0xC7C0#16, 0xFFFF#16⟩
  | .xor _ _ _ => ⟨"XOR", 0x82C0#16, 0xC7C0#16, 0xFFFF#16⟩
  | .shr _ _ => ⟨"SHR", 0x8400#16, 0xC7C0#16, 0xFFF8#16⟩
  | .shl _ _ => ⟨"SHL", 0x8440#16, 0xC7C0#16, 0xFFF8#16⟩
  | .shra _ _ => ⟨"SHRA", 0x8480#16, 0xC7C0#16, 0xFFF8#16⟩
  | .shla _ _ => ⟨"SHLA", 0x84C0#16, 0xC7C0#16, 0xFFF8#16⟩
  | .ror _ _ => ⟨"ROR", 0x8500#16, 0xC7C0#16, 0xFFF8#16⟩
  | .rol _ _ => ⟨"ROL", 0x8540#16, 0xC7C0#16, 0xFFF8#16⟩
  | .rorc _ _ => ⟨"RORC", 0x8580#16, 0xC7C0#16, 0xFFF8#16⟩
  | .rolc _ _ => ⟨"ROLC", 0x85C0#16, 0xC7C0#16, 0xFFF8#16⟩
  | .mvi _ _ => ⟨"MVI", 0xC000#16, 0xC700#16, 0xFFFF#16⟩
  | .mvih _ _ => ⟨"MVIH", 0xC200#16, 0xC700#16, 0xFFFF#16⟩
  | .mvil _ _ => ⟨"MVIL", 0xC300#16, 0xC700#16, 0xFFFF#16⟩
  | .clc => ⟨"CLC", 0xC400#16, 0xC700#16, 0xC700#16⟩
  | .stc => ⟨"STC", 0xC500#16, 0xC700#16, 0xC700#16⟩
  | .cmc => ⟨"CMC", 0xC600#16, 0xC700#16, 0xC700#16⟩

/-- The mnemonic of an instruction, as spec/opcode_table.json spells it. -/
def mnemonic (i : Instr) : String := (rowOf i).mnemonic

/-- The displacement byte the assembler stores for a BR at address a to label t, or none for "relative branch out
of reach" (R58). The accepted range is −128 to 255, though the hardware reads the byte as signed. -/
def branchByte (a t : PAddr) : Option Byte :=
  let delta : Int := t.toNat - a.toNat
  if -128 ≤ delta ∧ delta ≤ 255 then some (BitVec.ofInt 8 delta) else none

/-- The spellings the disassembler prefers (R60). -/
inductive Alias where
  | cmp (ra rb : Reg)
  | neg (rd : Reg)
  | test (ra rb : Reg)
deriving DecidableEq, Repr

/-- The spelling of an instruction, if it has one of its own (R60); CMP wins where NEG applies too. -/
def aliasOf (i : Instr) : Option Alias :=
  match i with
  | .sub rd ra rb =>
    if rd = 0 then some (.cmp ra rb) else if ra = 0 ∧ rb = rd then some (.neg rd) else none
  | .and rd ra rb => if rd = 0 then some (.test ra rb) else none
  | _ => none

/-- The instructions a spelling stands for: it is the same instruction (R60). -/
def Alias.instr : Alias → Instr
  | .cmp ra rb => .sub 0 ra rb
  | .neg rd => .sub rd 0 rd
  | .test ra rb => .and 0 ra rb

/-- The shift-unit operations, which a repeat count may follow (R59). -/
inductive ShiftOp where
  | shr
  | shl
  | shra
  | shla
  | ror
  | rol
  | rorc
  | rolc
deriving DecidableEq, Repr

/-- The single instruction of a shift operation on one register. -/
def ShiftOp.instr (op : ShiftOp) (rd : Reg) : Instr :=
  match op with
  | .shr => .shr rd rd
  | .shl => .shl rd rd
  | .shra => .shra rd rd
  | .shla => .shla rd rd
  | .ror => .ror rd rd
  | .rol => .rol rd rd
  | .rorc => .rorc rd rd
  | .rolc => .rolc rd rd

/-- The two-operand ALU forms (R59). -/
inductive BinaryOp where
  | add
  | sub
  | addc
  | subb
  | and
  | or
  | xor
deriving DecidableEq, Repr

/-- `OP ra, rb` is `OP ra, ra, rb` (R59). -/
def BinaryOp.instr (op : BinaryOp) (ra rb : Reg) : Instr :=
  match op with
  | .add => .add ra ra rb
  | .sub => .sub ra ra rb
  | .addc => .addc ra ra rb
  | .subb => .subb ra ra rb
  | .and => .and ra ra rb
  | .or => .or ra ra rb
  | .xor => .xor ra ra rb

/-- The pseudo-instructions and convenience forms (R59). -/
inductive Pseudo where
  | binary (op : BinaryOp) (ra rb : Reg)
  | shift (op : ShiftOp) (rd : Reg) (k : Nat)
  | movFromMem (rd ra : Reg)
  | movToMem (ra rb : Reg)
  | movConst (rd : Reg) (k : Word)
  | push (rb : Reg)
  | pop (rd : Reg)
  | jmpLabel (cond : Cond) (t : Word)
  | jalLabel (cond : Cond) (t : Word)
  | call (t : Word)
  | ret
  | retn (n : Nat)
deriving DecidableEq, Repr

/-- A 16-bit constant into a register: MVIH then MVIL (R59). -/
def loadConst (rd : Reg) (k : Word) : List Instr :=
  [.mvih rd (k.extractLsb' 8 8), .mvil rd (k.extractLsb' 0 8)]

/-- The NOP after a branch-class instruction, only with `ENABLE_DELAY_SLOTS` off (R57). -/
def filler (delaySlots : Bool) : List Instr := if delaySlots then [] else [.nop]

/-- The branch-class instructions, those a delay slot follows (40_control.md R63): BR, JMP, JAL and RTI. -/
def isBranchClass (i : Instr) : Bool :=
  match i with
  | .br _ | .brZ _ | .brNz _ | .brC _ | .brNc _ | .brN _ | .brNn _ | .brO _ | .brNo _ | .brP _ | .brNp _
  | .jmp _ | .jmpZ _ | .jmpNz _ | .jmpC _ | .jmpNc _ | .jmpN _ | .jmpNn _ | .jmpO _ | .jmpNo _ | .jmpP _
  | .jmpNp _ | .jal _ | .jalZ _ | .jalNz _ | .jalC _ | .jalNc _ | .jalN _ | .jalNn _ | .jalO _ | .jalNo _
  | .jalP _ | .jalNp _ | .rti => true
  | .nop | .mov _ _ | .load _ _ | .stor _ _ | .eni | .dsi | .int _ | .add _ _ _ | .sub _ _ _ | .addc _ _ _
  | .subb _ _ _ | .dec _ _ | .inc _ _ | .com _ _ | .and _ _ _ | .or _ _ _ | .xor _ _ _ | .shr _ _ | .shl _ _
  | .shra _ _ | .shla _ _ | .ror _ _ | .rol _ _ | .rorc _ _ | .rolc _ _ | .mvi _ _ | .mvih _ _ | .mvil _ _
  | .clc | .stc | .cmc => false

/-- What the assembler emits for an instruction, written or from an expansion: the instruction, and after a
branch-class one the filler (R57). -/
def emit (delaySlots : Bool) (i : Instr) : List Instr := i :: if isBranchClass i then filler delaySlots else []

/-- What the assembler emits for a list of written instructions (R57). -/
def assemble (delaySlots : Bool) (l : List Instr) : List Instr := l.flatMap (emit delaySlots)

/-- The return address of CALL at address a, the word after its expansion and delay slot (R59): A + 8, not reduced to
15 bits before its bytes are taken. -/
def callReturn (a : PAddr) : Word := a.setWidth 16 + 8#16

/-- The instructions a pseudo-instruction at address a emits, in order (R59). A shift count outside 1 to 16 has
no expansion (log 18). -/
def expand (delaySlots : Bool) (a : PAddr) : Pseudo → List Instr
  | .binary op ra rb => [op.instr ra rb]
  | .shift op rd k => if 1 ≤ k ∧ k ≤ 16 then List.replicate k (op.instr rd) else []
  | .movFromMem rd ra => [.load rd ra]
  | .movToMem ra rb => [.stor ra rb]
  | .movConst rd k => loadConst rd k
  | .push rb => [.stor 6 rb, .dec 6 6]
  | .pop rd => [.inc 6 6, .load rd 6]
  | .jmpLabel cond t => loadConst 7 t ++ emit delaySlots (jmpOf cond 7)
  | .jalLabel cond t => loadConst 7 t ++ emit delaySlots (jalOf cond 7)
  | .call t =>
    loadConst 7 (callReturn a) ++ [.stor 6 7, .dec 6 6] ++ loadConst 7 t ++ emit delaySlots (.jmp 7)
  | .ret => [.inc 6 6, .load 7 6] ++ emit delaySlots (.jmp 7)
  | .retn n => [.inc 6 6, .load 7 6] ++ List.replicate n (.inc 6 6) ++ emit delaySlots (.jmp 7)

end Sys2Proof.Machine
end

