-- ==== Sys2Proof/Safety.lean ====
section
/-! DEFINITION. The terms the claims use for a sound state and a safe run. -/

namespace Sys2Proof.Machine

/-- What every state of the machine keeps: the three memories are in canonical form (log 9), and the entry
behind R0 is never written (10_state.md R11). -/
structure State.Sound (s : State) : Prop where
  pmem : s.pmem.wf = true
  dmem : s.dmem.wf = true
  dmemInit : s.dmemInit.wf = true
  r0 : s.regs[0] = 0#16

/-- The core is stuck: it met an undecodable word and waits for a reset (R18, R118). -/
def State.stuck (s : State) : Bool := s.run ≠ .running

/-- The state n steps on, for a machine that never faults or refuses; a fault or refusal would leave it where it
stands. -/
def State.after (s : State) (n : Nat) : State :=
  match n with
  | 0 => s
  | k + 1 =>
    match step s with
    | .next t => t.after k
    | .fault _ => s
    | .refused _ => s

/-- A run is safe for n steps when none of them meets an undecodable word. -/
def State.safeFor (s : State) (n : Nat) : Prop := ∀ k, k ≤ n → (s.after k).stuck = false

end Sys2Proof.Machine
end

