-- ==== Sys2Proof/Certificates/Slice0/Obligations.lean ====
section
/-! DEFINITION. The statements for the provers. Each says what the spec's rules say, in the rules' own arithmetic
(numbers, bits of a word) where the model computes otherwise. -/

namespace Sys2Proof.Claims

open Sys2Proof.Machine

/-! ## Fields of a word, as 00_scope.md R7 numbers its bits -/

/-- The register number in bits lo + 2 to lo. -/
def regAt (lo : Nat) (w : Word) : Reg := Fin.ofNat 8 (w.toNat / 2 ^ lo)

/-- rd, bits 13 to 11 (30_encoding.md R49). -/
def rdOf (w : Word) : Reg := regAt 11 w

/-- ra, bits 5 to 3 (R49). -/
def raOf (w : Word) : Reg := regAt 3 w

/-- rb and rs, bits 2 to 0 (R49). -/
def rbOf (w : Word) : Reg := regAt 0 w

/-- disp, n and imm8, bits 7 to 0 (R49). -/
def byteOf (w : Word) : Byte := BitVec.ofNat 8 w.toNat

/-- Every word with these bits under the mask decodes to this instruction, its operands read from the word. -/
def Encoded (value mask : Word) (f : Word → Instr) : Prop := ∀ w : Word, w &&& mask = value → decode w = .ok (f w)

/-- The condition values of 30_encoding.md R47. -/
def condValue : Cond → Nat
  | .always => 1
  | .z => 2
  | .nz => 3
  | .c => 4
  | .nc => 5
  | .n => 6
  | .nn => 7
  | .o => 8
  | .no => 9
  | .p => 10
  | .np => 11

/-- When each condition holds (R47). -/
def CondHolds (f : Flags) : Cond → Prop
  | .always => True
  | .z => f.z = true
  | .nz => f.z = false
  | .c => f.c = true
  | .nc => f.c = false
  | .n => f.n = true
  | .nn => f.n = false
  | .o => f.o = true
  | .no => f.o = false
  | .p => f.n = false ∧ f.z = false
  | .np => f.n = true ∨ f.z = true

/-! ## Frames -/

/-- PC after a step's instruction: the pending target in a delay slot, else the next address modulo 2^15
(40_control.md R62, R65). -/
def NextPc (s t : State) : Prop :=
  (s.jp = true → t.pc = s.jt) ∧ (s.jp = false → t.pc.toNat = (s.pc.toNat + 1) % 32768)

/-- No jump is taken: PC goes on and nothing is pending. -/
def GoesOn (s t : State) : Prop := NextPc s t ∧ t.jp = false

/-- Every general register reads as before. -/
def SameRegs (s t : State) : Prop := ∀ x, t.readReg x = s.readReg x

/-- Register rd reads v, R0 still reads 0 (a write to it is discarded), every other register reads as before
(10_state.md R11). -/
def WritesReg (rd : Reg) (v : Word) (s t : State) : Prop :=
  ∀ x, t.readReg x = if x = 0 then 0#16 else if x = rd then v else s.readReg x

/-- The requests still to come, those held, and the timer's armings are as before (log 5, log 6, log 7). -/
def SameRequests (s t : State) : Prop := t.raises = s.raises ∧ t.held = s.held ∧ t.timerArmed = s.timerArmed

/-- The interrupt controller's registers, the run state and the requests are as before. -/
def SameControl (s t : State) : Prop :=
  t.imask = s.imask ∧ t.ipend = s.ipend ∧ t.se = s.se ∧ t.ra = s.ra ∧ t.rescan = s.rescan ∧ t.run = s.run ∧
    SameRequests s t

/-- Every byte of program memory, of data memory and of the data image reads as before. -/
def SameBytes (s t : State) : Prop :=
  ∀ k, t.pmem.readByte k = s.pmem.readByte k ∧ t.dmem.readByte k = s.dmem.readByte k ∧
    t.dmemInit.readByte k = s.dmemInit.readByte k

/-- No memory byte changes and no peripheral register is accessed. -/
def SameMemory (s t : State) : Prop := SameBytes s t ∧ t.devEvents = s.devEvents

/-- What an ALU instruction leaves: the result r in rd, N and Z from the result even when rd is R0, C and O as
given, E and everything else as before (42_alu.md R80, R81). -/
def AluEffect (rd : Reg) (r : Word) (c o : Bool) (s t : State) : Prop :=
  WritesReg rd r s t ∧
  (t.flags.n = true ↔ 32768 ≤ r.toNat) ∧ (t.flags.z = true ↔ r.toNat = 0) ∧
  t.flags.c = c ∧ t.flags.o = o ∧ t.flags.e = s.flags.e ∧
  GoesOn s t ∧ SameControl s t ∧ SameMemory s t

/-- Bit 15 of a word, the sign. -/
def neg (x : Word) : Prop := 32768 ≤ x.toNat

/-- A carry as a number. -/
def bit (b : Bool) : Nat := if b then 1 else 0

/-- An ALU instruction runs with these results: a 16-bit result, C and O, each fixed by a condition. -/
def AluRuns (i : Instr) (rd : Reg) (s : State) (value : Nat) (carry : Prop) (overflow : Word → Prop) : Prop :=
  ∃ t r c o, exec i s = .next t ∧ r.toNat = value ∧ (c = true ↔ carry) ∧ (o = true ↔ overflow r) ∧
    AluEffect rd r c o s t

/-- Instructions one after the other, each with its own effect and no boundary between them. -/
def execAll (l : List Instr) (s : State) : Answer :=
  match l with
  | [] => .next s
  | i :: rest =>
    match exec i s with
    | .next t => execAll rest t
    | .fault r => .fault r
    | .refused r => .refused r

/-! ## Requests and service -/

/-- The requests l, in this order, are those of the coming boundary: the ones held from the boundary before, then the
ones scheduled for it, the timer's source 15 among these no more often than it is armed; later is the schedule after
them (60_exceptions.md R115, 20_memory.md R30; in the form of log 5, log 6, log 7). -/
def Presented (s : State) (l : List Source) (later : List (List Source)) : Prop :=
  ∃ now, (s.raises = now :: later ∨ (s.raises = [] ∧ now = [] ∧ later = [])) ∧ now.count 15 ≤ s.timerArmed ∧
    l = s.held ++ now

/-- The mask lets source k be serviced when it is raised: it is the timer or its mask bit is set (60_exceptions.md
R112). -/
def MaskAllows (s : State) (k : Source) : Prop := k.val = 15 ∨ s.imask.getLsbD k.val = true

/-- A raise of source k is serviced: E = 1 and the mask allows it (R112). -/
def Qualifies (s : State) (k : Source) : Prop := s.flags.e = true ∧ MaskAllows s k

/-- The address in register ra reaches the register r, one of the timer's two (20_memory.md R29, R30). -/
def TimerWrite (s : State) (ra : Reg) (r : PeriphReg) : Prop :=
  0xFF00 ≤ (s.readReg ra).toNat ∧ s.readReg ra ≠ Config.addrImask ∧ Config.ioMap (s.readReg ra) = some r ∧
    (r = .timerValue ∨ r = .timerControl)

/-- The coming step of s is a STOR to a timer register with this effect on the timer (R30; log 7). -/
def StoresToTimer (s : State) (e : TimerEffect) : Prop :=
  s.run = .running ∧ ∃ ra rb r, decode s.fetch = .ok (.stor ra rb) ∧ TimerWrite s ra r ∧
    Config.timerEffect s.devEvents r (s.readReg rb) = e

/-- The timer is silent: not armed, no request of its source held, and its source not pending. -/
def TimerSilent (s : State) : Prop :=
  s.timerArmed = 0 ∧ (15 : Source) ∉ s.held ∧ s.ipend.getLsbD 15 = false

/-- Source k is pending and its mask bit is set (60_exceptions.md R113). -/
def Ready (s : State) (k : Source) : Prop := s.ipend.getLsbD k.val = true ∧ s.imask.getLsbD k.val = true

/-- Source k is the lowest that is pending with its mask bit set (R113). -/
def LowestReady (s : State) (k : Source) : Prop := Ready s k ∧ ∀ j, j < k → ¬ Ready s j

/-- Between s and t nothing changed but what the arbiter may change: registers, Z, C, N, O, memories, IMASK, RUN
and the jump state are as before. -/
def OnlyArbiter (s t : State) : Prop :=
  SameRegs s t ∧ SameMemory s t ∧ t.flags.z = s.flags.z ∧ t.flags.c = s.flags.c ∧ t.flags.n = s.flags.n ∧
    t.flags.o = s.flags.o ∧ t.imask = s.imask ∧ t.run = s.run ∧ t.jp = s.jp ∧ t.jt = s.jt

/-- From s to t an interrupt was serviced at address v: SE is the old E, E is 0, RA is the old PC
(60_exceptions.md R110). -/
def Serviced (v : Nat) (s t : State) : Prop :=
  t.se = s.flags.e ∧ t.flags.e = false ∧ t.ra = s.pc ∧ t.pc.toNat = v

/-- The states u and t agree in all but IPEND, SE, RA and RESCAN. -/
def SameOutcome (t u : State) : Prop :=
  u.regs = t.regs ∧ u.flags = t.flags ∧ u.pc = t.pc ∧ u.jp = t.jp ∧ u.jt = t.jt ∧ u.imask = t.imask ∧
    u.pmem = t.pmem ∧ u.dmem = t.dmem ∧ u.dmemInit = t.dmemInit ∧ u.devEvents = t.devEvents ∧ u.run = t.run ∧
    SameRequests t u

/-- From s to t no interrupt was serviced. -/
def NotServiced (s t : State) : Prop := t.se = s.se ∧ t.flags.e = s.flags.e ∧ t.ra = s.ra ∧ t.pc = s.pc

/-- The entry address of hardware source k (60_exceptions.md R109). -/
def hwEntry (k : Source) : Nat := 0x7F00 + 16 * k.val

/-- From a step of ENI at s, hardware source k was entered before the next instruction: SE is 1, E is 0, RA is the
address that would have come next. -/
def EntersFrom (s t : State) (k : Source) : Prop :=
  t.pc.toNat = hwEntry k ∧ t.se = true ∧ t.flags.e = false ∧
    (s.jp = true → t.ra = s.jt) ∧ (s.jp = false → t.ra.toNat = (s.pc.toNat + 1) % 32768)

/-- The entry address of INT n (R109). -/
def swEntry (n : Byte) : Nat := 0x7F00 + n.toNat

/-! ## Instruction classes (10_state.md R15) -/

/-- The instructions that write E in their own step. -/
def writesE : Instr → Bool
  | .eni | .dsi | .rti | .int _ => true
  | _ => false

/-- ADD, SUB, ADDC, SUBB, DEC, INC: the arithmetic unit. -/
def isArith : Instr → Bool
  | .add _ _ _ | .sub _ _ _ | .addc _ _ _ | .subb _ _ _ | .dec _ _ | .inc _ _ => true
  | _ => false

/-- COM, AND, OR, XOR: the logic unit. -/
def isLogic : Instr → Bool
  | .com _ _ | .and _ _ _ | .or _ _ _ | .xor _ _ _ => true
  | _ => false

/-- The eight instructions of the shift unit. -/
def isShift : Instr → Bool
  | .shr _ _ | .shl _ _ | .shra _ _ | .shla _ _ | .ror _ _ | .rol _ _ | .rorc _ _ | .rolc _ _ => true
  | _ => false

/-- CLC, STC, CMC. -/
def isCarry : Instr → Bool
  | .clc | .stc | .cmc => true
  | _ => false

/-- BR, JMP and JAL under each of the eleven conditions, and RTI (40_control.md R63). -/
def BranchClass (i : Instr) : Prop :=
  (∃ cond disp, i = brOf cond disp) ∨ (∃ cond rs, i = jmpOf cond rs) ∨ (∃ cond rs, i = jalOf cond rs) ∨ i = .rti

/-- SHLA. -/
def isShla : Instr → Bool
  | .shla _ _ => true
  | _ => false

end Sys2Proof.Claims

open Sys2Proof Sys2Proof.Machine Sys2Proof.Claims

/-! ## Encoding -/

/-- Decoding an encoded instruction gives it back, for every instruction and all its operands (30_encoding.md R61). -/
def Obligations.DecodeOfEncodeIsTheInstruction : Prop := ∀ i : Instr, decode (encode i) = .ok i

/-- Every word of a row of the opcode map decodes to an instruction of that row (R50, R51). -/
def Obligations.EveryWordOfARowDecodesToThatRow : Prop :=
  ∀ r ∈ opcodeRows, ∀ w : Word, w &&& r.mask = r.value → ∃ i, decode w = .ok i ∧ rowOf i = r

/-- A decoded word is the encoding of its instruction but for ignored bits, where the encoder writes 0 by the model's
choice (log 16), and any word that differs from it only in ignored bits is the same instruction (R53). -/
def Obligations.IgnoredBitsDoNotChangeTheInstruction : Prop :=
  ∀ (w : Word) (i : Instr), decode w = .ok i →
    encode i = w &&& (rowOf i).used ∧
    ∀ w' : Word, w' &&& (rowOf i).used = w &&& (rowOf i).used → decode w' = .ok i

/-- The decoder rejects exactly the words of the illegal-word table, each with its class there (R51, R52). -/
def Obligations.DecodeFailsExactlyOnTheIllegalWords : Prop :=
  ∀ (w : Word) (c : IllegalClass), decode w = .error c ↔ illegalClass w = some c

/-- Words written out from the encoding tables decode to the instructions they stand for (R50; the words of
95_test_vectors.md). -/
def Obligations.WrittenWordsDecode : Prop :=
  decode 0b0001001111111110#16 = .ok (.brNz 0xFE#8) ∧
  decode 0b0011000100000010#16 = .ok (.jal 2) ∧
  decode 0b0100101000010000#16 = .ok (.load 1 2) ∧
  decode 0b0100001100011010#16 = .ok (.stor 3 2) ∧
  decode 0b0100011100100000#16 = .ok (.int 0x20#8) ∧
  decode 0b1000000001011100#16 = .ok (.sub 0 3 4) ∧
  decode 0b1000110110001000#16 = .ok (.rorc 1 1) ∧
  decode 0b1111101010101011#16 = .ok (.mvih 7 0xAB#8) ∧
  decode 0b1100010000000000#16 = .ok .clc

/-! ## The step -/

/-- When the word at PC decodes to i, a running core's step is exec of i followed by the boundary, which is told
whether i was a software interrupt, serviced already in exec (40_control.md R62, 60_exceptions.md R115; log 15). -/
def Obligations.StepRunsTheDecodedInstruction : Prop :=
  ∀ (s t : State) (i : Instr), s.run = .running → decode s.fetch = .ok i → exec i s = .next t →
    step s = .next (t.boundary (isSoftwareInterrupt i))

/-- No instruction faults or refuses, in any state: the one fault of the core is the decode failure (60_exceptions.md
R108, R118). That the step which meets an illegal word, and every step of a stuck core, answer a next state too, where
R62 has no such step, is the model's reading (log 8). -/
def Obligations.EveryStepHasANextState : Prop :=
  (∀ (i : Instr) (s : State), ∃ t, exec i s = .next t) ∧ ∀ s : State, ∃ t, step s = .next t

/-- A running core that fetches an illegal word records the address and the word in RUN and changes nothing else;
from then on no step changes anything, until a reset lets the core run again (60_exceptions.md R118). That a stuck
core's step answers the same state is the model's reading (log 8), and that the requests delivered in these steps, on
which the spec is silent, are kept with the rest is the model's choice (log 19). -/
def Obligations.IllegalWordStopsTheCoreForGood : Prop :=
  ∀ s : State, s.run = .running → illegalClass (s.pmem.readWord s.pc) ≠ none →
    step s = .next { s with run := .illegal s.pc (s.pmem.readWord s.pc) } ∧
    ∀ n, s.after (n + 1) = { s with run := .illegal s.pc (s.pmem.readWord s.pc) } ∧
      (s.after (n + 1)).hostReset.run = .running

/-- No run of any length changes program memory (20_memory.md R23, R38). -/
def Obligations.NoRunChangesProgramMemory : Prop := ∀ (s : State) (n : Nat), (s.after n).pmem = s.pmem

/-- Every step keeps a sound state sound: the memories stay canonical and the entry behind R0 stays 0
(10_state.md R11, log 9). -/
def Obligations.StepKeepsTheStateSound : Prop :=
  ∀ s t : State, s.Sound → step s = .next t → t.Sound

/-- The state after reset is sound: its memories are canonical (log 9) and the entry behind R0 is 0. -/
def Obligations.ResetStateIsSound : Prop := State.reset.Sound

/-- Two canonical memories that read the same everywhere are the same data (log 9). -/
def Obligations.CanonicalMemoriesAreDeterminedByTheirReads : Prop :=
  ∀ m m' : Memory, m.wf = true → m'.wf = true → (∀ a : PAddr, m.readWord a = m'.readWord a) → m = m'

/-! ## Reset and loading -/

/-- Reset sets every register of the core, whatever its state was, a stuck one included, and the first step after it
fetches the word at address 0 of program memory (70_reset_and_hazards.md R126). -/
def Obligations.ResetSetsEveryRegister : Prop :=
  ∀ s : State, let t := s.hostReset
    (∀ x, t.readReg x = 0#16) ∧
    t.flags.e = false ∧ t.flags.z = false ∧ t.flags.c = false ∧ t.flags.n = false ∧ t.flags.o = false ∧
    t.pc = 0#15 ∧ t.jp = false ∧ t.jt = 0#15 ∧ t.imask = 0#16 ∧ t.ipend = 0#16 ∧ t.se = false ∧ t.ra = 0#15 ∧
    t.rescan = false ∧ t.run = .running ∧ t.fetch = s.pmem.readWord 0#15

/-- Reset returns both memories to the images the host loaded last, after any run; and with all-zero program memory
and no requests (log 5) the core runs NOPs for ever, PC counting and wrapping (70_reset_and_hazards.md R127). -/
def Obligations.ResetRestoresTheImagesAndEmptyMemoryRunsNops : Prop :=
  (∀ (s : State) (p d : Memory) (n : Nat),
    (((s.hostLoad p d).after n).hostReset).pmem = p ∧ (((s.hostLoad p d).after n).hostReset).dmem = d) ∧
  (∀ a : PAddr, State.reset.pmem.readWord a = 0#16 ∧ State.reset.dmem.readWord a = 0#16) ∧
  ∀ n : Nat, let t := State.reset.after n
    t.pc.toNat = n % 32768 ∧ SameRegs State.reset t ∧ t.flags = State.reset.flags ∧ t.jp = false ∧
      SameControl State.reset t ∧ SameMemory State.reset t

/-! ## Control -/

/-- NOP: its words, the one the assembler emits, and no effect but going on (40_control.md R67). -/
def Obligations.NopOnlyGoesOn : Prop :=
  Encoded 0x0000#16 0xF000#16 (fun _ => .nop) ∧ encode .nop = 0x0000#16 ∧
  ∀ s : State, ∃ t, exec .nop s = .next t ∧ SameRegs s t ∧ t.flags = s.flags ∧ GoesOn s t ∧ SameControl s t ∧
    SameMemory s t

/-- BR under each of the eleven conditions (br, brZ, brNz, brC, brNc, brN, brNn, brO, brNo, brP, brNp): a jump
relative to its own address is pending exactly when the condition holds (40_control.md R68). -/
def Obligations.BrJumpsRelativeWhenItsConditionHolds : Prop :=
  ∀ cond : Cond,
    Encoded (BitVec.ofNat 16 (0x1000 + 256 * condValue cond)) 0xFF00#16 (fun w => brOf cond (byteOf w)) ∧
    ∀ (disp : Byte) (s : State), ∃ t, exec (brOf cond disp) s = .next t ∧
      (CondHolds s.flags cond → t.jp = true ∧ (t.jt.toNat : Int) = (s.pc.toNat + disp.toInt) % 32768) ∧
      (¬ CondHolds s.flags cond → t.jp = false) ∧
      NextPc s t ∧ SameRegs s t ∧ t.flags = s.flags ∧ SameControl s t ∧ SameMemory s t

/-- JMP under each of the eleven conditions (jmp, jmpZ, jmpNz, jmpC, jmpNc, jmpN, jmpNn, jmpO, jmpNo, jmpP, jmpNp): a
jump to the register's low 15 bits is pending exactly when the condition holds (40_control.md R69). -/
def Obligations.JmpJumpsToTheRegisterWhenItsConditionHolds : Prop :=
  ∀ cond : Cond,
    Encoded (BitVec.ofNat 16 (0x2000 + 256 * condValue cond)) 0xFF00#16 (fun w => jmpOf cond (rbOf w)) ∧
    ∀ (rs : Reg) (s : State), ∃ t, exec (jmpOf cond rs) s = .next t ∧
      (CondHolds s.flags cond → t.jp = true ∧ t.jt.toNat = (s.readReg rs).toNat % 32768) ∧
      (¬ CondHolds s.flags cond → t.jp = false) ∧
      NextPc s t ∧ SameRegs s t ∧ t.flags = s.flags ∧ SameControl s t ∧ SameMemory s t

/-- JAL under each of the eleven conditions (jal, jalZ, jalNz, jalC, jalNc, jalN, jalNn, jalO, jalNo, jalP, jalNp): the
target is the register before the link is written, the link goes to the open register with the open offset, and
neither happens when the condition is false (40_control.md R70). -/
def Obligations.JalLinksAndJumpsWhenItsConditionHolds : Prop :=
  ∀ cond : Cond,
    Encoded (BitVec.ofNat 16 (0x3000 + 256 * condValue cond)) 0xFF00#16 (fun w => jalOf cond (rbOf w)) ∧
    ∀ (rs : Reg) (s : State), ∃ t, exec (jalOf cond rs) s = .next t ∧
      (CondHolds s.flags cond → t.jp = true ∧ t.jt.toNat = (s.readReg rs).toNat % 32768 ∧
        ∃ link : Word, link.toNat = (s.pc.toNat + Config.jalLinkOfs.toNat) % 32768 ∧
          WritesReg Config.jalLinkReg link s t) ∧
      (¬ CondHolds s.flags cond → t.jp = false ∧ SameRegs s t) ∧
      NextPc s t ∧ t.flags = s.flags ∧ SameControl s t ∧ SameMemory s t

/-- After a step that takes a jump, the next step runs the delay slot and then PC is the target, when no interrupt is
due and the slot holds neither INT nor ENI; the slot is the word after the jump unless the jump was itself in a slot
(40_control.md R63). -/
def Obligations.TakenJumpLandsAfterItsDelaySlot : Prop :=
  ∀ (s t : State) (i : Instr), s.run = .running → step s = .next t → t.jp = true → t.run = .running →
    decode t.fetch = .ok i → i ≠ .eni → isSoftwareInterrupt i = false → t.rescan = false →
    t.raises = [] → t.held = [] →
    (s.jp = false → t.pc.toNat = (s.pc.toNat + 1) % 32768) ∧
    ∃ u, step t = .next u ∧ u.pc = t.jt

/-- A taken BR at A with a taken BR in its delay slot and a NOP at the first target: the steps run A, A + 1, T1 and
then PC is T2 (40_control.md R64). -/
def Obligations.BranchInADelaySlotRunsItsOwnSlotAtTheFirstTarget : Prop :=
  ∀ (s : State) (d1 d2 : Byte) (t u : State),
    s.run = .running → s.jp = false → s.rescan = false → s.raises = [] → s.held = [] →
    decode s.fetch = .ok (.br d1) → step s = .next t →
    decode t.fetch = .ok (.br d2) → step t = .next u →
    decode u.fetch = .ok .nop →
    t.pc.toNat = (s.pc.toNat + 1) % 32768 ∧
    (u.pc.toNat : Int) = (s.pc.toNat + d1.toInt) % 32768 ∧
    ∃ v, step u = .next v ∧ (v.pc.toNat : Int) = (s.pc.toNat + 1 + d2.toInt) % 32768 ∧ v.jp = false

/-! ## Transfer -/

/-- MOV copies a register and nothing else (41_transfer_system.md R71). -/
def Obligations.MovCopiesARegister : Prop :=
  Encoded 0x4000#16 0xC700#16 (fun w => .mov (rdOf w) (raOf w)) ∧
  ∀ (rd ra : Reg) (s : State), ∃ t, exec (.mov rd ra) s = .next t ∧ WritesReg rd (s.readReg ra) s t ∧
    t.flags = s.flags ∧ GoesOn s t ∧ SameControl s t ∧ SameMemory s t

/-- LOAD, for every address: data memory below 0xFF00 by the low 15 bits, IMASK at its address, a mapped peripheral
register answering from its oracle with the read delivered to it even when rd is R0, and 0xFFFF at an unmapped I/O
address; nothing but rd and the device changes (41_transfer_system.md R72, 20_memory.md R26; the oracle as a function
of the accesses before it is log 4). That a read of a timer register leaves the timer's armings is the model's choice
(log 7). -/
def Obligations.LoadReadsTheDataBus : Prop :=
  Encoded 0x4200#16 0xC700#16 (fun w => .load (rdOf w) (raOf w)) ∧
  ∀ (rd ra : Reg) (s : State), ∃ t v, exec (.load rd ra) s = .next t ∧ WritesReg rd v s t ∧ t.flags = s.flags ∧
    GoesOn s t ∧ SameControl s t ∧ SameBytes s t ∧
    if (s.readReg ra).toNat < 0xFF00 then
      v = s.dmem.readWord (BitVec.ofNat 15 ((s.readReg ra).toNat % 32768)) ∧ t.devEvents = s.devEvents
    else if s.readReg ra = Config.addrImask then v = s.imask ∧ t.devEvents = s.devEvents
    else match Config.ioMap (s.readReg ra) with
      | some r => v = Config.devRead s.devEvents r ∧ t.devEvents = .read r :: s.devEvents
      | none => v = 0xFFFF#16 ∧ t.devEvents = s.devEvents

/-- STOR, for every address: one word of data memory below 0xFF00 by the low 15 bits, IMASK at its address, the event
to a mapped peripheral register, and nothing at an unmapped I/O address; a write to one of the timer's two registers
arms it, disarms it or neither, as the open parameter P_TIMER says; every other word, register and flag is as before
(41_transfer_system.md R73, 20_memory.md R27, R30; the list of device events is log 4, the timer's armings log 7, byte
cells log 9). -/
def Obligations.StorWritesTheDataBus : Prop :=
  Encoded 0x4300#16 0xC700#16 (fun w => .stor (raOf w) (rbOf w)) ∧
  ∀ (ra rb : Reg) (s : State), s.dmem.wf = true → ∃ t, exec (.stor ra rb) s = .next t ∧ SameRegs s t ∧
    t.flags = s.flags ∧ GoesOn s t ∧ t.ipend = s.ipend ∧ t.se = s.se ∧ t.ra = s.ra ∧ t.rescan = s.rescan ∧
    t.run = s.run ∧ t.raises = s.raises ∧ t.held = s.held ∧
    (∀ k, t.pmem.readByte k = s.pmem.readByte k ∧ t.dmemInit.readByte k = s.dmemInit.readByte k) ∧
    if (s.readReg ra).toNat < 0xFF00 then
      (∀ a : PAddr, t.dmem.readWord a =
        if a.toNat = (s.readReg ra).toNat % 32768 then s.readReg rb else s.dmem.readWord a) ∧
      (∀ k, k / 2 ≠ (s.readReg ra).toNat % 32768 → t.dmem.readByte k = s.dmem.readByte k) ∧
      t.imask = s.imask ∧ t.devEvents = s.devEvents ∧ t.timerArmed = s.timerArmed
    else
      (∀ k, t.dmem.readByte k = s.dmem.readByte k) ∧
      if s.readReg ra = Config.addrImask then
        t.imask = s.readReg rb ∧ t.devEvents = s.devEvents ∧ t.timerArmed = s.timerArmed
      else t.imask = s.imask ∧ match Config.ioMap (s.readReg ra) with
        | some r => t.devEvents = .write r (s.readReg rb) :: s.devEvents ∧
          if r = .timerValue ∨ r = .timerControl then
            match Config.timerEffect s.devEvents r (s.readReg rb) with
            | .arm => t.timerArmed = s.timerArmed + 1
            | .disarm => t.timerArmed = 0
            | .neither => t.timerArmed = s.timerArmed
          else t.timerArmed = s.timerArmed
        | none => t.devEvents = s.devEvents ∧ t.timerArmed = s.timerArmed

/-- What STOR wrote, LOAD reads, also through an alias 0x8000 away, and every other word of data memory reads as before
the STOR (20_memory.md R25, R36). -/
def Obligations.LoadAfterStorReadsTheStoredWord : Prop :=
  ∀ (ra rb rc rd : Reg) (s : State), s.dmem.wf = true → rd ≠ 0 →
    (s.readReg ra).toNat < 0xFF00 → (s.readReg rc).toNat < 0xFF00 →
    ∃ t, execAll [.stor ra rb, .load rd rc] s = .next t ∧
      t.readReg rd =
        if (s.readReg ra).toNat % 32768 = (s.readReg rc).toNat % 32768 then s.readReg rb
        else s.dmem.readWord (BitVec.ofNat 15 ((s.readReg rc).toNat % 32768))

/-- IMASK read back: a LOAD after a STOR at its address gives all 16 bits stored, and the STOR starts no re-scan
(20_memory.md R28). -/
def Obligations.InterruptMaskReadsBackAllSixteenBits : Prop :=
  ∀ (ra rb rd : Reg) (s : State), rd ≠ 0 → s.readReg ra = Config.addrImask →
    ∃ t, execAll [.stor ra rb, .load rd ra] s = .next t ∧ t.imask = s.readReg rb ∧ t.readReg rd = s.readReg rb ∧
      t.rescan = s.rescan ∧ t.ipend = s.ipend ∧ SameMemory s t

/-! ## Interrupt control -/

/-- DSI clears E and nothing else (41_transfer_system.md R75). -/
def Obligations.DsiClearsEnableOnly : Prop :=
  Encoded 0x4500#16 0xC700#16 (fun _ => .dsi) ∧
  ∀ s : State, ∃ t, exec .dsi s = .next t ∧ t.flags = { s.flags with e := false } ∧ SameRegs s t ∧ GoesOn s t ∧
    SameControl s t ∧ SameMemory s t

/-- ENI sets E and asks for a re-scan (41_transfer_system.md R74). -/
def Obligations.EniSetsEnableAndOwesARescan : Prop :=
  Encoded 0x4400#16 0xC700#16 (fun _ => .eni) ∧
  ∀ s : State, ∃ t, exec .eni s = .next t ∧ t.flags = { s.flags with e := true } ∧ t.rescan = true ∧ SameRegs s t ∧
    GoesOn s t ∧ t.imask = s.imask ∧ t.ipend = s.ipend ∧ t.se = s.se ∧ t.ra = s.ra ∧ t.run = s.run ∧
    SameRequests s t ∧ SameMemory s t

/-- RTI restores E from SE, makes the jump to RA pending and asks for a re-scan; it restores no register and no other
flag (41_transfer_system.md R76). -/
def Obligations.RtiRestoresEnableAndJumpsToTheReturnAddress : Prop :=
  Encoded 0x4600#16 0xC700#16 (fun _ => .rti) ∧
  ∀ s : State, ∃ t, exec .rti s = .next t ∧ t.flags = { s.flags with e := s.se } ∧ t.rescan = true ∧
    NextPc s t ∧ t.jp = true ∧ t.jt = s.ra ∧ SameRegs s t ∧ t.imask = s.imask ∧ t.ipend = s.ipend ∧
    t.se = s.se ∧ t.ra = s.ra ∧ t.run = s.run ∧ SameRequests s t ∧ SameMemory s t

/-- INT n enters at 0x7F00 + n whatever E and IMASK are: SE is the old E, E is 0, RA is the address that would have
come next (the target, in a delay slot), and nothing else is saved or changed (41_transfer_system.md R77,
60_exceptions.md R110, R114; that exec itself services it is log 15). -/
def Obligations.IntEntersItsVectorAndSavesEnableAndReturnAddress : Prop :=
  Encoded 0x4700#16 0xC700#16 (fun w => .int (byteOf w)) ∧
  ∀ (n : Byte) (s : State), ∃ t, exec (.int n) s = .next t ∧ t.pc.toNat = swEntry n ∧ t.se = s.flags.e ∧
    t.flags = { s.flags with e := false } ∧ t.jp = false ∧
    (s.jp = true → t.ra = s.jt) ∧ (s.jp = false → t.ra.toNat = (s.pc.toNat + 1) % 32768) ∧
    SameRegs s t ∧ t.imask = s.imask ∧ t.ipend = s.ipend ∧ t.rescan = s.rescan ∧ t.run = s.run ∧
    SameRequests s t ∧ SameMemory s t

/-- A step of ENI with the requests l at its boundary: the lowest pending source with its mask bit set is serviced
before the next instruction, its pending bit is cleared, and then every request of l pends; if there is none, the
requests are raised with E = 1: the first whose mask allows it is serviced and the others pend, or, if there is none of
these either, all pend, E is 1 and execution goes on (41_transfer_system.md R74, 60_exceptions.md R112, R113, R115,
R116; the requests as in log 5, log 6, log 7). Where the ENI is the first step after a reset, R128 says that every
request pends; that one whose mask allows it, the timer's, is serviced there too is the model's reading (log 12). -/
def Obligations.EniStepServicesTheLowestReadySource : Prop :=
  ∀ (s : State) (l : List Source) (later : List (List Source)),
    s.run = .running → decode s.fetch = .ok .eni → Presented s l later →
    ∃ t, step s = .next t ∧ t.jp = false ∧ t.rescan = false ∧ t.imask = s.imask ∧ SameRegs s t ∧ SameMemory s t ∧
      t.raises = later ∧ t.held = [] ∧
      (∀ k, LowestReady s k → EntersFrom s t k ∧
        ∀ j : Source, t.ipend.getLsbD j.val = ((s.ipend.getLsbD j.val && j ≠ k) || decide (j ∈ l))) ∧
      ((∀ k, ¬ Ready s k) →
        (∀ pre k rest, l = pre ++ k :: rest → (∀ x ∈ pre, ¬ MaskAllows s x) → MaskAllows s k → EntersFrom s t k ∧
          ∀ j : Source, t.ipend.getLsbD j.val = (s.ipend.getLsbD j.val || decide (j ∈ pre ++ rest))) ∧
        ((∀ x ∈ l, ¬ MaskAllows s x) → t.flags.e = true ∧ NextPc s t ∧ t.se = s.se ∧ t.ra = s.ra ∧
          ∀ j : Source, t.ipend.getLsbD j.val = (s.ipend.getLsbD j.val || decide (j ∈ l))))

/-- RTI outside a delay slot, a NOP in its slot and no requests: the slot runs with E restored, then PC is the return
address, or the lowest ready source is serviced with that address and that E saved again, whatever E is
(41_transfer_system.md R76, 60_exceptions.md R113). -/
def Obligations.RtiReturnsOrServicesAfterItsSlot : Prop :=
  ∀ s t : State, s.run = .running → s.jp = false → decode s.fetch = .ok .rti → s.raises = [] → s.held = [] →
    step s = .next t → decode t.fetch = .ok .nop →
    t.flags.e = s.se ∧ t.pc.toNat = (s.pc.toNat + 1) % 32768 ∧ t.ipend = s.ipend ∧
    ∃ u, step t = .next u ∧ u.jp = false ∧ u.rescan = false ∧ u.ra = s.ra ∧ SameRegs s u ∧
      ((∀ k, ¬ Ready s k) → u.pc = s.ra ∧ u.flags.e = s.se ∧ u.ipend = s.ipend) ∧
      ∀ k, LowestReady s k → u.pc.toNat = hwEntry k ∧ u.se = s.se ∧ u.flags.e = false ∧
        ∀ j : Source, u.ipend.getLsbD j.val = (s.ipend.getLsbD j.val && j ≠ k)

/-- A step of INT n: it is serviced first, an owed re-scan stays owed, and every request of its boundary pends, the
timer's too (60_exceptions.md R114, R115, R116; the requests as in log 5, log 6, log 7). -/
def Obligations.SoftwareInterruptComesFirstAtItsBoundary : Prop :=
  ∀ (s : State) (n : Byte) (l : List Source) (later : List (List Source)),
    s.run = .running → decode s.fetch = .ok (.int n) → Presented s l later →
    ∃ t, step s = .next t ∧ t.pc.toNat = swEntry n ∧ t.se = s.flags.e ∧ t.flags = { s.flags with e := false } ∧
      (s.jp = true → t.ra = s.jt) ∧ (s.jp = false → t.ra.toNat = (s.pc.toNat + 1) % 32768) ∧
      t.rescan = s.rescan ∧ t.raises = later ∧ t.held = [] ∧
      ∀ j : Source, t.ipend.getLsbD j.val = (s.ipend.getLsbD j.val || decide (j ∈ l))

/-! ## The boundary -/

/-- While a jump is pending the boundary services nothing and leaves a re-scan owed; its requests are presented again
at the next boundary, before those scheduled for that one, and no request of any source but the timer's, whose
requests R30 bounds, is lost (60_exceptions.md R115, 70_reset_and_hazards.md R133; the requests as in log 5, log 6,
log 7). -/
def Obligations.NothingIsServicedBetweenAJumpAndItsSlot : Prop :=
  ∀ s t : State, s.run = .running → step s = .next t → t.jp = true → t.run = .running →
    NextPc s t ∧ t.se = s.se ∧ t.ra = s.ra ∧ t.ipend = s.ipend ∧ (s.rescan = true → t.rescan = true) ∧
    (∀ l later, Presented s l later → t.held = l ∧ t.raises = later ∧
      ∀ l' later', Presented t l' later' → l <+: l') ∧
    ∀ k : Source, k ≠ 15 → (t.held ++ t.raises.flatten).count k = (s.held ++ s.raises.flatten).count k

/-- Every boundary services at most one interrupt: none, or one hardware source, with E saved in SE and cleared and the
old PC in RA; all else but IPEND, RESCAN, the requests and the timer's armings is as before (60_exceptions.md R110,
R116). -/
def Obligations.ABoundaryServicesAtMostOneSource : Prop :=
  ∀ (s : State) (b : Bool), OnlyArbiter s (s.boundary b) ∧
    (NotServiced s (s.boundary b) ∨ ∃ k : Source, Serviced (hwEntry k) s (s.boundary b))

/-- A single hardware request at a boundary with no jump pending and no re-scan owed: serviced at once if E = 1 and it
is the timer (source 15) or its mask bit is set, IPEND as before; else its pending bit is set and nothing is serviced
(60_exceptions.md R112; the requests as in log 5, log 6, log 7). -/
def Obligations.HardwareRequestIsServicedOrPends : Prop :=
  ∀ (s : State) (k : Source) (later : List (List Source)) (b : Bool),
    s.jp = false → s.rescan = false → Presented s [k] later →
    let t := s.boundary b
    (Qualifies s k → Serviced (hwEntry k) s t ∧ t.ipend = s.ipend) ∧
    (¬ Qualifies s k →
      NotServiced s t ∧ ∀ j : Source, t.ipend.getLsbD j.val = (s.ipend.getLsbD j.val || decide (j = k))) ∧
    t.raises = later ∧ t.held = []

/-- Of the requests of one boundary the first that qualifies is serviced; those before it, which do not qualify, and
all those after it pend, the timer too (60_exceptions.md R116; the requests as in log 5, log 6, log 7). -/
def Obligations.RequestsAfterAServicePend : Prop :=
  ∀ (s : State) (pre : List Source) (k : Source) (rest : List Source) (later : List (List Source)) (b : Bool),
    s.jp = false → s.rescan = false → Presented s (pre ++ k :: rest) later →
    (∀ x ∈ pre, ¬ Qualifies s x) → Qualifies s k →
    let t := s.boundary b
    Serviced (hwEntry k) s t ∧ t.raises = later ∧ t.held = [] ∧
      ∀ j : Source, t.ipend.getLsbD j.val = (s.ipend.getLsbD j.val || decide (j ∈ pre ++ rest))

/-- With E = 0 and no re-scan owed every request of a boundary pends and nothing is serviced: what DSI and a reset
leave (60_exceptions.md R112, 70_reset_and_hazards.md R128, R132; the requests as in log 5, log 6, log 7). -/
def Obligations.RequestsPendWhileInterruptsAreDisabled : Prop :=
  ∀ (s : State) (l : List Source) (later : List (List Source)) (b : Bool),
    s.jp = false → s.rescan = false → s.flags.e = false → Presented s l later →
    let t := s.boundary b
    NotServiced s t ∧ t.raises = later ∧ t.held = [] ∧
      ∀ j : Source, t.ipend.getLsbD j.val = (s.ipend.getLsbD j.val || decide (j ∈ l))

/-- A pending bit that a step clears belongs to the source the step has just serviced, whose mask bit is set
(60_exceptions.md R112, R113). -/
def Obligations.APendingBitIsClearedOnlyByItsService : Prop :=
  ∀ (s t : State) (k : Source), step s = .next t → s.ipend.getLsbD k.val = true → t.ipend.getLsbD k.val = false →
    t.pc.toNat = hwEntry k ∧ t.imask.getLsbD k.val = true ∧ t.flags.e = false

/-- No instruction but RTI depends on SE or RA, and none at all, RTI included, on IPEND or RESCAN: two states that
differ in these only go the same way through it (10_state.md R17, 60_exceptions.md R117). For a LOAD of a mapped
peripheral register this rests on the model's choice that equal accesses before it get equal answers (log 4). -/
def Obligations.SavedAndPendingInterruptStateIsInvisible : Prop :=
  ∀ (i : Instr) (s t : State) (ip : Word) (rs : Bool), exec i s = .next t →
    (∀ (se : Bool) (ra : PAddr), i ≠ .rti →
      ∃ u, exec i { s with ipend := ip, se := se, ra := ra, rescan := rs } = .next u ∧ SameOutcome t u) ∧
    ∃ u, exec i { s with ipend := ip, rescan := rs } = .next u ∧ SameOutcome t u ∧ u.se = t.se ∧ u.ra = t.ra

/-! ## The ALU -/

/-- ADD and ADDC: the sum modulo 2^16, C the carry out of bit 15, O when the operand signs are equal and the result's
differs (42_alu.md R83, R85). -/
def Obligations.AddAndAddcResults : Prop :=
  Encoded 0x8000#16 0xC7C0#16 (fun w => .add (rdOf w) (raOf w) (rbOf w)) ∧
  Encoded 0x8080#16 0xC7C0#16 (fun w => .addc (rdOf w) (raOf w) (rbOf w)) ∧
  ∀ (rd ra rb : Reg) (s : State), let a := s.readReg ra; let b := s.readReg rb; let cin := bit s.flags.c
    AluRuns (.add rd ra rb) rd s ((a.toNat + b.toNat) % 65536) (65536 ≤ a.toNat + b.toNat)
      (fun r => (neg a ↔ neg b) ∧ ¬ (neg r ↔ neg a)) ∧
    AluRuns (.addc rd ra rb) rd s ((a.toNat + b.toNat + cin) % 65536) (65536 ≤ a.toNat + b.toNat + cin)
      (fun r => (neg a ↔ neg b) ∧ ¬ (neg r ↔ neg a))

/-- SUB and SUBB: the difference modulo 2^16, C the borrow, O when the operand signs differ and the result's differs
from operand A's (42_alu.md R84, R86). -/
def Obligations.SubAndSubbResults : Prop :=
  Encoded 0x8040#16 0xC7C0#16 (fun w => .sub (rdOf w) (raOf w) (rbOf w)) ∧
  Encoded 0x80C0#16 0xC7C0#16 (fun w => .subb (rdOf w) (raOf w) (rbOf w)) ∧
  ∀ (rd ra rb : Reg) (s : State), let a := s.readReg ra; let b := s.readReg rb; let cin := bit s.flags.c
    AluRuns (.sub rd ra rb) rd s ((65536 + a.toNat - b.toNat) % 65536) (a.toNat < b.toNat)
      (fun r => ¬ (neg a ↔ neg b) ∧ ¬ (neg r ↔ neg a)) ∧
    AluRuns (.subb rd ra rb) rd s ((131072 + a.toNat - b.toNat - cin) % 65536) (a.toNat < b.toNat + cin)
      (fun r => ¬ (neg a ↔ neg b) ∧ ¬ (neg r ↔ neg a))

/-- DEC and INC: one less and one more modulo 2^16, C only from 0 and only from 0xFFFF, O only from 0x8000 and only from
0x7FFF (42_alu.md R87, R88). -/
def Obligations.DecAndIncResults : Prop :=
  Encoded 0x8100#16 0xC7C0#16 (fun w => .dec (rdOf w) (raOf w)) ∧
  Encoded 0x8140#16 0xC7C0#16 (fun w => .inc (rdOf w) (raOf w)) ∧
  ∀ (rd ra : Reg) (s : State), let a := s.readReg ra
    AluRuns (.dec rd ra) rd s ((a.toNat + 65535) % 65536) (a.toNat = 0) (fun _ => a.toNat = 0x8000) ∧
    AluRuns (.inc rd ra) rd s ((a.toNat + 1) % 65536) (a.toNat = 0xFFFF) (fun _ => a.toNat = 0x7FFF)

/-- COM, AND, OR and XOR bit by bit, with C and O as they were (42_alu.md R89, R90, R91, R92). -/
def Obligations.LogicResults : Prop :=
  Encoded 0x8200#16 0xC7C0#16 (fun w => .com (rdOf w) (raOf w)) ∧
  Encoded 0x8240#16 0xC7C0#16 (fun w => .and (rdOf w) (raOf w) (rbOf w)) ∧
  Encoded 0x8280#16 0xC7C0#16 (fun w => .or (rdOf w) (raOf w) (rbOf w)) ∧
  Encoded 0x82C0#16 0xC7C0#16 (fun w => .xor (rdOf w) (raOf w) (rbOf w)) ∧
  ∀ (rd ra rb : Reg) (s : State), let a := s.readReg ra; let b := s.readReg rb
    (∃ t r, exec (.com rd ra) s = .next t ∧ (∀ k < 16, r.getLsbD k = !a.getLsbD k) ∧
      AluEffect rd r s.flags.c s.flags.o s t) ∧
    (∃ t r, exec (.and rd ra rb) s = .next t ∧ (∀ k < 16, r.getLsbD k = (a.getLsbD k && b.getLsbD k)) ∧
      AluEffect rd r s.flags.c s.flags.o s t) ∧
    (∃ t r, exec (.or rd ra rb) s = .next t ∧ (∀ k < 16, r.getLsbD k = (a.getLsbD k || b.getLsbD k)) ∧
      AluEffect rd r s.flags.c s.flags.o s t) ∧
    (∃ t r, exec (.xor rd ra rb) s = .next t ∧ (∀ k < 16, r.getLsbD k = (a.getLsbD k != b.getLsbD k)) ∧
      AluEffect rd r s.flags.c s.flags.o s t)

/-- SHR, SHL, SHRA and SHLA by one place: halving and doubling modulo 2^16, SHRA rounding the signed value down, C the
bit that leaves, O written by SHLA only, when the sign changes (42_alu.md R94, R95, R96, R97). -/
def Obligations.ShiftResults : Prop :=
  Encoded 0x8400#16 0xC7C0#16 (fun w => .shr (rdOf w) (raOf w)) ∧
  Encoded 0x8440#16 0xC7C0#16 (fun w => .shl (rdOf w) (raOf w)) ∧
  Encoded 0x8480#16 0xC7C0#16 (fun w => .shra (rdOf w) (raOf w)) ∧
  Encoded 0x84C0#16 0xC7C0#16 (fun w => .shla (rdOf w) (raOf w)) ∧
  ∀ (rd ra : Reg) (s : State), let a := s.readReg ra
    AluRuns (.shr rd ra) rd s (a.toNat / 2) (a.toNat % 2 = 1) (fun _ => s.flags.o = true) ∧
    AluRuns (.shl rd ra) rd s (2 * a.toNat % 65536) (neg a) (fun _ => s.flags.o = true) ∧
    (∃ t r c, exec (.shra rd ra) s = .next t ∧ r.toInt = a.toInt / 2 ∧ (c = true ↔ a.toNat % 2 = 1) ∧
      AluEffect rd r c s.flags.o s t) ∧
    AluRuns (.shla rd ra) rd s (2 * a.toNat % 65536) (neg a)
      (fun _ => 0x4000 ≤ a.toNat ∧ a.toNat < 0xC000)

/-- ROR, ROL, RORC and ROLC by one place: the bit that leaves becomes C, and it (or the old C, for RORC and ROLC)
enters at the other end; O is as it was (42_alu.md R98, R99, R100, R101). -/
def Obligations.RotateResults : Prop :=
  Encoded 0x8500#16 0xC7C0#16 (fun w => .ror (rdOf w) (raOf w)) ∧
  Encoded 0x8540#16 0xC7C0#16 (fun w => .rol (rdOf w) (raOf w)) ∧
  Encoded 0x8580#16 0xC7C0#16 (fun w => .rorc (rdOf w) (raOf w)) ∧
  Encoded 0x85C0#16 0xC7C0#16 (fun w => .rolc (rdOf w) (raOf w)) ∧
  ∀ (rd ra : Reg) (s : State), let a := s.readReg ra; let cin := bit s.flags.c
    AluRuns (.ror rd ra) rd s (a.toNat / 2 + 32768 * (a.toNat % 2)) (a.toNat % 2 = 1) (fun _ => s.flags.o = true) ∧
    AluRuns (.rol rd ra) rd s (2 * a.toNat % 65536 + a.toNat / 32768) (neg a) (fun _ => s.flags.o = true) ∧
    AluRuns (.rorc rd ra) rd s (a.toNat / 2 + 32768 * cin) (a.toNat % 2 = 1) (fun _ => s.flags.o = true) ∧
    AluRuns (.rolc rd ra) rd s (2 * a.toNat % 65536 + cin) (neg a) (fun _ => s.flags.o = true)

/-- After ADD, ADDC, SUB, SUBB, DEC and INC the flag O is 1 exactly when the exact signed result does not fit in 16
bits (42_alu.md R82). -/
def Obligations.OverflowMeansTheSignedResultDoesNotFit : Prop :=
  ∀ (rd ra rb : Reg) (s t : State), let a := (s.readReg ra).toInt; let b := (s.readReg rb).toInt
    let cin : Int := bit s.flags.c
    (exec (.add rd ra rb) s = .next t → (t.flags.o = true ↔ ¬ (-32768 ≤ a + b ∧ a + b ≤ 32767))) ∧
    (exec (.addc rd ra rb) s = .next t → (t.flags.o = true ↔ ¬ (-32768 ≤ a + b + cin ∧ a + b + cin ≤ 32767))) ∧
    (exec (.sub rd ra rb) s = .next t → (t.flags.o = true ↔ ¬ (-32768 ≤ a - b ∧ a - b ≤ 32767))) ∧
    (exec (.subb rd ra rb) s = .next t → (t.flags.o = true ↔ ¬ (-32768 ≤ a - b - cin ∧ a - b - cin ≤ 32767))) ∧
    (exec (.dec rd ra) s = .next t → (t.flags.o = true ↔ ¬ (-32768 ≤ a - 1 ∧ a - 1 ≤ 32767))) ∧
    (exec (.inc rd ra) s = .next t → (t.flags.o = true ↔ ¬ (-32768 ≤ a + 1 ∧ a + 1 ≤ 32767)))

/-- SUB with destination R0 (CMP) changes no register and leaves flags that decide the order: Z for equal, C for less
unsigned, N different from O for less signed (30_encoding.md R60, 42_alu.md R84). -/
def Obligations.CompareDecidesEqualityAndBothOrders : Prop :=
  ∀ (ra rb : Reg) (s : State), ∃ t, exec (Alias.cmp ra rb).instr s = .next t ∧ SameRegs s t ∧
    (t.flags.z = true ↔ s.readReg ra = s.readReg rb) ∧
    (t.flags.c = true ↔ (s.readReg ra).toNat < (s.readReg rb).toNat) ∧
    (t.flags.n ≠ t.flags.o ↔ (s.readReg ra).toInt < (s.readReg rb).toInt)

/-- ADD on the low words and then ADDC on the high words adds two 32-bit numbers, C the carry out of bit 31
(42_alu.md R83, R85). -/
def Obligations.AddThenAddcAddsThirtyTwoBits : Prop :=
  ∀ (rdl ral rbl rdh rah rbh : Reg) (s : State), rdl ≠ 0 → rdh ≠ 0 → rdl ≠ rdh → rdl ≠ rah → rdl ≠ rbh →
    ∃ t, execAll [.add rdl ral rbl, .addc rdh rah rbh] s = .next t ∧
      65536 * (65536 * bit t.flags.c + (t.readReg rdh).toNat) + (t.readReg rdl).toNat =
        65536 * (s.readReg rah).toNat + (s.readReg ral).toNat +
        (65536 * (s.readReg rbh).toNat + (s.readReg rbl).toNat)

/-- Seventeen RORCs or seventeen ROLCs of a register restore it and C, and sixteen ROLs restore the register
(42_alu.md R99, R100, R101). -/
def Obligations.FullTurnsOfTheRotatesRestoreTheOperand : Prop :=
  ∀ (rd : Reg) (s : State), rd ≠ 0 →
    (∃ t, execAll (List.replicate 17 (.rorc rd rd)) s = .next t ∧ SameRegs s t ∧ t.flags.c = s.flags.c) ∧
    (∃ t, execAll (List.replicate 17 (.rolc rd rd)) s = .next t ∧ SameRegs s t ∧ t.flags.c = s.flags.c) ∧
    (∃ t, execAll (List.replicate 16 (.rol rd rd)) s = .next t ∧ SameRegs s t)

/-- Which instructions may change which flag: Z and N the ALU only; C the arithmetic unit, the shift unit and CLC, STC,
CMC only; O the arithmetic unit and SHLA only; E, in the instruction's own effect, ENI, DSI, RTI and INT only
(10_state.md R15). -/
def Obligations.EachFlagIsWrittenOnlyByItsInstructions : Prop :=
  ∀ (i : Instr) (s t : State), exec i s = .next t →
    ((isArith i || isLogic i || isShift i) = false → t.flags.z = s.flags.z ∧ t.flags.n = s.flags.n) ∧
    ((isArith i || isShift i || isCarry i) = false → t.flags.c = s.flags.c) ∧
    ((isArith i || isShla i) = false → t.flags.o = s.flags.o) ∧
    (writesE i = false → t.flags.e = s.flags.e)

/-! ## Immediates and carry -/

/-- MVI writes the immediate widened as the open parameter P_MVI_EXT says, and no flag (43_immediate_system.md
R102). -/
def Obligations.MviWritesTheWidenedImmediate : Prop :=
  Encoded 0xC000#16 0xC700#16 (fun w => .mvi (rdOf w) (byteOf w)) ∧
  ∀ (rd : Reg) (imm8 : Byte) (s : State), ∃ t v, exec (.mvi rd imm8) s = .next t ∧
    (Config.mviExt = .sign → v.toInt = imm8.toInt) ∧ (Config.mviExt = .zero → v.toNat = imm8.toNat) ∧
    WritesReg rd v s t ∧ t.flags = s.flags ∧ GoesOn s t ∧ SameControl s t ∧ SameMemory s t

/-- MVIH and MVIL each replace one byte of the register, keep the other, and write no flag (43_immediate_system.md R103,
R104). -/
def Obligations.MvihAndMvilReplaceOneByte : Prop :=
  Encoded 0xC200#16 0xC700#16 (fun w => .mvih (rdOf w) (byteOf w)) ∧
  Encoded 0xC300#16 0xC700#16 (fun w => .mvil (rdOf w) (byteOf w)) ∧
  ∀ (rd : Reg) (imm8 : Byte) (s : State), let x := (s.readReg rd).toNat
    (∃ t v, exec (.mvih rd imm8) s = .next t ∧ v.toNat = 256 * imm8.toNat + x % 256 ∧ WritesReg rd v s t ∧
      t.flags = s.flags ∧ GoesOn s t ∧ SameControl s t ∧ SameMemory s t) ∧
    (∃ t v, exec (.mvil rd imm8) s = .next t ∧ v.toNat = x / 256 * 256 + imm8.toNat ∧ WritesReg rd v s t ∧
      t.flags = s.flags ∧ GoesOn s t ∧ SameControl s t ∧ SameMemory s t)

/-- MVIH and MVIL of a constant's bytes leave the constant in the register, in either order, and no flag changes
(30_encoding.md R59, 43_immediate_system.md R103, R104). -/
def Obligations.MvihAndMvilLoadAConstantInEitherOrder : Prop :=
  ∀ (rd : Reg) (k : Word) (s : State),
    (∃ t, execAll (loadConst rd k) s = .next t ∧ WritesReg rd k s t ∧ t.flags = s.flags) ∧
    (∃ t, execAll (loadConst rd k).reverse s = .next t ∧ WritesReg rd k s t ∧ t.flags = s.flags)

/-- CLC, STC and CMC clear, set and complement C and change nothing else (43_immediate_system.md R105, R106, R107). -/
def Obligations.CarryInstructionsChangeOnlyTheCarry : Prop :=
  Encoded 0xC400#16 0xC700#16 (fun _ => .clc) ∧
  Encoded 0xC500#16 0xC700#16 (fun _ => .stc) ∧
  Encoded 0xC600#16 0xC700#16 (fun _ => .cmc) ∧
  ∀ s : State,
    (∃ t, exec .clc s = .next t ∧ t.flags = { s.flags with c := false } ∧ SameRegs s t ∧ GoesOn s t ∧
      SameControl s t ∧ SameMemory s t) ∧
    (∃ t, exec .stc s = .next t ∧ t.flags = { s.flags with c := true } ∧ SameRegs s t ∧ GoesOn s t ∧
      SameControl s t ∧ SameMemory s t) ∧
    (∃ t, exec .cmc s = .next t ∧ t.flags = { s.flags with c := !s.flags.c } ∧ SameRegs s t ∧ GoesOn s t ∧
      SameControl s t ∧ SameMemory s t)

/-! ## The toolchain contract -/

/-- The displacement byte the assembler stores: none outside −128 to 255; a taken BR with it lands on the label for a
difference up to 127, and 256 short of it from 128 on (30_encoding.md R58). That the difference is taken without
wrapping, so that from 0x7FFF to 0x0000 there is no byte, is the model's reading (log 18). -/
def Obligations.AssembledBranchLandsOnItsLabelUpToOneHundredTwentySeven : Prop :=
  ∀ (a l : PAddr), let delta : Int := l.toNat - a.toNat
    ((delta < -128 ∨ 255 < delta) → branchByte a l = none) ∧
    ((-128 ≤ delta ∧ delta ≤ 255) → ∃ d, branchByte a l = some d ∧
      ∀ s : State, s.pc = a → ∃ t, exec (.br d) s = .next t ∧ t.jp = true ∧
        (delta ≤ 127 → t.jt = l) ∧ (128 ≤ delta → (t.jt.toNat : Int) = (l.toNat - 256) % 32768))

/-- PUSH rb then POP rd, with the stack in data memory: the word is stored where R6 pointed, R6 is restored, and rd
holds what rb held (30_encoding.md R59). -/
def Obligations.PopReturnsWhatPushStored : Prop :=
  ∀ (rb rd : Reg) (a : PAddr) (s : State), s.dmem.wf = true → rd ≠ 0 → rd ≠ 6 → (s.readReg 6).toNat < 0xFF00 →
    ∃ t u, execAll (expand true a (.push rb)) s = .next t ∧
      t.dmem.readWord (BitVec.ofNat 15 ((s.readReg 6).toNat % 32768)) = s.readReg rb ∧
      (t.readReg 6).toNat = ((s.readReg 6).toNat + 65535) % 65536 ∧
      execAll (expand true a (.pop rd)) t = .next u ∧
      u.readReg 6 = s.readReg 6 ∧ u.readReg rd = s.readReg rb

/-- CALL at address A, with the stack in data memory, stores A + 8 where R6 points, moves R6 down and jumps to the
label; a RET then jumps to A + 8 with R6 restored (30_encoding.md R59). -/
def Obligations.RetJumpsToTheWordAfterTheCall : Prop :=
  ∀ (a b : PAddr) (l : Word) (s : State), s.dmem.wf = true → (s.readReg 6).toNat < 0xFF00 →
    ∃ t u, execAll (expand true a (.call l)) s = .next t ∧ t.jp = true ∧ t.jt.toNat = l.toNat % 32768 ∧
      (t.dmem.readWord (BitVec.ofNat 15 ((s.readReg 6).toNat % 32768))).toNat = a.toNat + 8 ∧
      (t.readReg 6).toNat = ((s.readReg 6).toNat + 65535) % 65536 ∧
      execAll (expand true b .ret) t = .next u ∧ u.jp = true ∧ u.jt.toNat = (a.toNat + 8) % 32768 ∧
      u.readReg 6 = s.readReg 6

/-- With ENABLE_DELAY_SLOTS off, in what the assembler emits for any instructions and for any pseudo-instruction, the
word after every BR, JMP, JAL and RTI is a NOP; it adds nothing to other instructions, and these NOPs are all the option
adds to an expansion; with it on the assembler emits the instructions as written (30_encoding.md R57, R59). -/
def Obligations.EmittedBranchesAreFollowedByAFiller : Prop :=
  (∀ l out : List Instr, (out = assemble false l ∨ ∃ a p, out = expand false a p) →
    ∀ n i, out[n]? = some i → BranchClass i → out[n + 1]? = some .nop) ∧
  (∀ l : List Instr, (∀ i ∈ l, ¬ BranchClass i) → assemble false l = l) ∧
  (∀ a p, expand false a p = assemble false (expand true a p)) ∧
  ∀ l, assemble true l = l

/-! ## The timer's requests -/

/-- Once per arming: a request of source 15 that the requests before it have left no arming for is as if it had not
been scheduled, and each other one uses an arming up (20_memory.md R30; the schedule and the armings are the model's
form, log 5 and log 7). -/
def Obligations.TimerRequestsBeyondTheArmingsAreNotRaised : Prop :=
  ∀ (s : State) (b : Bool),
    (∀ pre post later, s.raises = (pre ++ 15 :: post) :: later → s.timerArmed ≤ pre.count 15 →
      s.boundary b = State.boundary { s with raises := (pre ++ post) :: later } b) ∧
    (∀ now later, s.raises = now :: later →
      (s.boundary b).timerArmed = s.timerArmed - now.count 15) ∧
    (s.raises = [] → (s.boundary b).timerArmed = s.timerArmed)

/-- Never after disarming: when nothing of source 15 is held or pending and the timer is not armed or the step disarms
it, and the step does not arm it, the timer is silent after the step, and the step's boundary goes as if no request of
source 15 had been scheduled for it (20_memory.md R30; the schedule and the armings, which reads leave alone, are the
model's form, log 5 and log 7). -/
def Obligations.ASilentTimerStaysSilentUntilItIsArmed : Prop :=
  ∀ s t : State, (15 : Source) ∉ s.held → s.ipend.getLsbD 15 = false → step s = .next t →
    (s.timerArmed = 0 ∧ ¬ StoresToTimer s .arm) ∨ StoresToTimer s .disarm →
    TimerSilent t ∧
    ∀ i u now later, s.run = .running → decode s.fetch = .ok i → exec i s = .next u → u.raises = now :: later →
      t = State.boundary { u with raises := now.filter (· ≠ 15) :: later } (isSoftwareInterrupt i)
end

