-- ==== Sys2Proof/Laws/Alu.lean ====
section
/-! SUPPORT. The ALU's shared computations (42_alu.md R79 to R84), said once in numbers. -/

namespace Sys2Proof.Machine

/-- Bit 15 is the sign. -/
theorem signBit_iff (x : Word) : x.getLsbD 15 = true ↔ 32768 ≤ x.toNat := by
  have h := BitVec.msb_eq_decide x
  rw [BitVec.msb_eq_getLsbD_last] at h
  simp only [Nat.reduceSub, Nat.reducePow] at h
  rw [h]
  simp

/-- Bit 0 is the parity. -/
theorem lowBit_iff (x : Word) : x.getLsbD 0 = true ↔ x.toNat % 2 = 1 := by
  rw [BitVec.getLsbD, Nat.testBit_zero]
  simp

/-- The signed value of a word. -/
theorem toInt_eq_ite (x : Word) : x.toInt = if 32768 ≤ x.toNat then (x.toNat : Int) - 65536 else x.toNat := by
  rw [BitVec.toInt_eq_toNat_cond]
  split <;> split <;> omega

/-- The raw result of an exact integer: the number below 2^17 it is congruent to (R79). -/
theorem rawResult_toNat {exact : Int} {m : Nat} {k : Int} (he : exact = m + 131072 * k) (hm : m < 131072) :
    (rawResult exact).toNat = m := by
  simp only [rawResult, BitVec.toNat_ofInt]
  omega

/-- Bit 16 of the raw result is the carry out or the borrow (R79). -/
theorem arithOut_carry {exact : Int} {m : Nat} (f : Word → Bool) (h : (rawResult exact).toNat = m) :
    ∃ c, (arithOut exact f).carry = some c ∧ (c = true ↔ 65536 ≤ m) := by
  refine ⟨_, rfl, ?_⟩
  have hb := BitVec.msb_eq_decide (rawResult exact)
  rw [BitVec.msb_eq_getLsbD_last] at hb
  simp only [Nat.reduceSub, Nat.reducePow] at hb
  rw [hb, h]
  simp

/-- The 16-bit result is the raw result modulo 2^16 (R79). -/
theorem arithOut_result {exact : Int} {m : Nat} (f : Word → Bool) (h : (rawResult exact).toNat = m) :
    (arithOut exact f).result.toNat = m % 65536 := by
  simp [arithOut, h]

/-- The overflow of the arithmetic unit is its formula on the result (R80). -/
theorem arithOut_overflow (exact : Int) (f : Word → Bool) :
    (arithOut exact f).overflow = some (f (arithOut exact f).result) := rfl

/-- The overflow formula of ADD and ADDC in signs (R83). -/
theorem addOverflow_iff (a b r : Word) :
    addOverflow a b r = true ↔
      (32768 ≤ a.toNat ↔ 32768 ≤ b.toNat) ∧ ¬ (32768 ≤ r.toNat ↔ 32768 ≤ a.toNat) := by
  simp only [← signBit_iff, addOverflow]
  cases a.getLsbD 15 <;> cases b.getLsbD 15 <;> cases r.getLsbD 15 <;> simp

/-- The overflow formula of SUB and SUBB in signs (R84). -/
theorem subOverflow_iff (a b r : Word) :
    subOverflow a b r = true ↔
      ¬ (32768 ≤ a.toNat ↔ 32768 ≤ b.toNat) ∧ ¬ (32768 ≤ r.toNat ↔ 32768 ≤ a.toNat) := by
  simp only [← signBit_iff, subOverflow]
  cases a.getLsbD 15 <;> cases b.getLsbD 15 <;> cases r.getLsbD 15 <;> simp

end Sys2Proof.Machine
end

