-- ==== Sys2Proof/Laws/Encode.lean ====
section
/-! SUPPORT. The fields of an encoded instruction, and the fields of a word that a mask fixes (30_encoding.md R42 to
R50). -/

namespace Sys2Proof

/-- A field whose bits a mask covers is the field of the row's fixed value. -/
theorem extractLsb'_of_masked {w m v : Word} {lo len : Nat} (h : w &&& m = v)
    (hm : m.extractLsb' lo len = BitVec.allOnes len) : w.extractLsb' lo len = v.extractLsb' lo len := by
  rw [← h]
  apply BitVec.eq_of_getLsbD_eq
  intro i hi
  have := congrArg (fun x => x.getLsbD i) hm
  simp only [BitVec.getLsbD_extractLsb', BitVec.getLsbD_allOnes, hi, decide_true, Bool.true_and] at this
  simp [hi, this]

/-! ## encodeBr -/

theorem formatField_encodeBr (cond : Cond) (disp : Byte) : formatField (encodeBr cond disp) = 0 := by
  have h : (encodeBr cond disp).extractLsb' 14 2 = 0#2 := by
    apply BitVec.eq_of_getLsbD_eq
    intro i hi
    simp only [encodeBr, BitVec.getLsbD_extractLsb', BitVec.getLsbD_append]
    interval_cases i <;> simp
  rw [formatField, h]
  rfl

theorem opField_encodeBr (cond : Cond) (disp : Byte) : opField (encodeBr cond disp) = 1 := by
  have h : (encodeBr cond disp).extractLsb' 12 2 = 1#2 := by
    apply BitVec.eq_of_getLsbD_eq
    intro i hi
    simp only [encodeBr, BitVec.getLsbD_extractLsb', BitVec.getLsbD_append]
    interval_cases i <;> simp
  rw [opField, h]
  rfl

theorem condField_encodeBr (cond : Cond) (disp : Byte) : condField (encodeBr cond disp) = cond.code.toFin := by
  have h : (encodeBr cond disp).extractLsb' 8 4 = cond.code := by
    apply BitVec.eq_of_getLsbD_eq
    intro i hi
    simp only [encodeBr, BitVec.getLsbD_extractLsb', BitVec.getLsbD_append]
    interval_cases i <;> simp
  simp [condField, h]

theorem byteField_encodeBr (cond : Cond) (disp : Byte) : byteField (encodeBr cond disp) = disp := by
  have h : (encodeBr cond disp).extractLsb' 0 8 = disp := by
    apply BitVec.eq_of_getLsbD_eq
    intro i hi
    simp only [encodeBr, BitVec.getLsbD_extractLsb', BitVec.getLsbD_append]
    interval_cases i <;> simp
  simp [byteField, h]

/-! ## encodeJmp -/

theorem formatField_encodeJmp (cond : Cond) (rs : Reg) : formatField (encodeJmp cond rs) = 0 := by
  have h : (encodeJmp cond rs).extractLsb' 14 2 = 0#2 := by
    apply BitVec.eq_of_getLsbD_eq
    intro i hi
    simp only [encodeJmp, BitVec.getLsbD_extractLsb', BitVec.getLsbD_append]
    interval_cases i <;> simp
  rw [formatField, h]
  rfl

theorem opField_encodeJmp (cond : Cond) (rs : Reg) : opField (encodeJmp cond rs) = 2 := by
  have h : (encodeJmp cond rs).extractLsb' 12 2 = 2#2 := by
    apply BitVec.eq_of_getLsbD_eq
    intro i hi
    simp only [encodeJmp, BitVec.getLsbD_extractLsb', BitVec.getLsbD_append]
    interval_cases i <;> simp
  rw [opField, h]
  rfl

theorem condField_encodeJmp (cond : Cond) (rs : Reg) : condField (encodeJmp cond rs) = cond.code.toFin := by
  have h : (encodeJmp cond rs).extractLsb' 8 4 = cond.code := by
    apply BitVec.eq_of_getLsbD_eq
    intro i hi
    simp only [encodeJmp, BitVec.getLsbD_extractLsb', BitVec.getLsbD_append]
    interval_cases i <;> simp
  simp [condField, h]

theorem rbField_encodeJmp (cond : Cond) (rs : Reg) : rbField (encodeJmp cond rs) = rs := by
  have h : (encodeJmp cond rs).extractLsb' 0 3 = regBits rs := by
    apply BitVec.eq_of_getLsbD_eq
    intro i hi
    simp only [encodeJmp, BitVec.getLsbD_extractLsb', BitVec.getLsbD_append]
    interval_cases i <;> simp
  simp [rbField, h, regBits]

/-! ## encodeJal -/

theorem formatField_encodeJal (cond : Cond) (rs : Reg) : formatField (encodeJal cond rs) = 0 := by
  have h : (encodeJal cond rs).extractLsb' 14 2 = 0#2 := by
    apply BitVec.eq_of_getLsbD_eq
    intro i hi
    simp only [encodeJal, BitVec.getLsbD_extractLsb', BitVec.getLsbD_append]
    interval_cases i <;> simp
  rw [formatField, h]
  rfl

theorem opField_encodeJal (cond : Cond) (rs : Reg) : opField (encodeJal cond rs) = 3 := by
  have h : (encodeJal cond rs).extractLsb' 12 2 = 3#2 := by
    apply BitVec.eq_of_getLsbD_eq
    intro i hi
    simp only [encodeJal, BitVec.getLsbD_extractLsb', BitVec.getLsbD_append]
    interval_cases i <;> simp
  rw [opField, h]
  rfl

theorem condField_encodeJal (cond : Cond) (rs : Reg) : condField (encodeJal cond rs) = cond.code.toFin := by
  have h : (encodeJal cond rs).extractLsb' 8 4 = cond.code := by
    apply BitVec.eq_of_getLsbD_eq
    intro i hi
    simp only [encodeJal, BitVec.getLsbD_extractLsb', BitVec.getLsbD_append]
    interval_cases i <;> simp
  simp [condField, h]

theorem rbField_encodeJal (cond : Cond) (rs : Reg) : rbField (encodeJal cond rs) = rs := by
  have h : (encodeJal cond rs).extractLsb' 0 3 = regBits rs := by
    apply BitVec.eq_of_getLsbD_eq
    intro i hi
    simp only [encodeJal, BitVec.getLsbD_extractLsb', BitVec.getLsbD_append]
    interval_cases i <;> simp
  simp [rbField, h, regBits]

/-! ## encodeTransfer -/

theorem formatField_encodeTransfer (rd : Reg) (sub : BitVec 3) (ra rb : Reg) : formatField (encodeTransfer rd sub ra rb) = 1 := by
  have h : (encodeTransfer rd sub ra rb).extractLsb' 14 2 = 1#2 := by
    apply BitVec.eq_of_getLsbD_eq
    intro i hi
    simp only [encodeTransfer, BitVec.getLsbD_extractLsb', BitVec.getLsbD_append]
    interval_cases i <;> simp
  rw [formatField, h]
  rfl

theorem rdField_encodeTransfer (rd : Reg) (sub : BitVec 3) (ra rb : Reg) : rdField (encodeTransfer rd sub ra rb) = rd := by
  have h : (encodeTransfer rd sub ra rb).extractLsb' 11 3 = regBits rd := by
    apply BitVec.eq_of_getLsbD_eq
    intro i hi
    simp only [encodeTransfer, BitVec.getLsbD_extractLsb', BitVec.getLsbD_append]
    interval_cases i <;> simp
  simp [rdField, h, regBits]

theorem subField_encodeTransfer (rd : Reg) (sub : BitVec 3) (ra rb : Reg) : subField (encodeTransfer rd sub ra rb) = sub.toFin := by
  have h : (encodeTransfer rd sub ra rb).extractLsb' 8 3 = sub := by
    apply BitVec.eq_of_getLsbD_eq
    intro i hi
    simp only [encodeTransfer, BitVec.getLsbD_extractLsb', BitVec.getLsbD_append]
    interval_cases i <;> simp
  simp [subField, h]

theorem raField_encodeTransfer (rd : Reg) (sub : BitVec 3) (ra rb : Reg) : raField (encodeTransfer rd sub ra rb) = ra := by
  have h : (encodeTransfer rd sub ra rb).extractLsb' 3 3 = regBits ra := by
    apply BitVec.eq_of_getLsbD_eq
    intro i hi
    simp only [encodeTransfer, BitVec.getLsbD_extractLsb', BitVec.getLsbD_append]
    interval_cases i <;> simp
  simp [raField, h, regBits]

theorem rbField_encodeTransfer (rd : Reg) (sub : BitVec 3) (ra rb : Reg) : rbField (encodeTransfer rd sub ra rb) = rb := by
  have h : (encodeTransfer rd sub ra rb).extractLsb' 0 3 = regBits rb := by
    apply BitVec.eq_of_getLsbD_eq
    intro i hi
    simp only [encodeTransfer, BitVec.getLsbD_extractLsb', BitVec.getLsbD_append]
    interval_cases i <;> simp
  simp [rbField, h, regBits]

/-! ## encodeAlu -/

theorem formatField_encodeAlu (rd : Reg) (unit : BitVec 2) (op : BitVec 3) (ra rb : Reg) : formatField (encodeAlu rd unit op ra rb) = 2 := by
  have h : (encodeAlu rd unit op ra rb).extractLsb' 14 2 = 2#2 := by
    apply BitVec.eq_of_getLsbD_eq
    intro i hi
    simp only [encodeAlu, BitVec.getLsbD_extractLsb', BitVec.getLsbD_append]
    interval_cases i <;> simp
  rw [formatField, h]
  rfl

theorem rdField_encodeAlu (rd : Reg) (unit : BitVec 2) (op : BitVec 3) (ra rb : Reg) : rdField (encodeAlu rd unit op ra rb) = rd := by
  have h : (encodeAlu rd unit op ra rb).extractLsb' 11 3 = regBits rd := by
    apply BitVec.eq_of_getLsbD_eq
    intro i hi
    simp only [encodeAlu, BitVec.getLsbD_extractLsb', BitVec.getLsbD_append]
    interval_cases i <;> simp
  simp [rdField, h, regBits]

theorem unitField_encodeAlu (rd : Reg) (unit : BitVec 2) (op : BitVec 3) (ra rb : Reg) : unitField (encodeAlu rd unit op ra rb) = unit.toFin := by
  have h : (encodeAlu rd unit op ra rb).extractLsb' 9 2 = unit := by
    apply BitVec.eq_of_getLsbD_eq
    intro i hi
    simp only [encodeAlu, BitVec.getLsbD_extractLsb', BitVec.getLsbD_append]
    interval_cases i <;> simp
  simp [unitField, h]

theorem aluOpField_encodeAlu (rd : Reg) (unit : BitVec 2) (op : BitVec 3) (ra rb : Reg) : aluOpField (encodeAlu rd unit op ra rb) = op.toFin := by
  have h : (encodeAlu rd unit op ra rb).extractLsb' 6 3 = op := by
    apply BitVec.eq_of_getLsbD_eq
    intro i hi
    simp only [encodeAlu, BitVec.getLsbD_extractLsb', BitVec.getLsbD_append]
    interval_cases i <;> simp
  simp [aluOpField, h]

theorem raField_encodeAlu (rd : Reg) (unit : BitVec 2) (op : BitVec 3) (ra rb : Reg) : raField (encodeAlu rd unit op ra rb) = ra := by
  have h : (encodeAlu rd unit op ra rb).extractLsb' 3 3 = regBits ra := by
    apply BitVec.eq_of_getLsbD_eq
    intro i hi
    simp only [encodeAlu, BitVec.getLsbD_extractLsb', BitVec.getLsbD_append]
    interval_cases i <;> simp
  simp [raField, h, regBits]

theorem rbField_encodeAlu (rd : Reg) (unit : BitVec 2) (op : BitVec 3) (ra rb : Reg) : rbField (encodeAlu rd unit op ra rb) = rb := by
  have h : (encodeAlu rd unit op ra rb).extractLsb' 0 3 = regBits rb := by
    apply BitVec.eq_of_getLsbD_eq
    intro i hi
    simp only [encodeAlu, BitVec.getLsbD_extractLsb', BitVec.getLsbD_append]
    interval_cases i <;> simp
  simp [rbField, h, regBits]

/-! ## encodeImmediate -/

theorem formatField_encodeImmediate (rd : Reg) (sub : BitVec 3) (imm8 : Byte) : formatField (encodeImmediate rd sub imm8) = 3 := by
  have h : (encodeImmediate rd sub imm8).extractLsb' 14 2 = 3#2 := by
    apply BitVec.eq_of_getLsbD_eq
    intro i hi
    simp only [encodeImmediate, BitVec.getLsbD_extractLsb', BitVec.getLsbD_append]
    interval_cases i <;> simp
  rw [formatField, h]
  rfl

theorem rdField_encodeImmediate (rd : Reg) (sub : BitVec 3) (imm8 : Byte) : rdField (encodeImmediate rd sub imm8) = rd := by
  have h : (encodeImmediate rd sub imm8).extractLsb' 11 3 = regBits rd := by
    apply BitVec.eq_of_getLsbD_eq
    intro i hi
    simp only [encodeImmediate, BitVec.getLsbD_extractLsb', BitVec.getLsbD_append]
    interval_cases i <;> simp
  simp [rdField, h, regBits]

theorem subField_encodeImmediate (rd : Reg) (sub : BitVec 3) (imm8 : Byte) : subField (encodeImmediate rd sub imm8) = sub.toFin := by
  have h : (encodeImmediate rd sub imm8).extractLsb' 8 3 = sub := by
    apply BitVec.eq_of_getLsbD_eq
    intro i hi
    simp only [encodeImmediate, BitVec.getLsbD_extractLsb', BitVec.getLsbD_append]
    interval_cases i <;> simp
  simp [subField, h]

theorem byteField_encodeImmediate (rd : Reg) (sub : BitVec 3) (imm8 : Byte) : byteField (encodeImmediate rd sub imm8) = imm8 := by
  have h : (encodeImmediate rd sub imm8).extractLsb' 0 8 = imm8 := by
    apply BitVec.eq_of_getLsbD_eq
    intro i hi
    simp only [encodeImmediate, BitVec.getLsbD_extractLsb', BitVec.getLsbD_append]
    interval_cases i <;> simp
  simp [byteField, h]

end Sys2Proof
end

