-- ==== Sys2Proof/Laws/Memory.lean ====
section
/-! SUPPORT. Memory: reading after writing, and the canonical form that every memory operation keeps (log 9). -/

namespace Sys2Proof.Machine

/-! ## Bytes -/

/-- Below its first address a canonical memory reads 0. -/
theorem readByte_below {lo k : Nat} {m : Memory} (h : Memory.wfFrom lo m = true) (hk : k < lo) :
    m.readByte k = 0#8 := by
  induction m generalizing lo with
  | nil => rfl
  | cons c rest ih =>
    obtain ⟨k', b⟩ := c
    simp only [Memory.wfFrom, Bool.and_eq_true, decide_eq_true_eq] at h
    obtain ⟨⟨⟨h1, -⟩, -⟩, h4⟩ := h
    simp only [Memory.readByte]
    rw [if_neg (by omega)]
    exact ih h4 (by omega)

theorem wfFrom_mono {lo hi : Nat} {m : Memory} (h : Memory.wfFrom hi m = true) (hle : lo ≤ hi) :
    Memory.wfFrom lo m = true := by
  cases m with
  | nil => rfl
  | cons c rest =>
    obtain ⟨k', b⟩ := c
    simp only [Memory.wfFrom, Bool.and_eq_true, decide_eq_true_eq] at h ⊢
    exact ⟨⟨⟨by omega, h.1.1.2⟩, h.1.2⟩, h.2⟩

/-- Writing a byte keeps the canonical form. -/
theorem wfFrom_writeByte {lo k : Nat} {m : Memory} (b : Byte) (h : Memory.wfFrom lo m = true) (hlo : lo ≤ k)
    (hk : k < 65536) : Memory.wfFrom lo (m.writeByte k b) = true := by
  induction m generalizing lo with
  | nil =>
    simp only [Memory.writeByte]
    split
    · rfl
    · rename_i hb
      simp [Memory.wfFrom, hlo, hk, hb]
  | cons c rest ih =>
    obtain ⟨k', b'⟩ := c
    simp only [Memory.wfFrom, Bool.and_eq_true, decide_eq_true_eq] at h
    obtain ⟨⟨⟨h1, h2⟩, h3⟩, h4⟩ := h
    simp only [Memory.writeByte]
    split
    · split
      · simp [Memory.wfFrom, h1, h2, h3, h4]
      · rename_i hkk hb
        have : k + 1 ≤ k' := hkk
        simp [Memory.wfFrom, hlo, hk, hb, this, h2, h3, h4]
    · split
      · rename_i hkk
        subst hkk
        split
        · exact wfFrom_mono h4 (by omega)
        · rename_i hb
          simp [Memory.wfFrom, hlo, hk, hb, h4]
      · have := ih h4 (by omega)
        simp [Memory.wfFrom, h1, h2, h3, this]

theorem readByte_writeByte_same {lo k : Nat} {m : Memory} (b : Byte) (h : Memory.wfFrom lo m = true) :
    (m.writeByte k b).readByte k = b := by
  induction m generalizing lo with
  | nil =>
    simp only [Memory.writeByte]
    split
    · rename_i hb
      simp [Memory.readByte, hb]
    · simp [Memory.readByte]
  | cons c rest ih =>
    obtain ⟨k', b'⟩ := c
    simp only [Memory.wfFrom, Bool.and_eq_true, decide_eq_true_eq] at h
    obtain ⟨⟨⟨h1, h2⟩, h3⟩, h4⟩ := h
    simp only [Memory.writeByte]
    split
    · rename_i hkk
      split
      · rename_i hb
        have := readByte_below (k := k) h4 (by omega)
        simp only [Memory.readByte]
        rw [if_neg (by omega), this, hb]
      · simp [Memory.readByte]
    · split
      · rename_i hkk
        subst hkk
        split
        · rename_i hb
          rw [readByte_below h4 (by omega), hb]
        · simp [Memory.readByte]
      · rename_i hne
        simp only [Memory.readByte]
        rw [if_neg hne]
        exact ih h4

theorem readByte_writeByte_other {k j : Nat} (m : Memory) (b : Byte) (hne : j ≠ k) :
    (m.writeByte k b).readByte j = m.readByte j := by
  induction m with
  | nil =>
    simp only [Memory.writeByte]
    split
    · rfl
    · simp [Memory.readByte, hne]
  | cons c rest ih =>
    obtain ⟨k', b'⟩ := c
    simp only [Memory.writeByte]
    split
    · split
      · rfl
      · simp [Memory.readByte, hne]
    · split
      · rename_i hkk
        subst hkk
        split
        · simp [Memory.readByte, hne]
        · simp [Memory.readByte, hne]
      · simp only [Memory.readByte, ih]

/-! ## Words -/

theorem wf_nil : Memory.wf [] = true := rfl

/-- Writing a word keeps the canonical form. -/
theorem wf_writeWord {m : Memory} (h : m.wf = true) (a : PAddr) (v : Word) : (m.writeWord a v).wf = true := by
  have ha := a.isLt
  exact wfFrom_writeByte _ (wfFrom_writeByte _ h (Nat.zero_le _) (by omega)) (Nat.zero_le _) (by omega)

theorem readWord_writeWord_same {m : Memory} (h : m.wf = true) (a : PAddr) (v : Word) :
    (m.writeWord a v).readWord a = v := by
  have ha := a.isLt
  have h1 : Memory.wfFrom 0 (m.writeByte (2 * a.toNat) (v.extractLsb' 0 8)) = true :=
    wfFrom_writeByte _ h (Nat.zero_le _) (by omega)
  unfold Memory.readWord Memory.writeWord
  rw [readByte_writeByte_same _ h1, readByte_writeByte_other _ _ (by omega), readByte_writeByte_same _ h]
  apply BitVec.eq_of_getLsbD_eq
  intro i hi
  simp only [BitVec.getLsbD_append, BitVec.getLsbD_extractLsb']
  by_cases h8 : i < 8
  · simp [h8]
  · have : 8 + (i - 8) = i := by omega
    have h9 : i - 8 < 8 := by omega
    simp [h8, this, h9]

theorem readWord_writeWord_other (m : Memory) {a b : PAddr} (v : Word) (hne : b ≠ a) :
    (m.writeWord a v).readWord b = m.readWord b := by
  have : b.toNat ≠ a.toNat := fun h => hne (BitVec.eq_of_toNat_eq h)
  unfold Memory.readWord Memory.writeWord
  rw [readByte_writeByte_other _ _ (by omega), readByte_writeByte_other _ _ (by omega),
    readByte_writeByte_other _ _ (by omega), readByte_writeByte_other _ _ (by omega)]

theorem readWord_nil (a : PAddr) : Memory.readWord [] a = 0#16 := by
  simp only [Memory.readWord, Memory.readByte]
  decide

/-- The memories of the state after reset are in canonical form. -/
theorem reset_memories_wf :
    State.reset.pmem.wf = true ∧ State.reset.dmem.wf = true ∧ State.reset.dmemInit.wf = true := ⟨rfl, rfl, rfl⟩

end Sys2Proof.Machine
end

