-- ==== Sys2Proof/Laws/State.lean ====
section
/-! SUPPORT. The fields of the state after each update: one lemma per field and update, true by rfl. -/

namespace Sys2Proof.Machine

/-! ## writeReg -/

@[simp] theorem writeReg_regs (s : State) (i : Reg) (v : Word) : (s.writeReg i v).regs = if i = 0 then s.regs else s.regs.set i v := rfl
@[simp] theorem writeReg_pc (s : State) (i : Reg) (v : Word) : (s.writeReg i v).pc = s.pc := rfl
@[simp] theorem writeReg_jp (s : State) (i : Reg) (v : Word) : (s.writeReg i v).jp = s.jp := rfl
@[simp] theorem writeReg_jt (s : State) (i : Reg) (v : Word) : (s.writeReg i v).jt = s.jt := rfl
@[simp] theorem writeReg_flags (s : State) (i : Reg) (v : Word) : (s.writeReg i v).flags = s.flags := rfl
@[simp] theorem writeReg_imask (s : State) (i : Reg) (v : Word) : (s.writeReg i v).imask = s.imask := rfl
@[simp] theorem writeReg_ipend (s : State) (i : Reg) (v : Word) : (s.writeReg i v).ipend = s.ipend := rfl
@[simp] theorem writeReg_se (s : State) (i : Reg) (v : Word) : (s.writeReg i v).se = s.se := rfl
@[simp] theorem writeReg_ra (s : State) (i : Reg) (v : Word) : (s.writeReg i v).ra = s.ra := rfl
@[simp] theorem writeReg_rescan (s : State) (i : Reg) (v : Word) : (s.writeReg i v).rescan = s.rescan := rfl
@[simp] theorem writeReg_run (s : State) (i : Reg) (v : Word) : (s.writeReg i v).run = s.run := rfl
@[simp] theorem writeReg_pmem (s : State) (i : Reg) (v : Word) : (s.writeReg i v).pmem = s.pmem := rfl
@[simp] theorem writeReg_dmem (s : State) (i : Reg) (v : Word) : (s.writeReg i v).dmem = s.dmem := rfl
@[simp] theorem writeReg_dmemInit (s : State) (i : Reg) (v : Word) : (s.writeReg i v).dmemInit = s.dmemInit := rfl
@[simp] theorem writeReg_raises (s : State) (i : Reg) (v : Word) : (s.writeReg i v).raises = s.raises := rfl
@[simp] theorem writeReg_held (s : State) (i : Reg) (v : Word) : (s.writeReg i v).held = s.held := rfl
@[simp] theorem writeReg_timerArmed (s : State) (i : Reg) (v : Word) : (s.writeReg i v).timerArmed = s.timerArmed := rfl
@[simp] theorem writeReg_devEvents (s : State) (i : Reg) (v : Word) : (s.writeReg i v).devEvents = s.devEvents := rfl

/-! ## advance -/

@[simp] theorem advance_regs (s : State) (take : Option PAddr) : (s.advance take).regs = s.regs := rfl
@[simp] theorem advance_pc (s : State) (take : Option PAddr) : (s.advance take).pc = if s.jp then s.jt else s.pc + 1#15 := rfl
@[simp] theorem advance_jp (s : State) (take : Option PAddr) : (s.advance take).jp = take.isSome := rfl
@[simp] theorem advance_jt (s : State) (take : Option PAddr) : (s.advance take).jt = take.getD s.jt := rfl
@[simp] theorem advance_flags (s : State) (take : Option PAddr) : (s.advance take).flags = s.flags := rfl
@[simp] theorem advance_imask (s : State) (take : Option PAddr) : (s.advance take).imask = s.imask := rfl
@[simp] theorem advance_ipend (s : State) (take : Option PAddr) : (s.advance take).ipend = s.ipend := rfl
@[simp] theorem advance_se (s : State) (take : Option PAddr) : (s.advance take).se = s.se := rfl
@[simp] theorem advance_ra (s : State) (take : Option PAddr) : (s.advance take).ra = s.ra := rfl
@[simp] theorem advance_rescan (s : State) (take : Option PAddr) : (s.advance take).rescan = s.rescan := rfl
@[simp] theorem advance_run (s : State) (take : Option PAddr) : (s.advance take).run = s.run := rfl
@[simp] theorem advance_pmem (s : State) (take : Option PAddr) : (s.advance take).pmem = s.pmem := rfl
@[simp] theorem advance_dmem (s : State) (take : Option PAddr) : (s.advance take).dmem = s.dmem := rfl
@[simp] theorem advance_dmemInit (s : State) (take : Option PAddr) : (s.advance take).dmemInit = s.dmemInit := rfl
@[simp] theorem advance_raises (s : State) (take : Option PAddr) : (s.advance take).raises = s.raises := rfl
@[simp] theorem advance_held (s : State) (take : Option PAddr) : (s.advance take).held = s.held := rfl
@[simp] theorem advance_timerArmed (s : State) (take : Option PAddr) : (s.advance take).timerArmed = s.timerArmed := rfl
@[simp] theorem advance_devEvents (s : State) (take : Option PAddr) : (s.advance take).devEvents = s.devEvents := rfl

/-! ## service -/

@[simp] theorem service_regs (s : State) (v : PAddr) : (s.service v).regs = s.regs := rfl
@[simp] theorem service_pc (s : State) (v : PAddr) : (s.service v).pc = v := rfl
@[simp] theorem service_jp (s : State) (v : PAddr) : (s.service v).jp = s.jp := rfl
@[simp] theorem service_jt (s : State) (v : PAddr) : (s.service v).jt = s.jt := rfl
@[simp] theorem service_flags (s : State) (v : PAddr) : (s.service v).flags = { s.flags with e := false } := rfl
@[simp] theorem service_imask (s : State) (v : PAddr) : (s.service v).imask = s.imask := rfl
@[simp] theorem service_ipend (s : State) (v : PAddr) : (s.service v).ipend = s.ipend := rfl
@[simp] theorem service_se (s : State) (v : PAddr) : (s.service v).se = s.flags.e := rfl
@[simp] theorem service_ra (s : State) (v : PAddr) : (s.service v).ra = s.pc := rfl
@[simp] theorem service_rescan (s : State) (v : PAddr) : (s.service v).rescan = s.rescan := rfl
@[simp] theorem service_run (s : State) (v : PAddr) : (s.service v).run = s.run := rfl
@[simp] theorem service_pmem (s : State) (v : PAddr) : (s.service v).pmem = s.pmem := rfl
@[simp] theorem service_dmem (s : State) (v : PAddr) : (s.service v).dmem = s.dmem := rfl
@[simp] theorem service_dmemInit (s : State) (v : PAddr) : (s.service v).dmemInit = s.dmemInit := rfl
@[simp] theorem service_raises (s : State) (v : PAddr) : (s.service v).raises = s.raises := rfl
@[simp] theorem service_held (s : State) (v : PAddr) : (s.service v).held = s.held := rfl
@[simp] theorem service_timerArmed (s : State) (v : PAddr) : (s.service v).timerArmed = s.timerArmed := rfl
@[simp] theorem service_devEvents (s : State) (v : PAddr) : (s.service v).devEvents = s.devEvents := rfl

/-! ## returnFromInterrupt -/

@[simp] theorem returnFromInterrupt_regs (s : State) : (s.returnFromInterrupt).regs = s.regs := rfl
@[simp] theorem returnFromInterrupt_pc (s : State) : (s.returnFromInterrupt).pc = if s.jp then s.jt else s.pc + 1#15 := rfl
@[simp] theorem returnFromInterrupt_jp (s : State) : (s.returnFromInterrupt).jp = true := rfl
@[simp] theorem returnFromInterrupt_jt (s : State) : (s.returnFromInterrupt).jt = s.ra := rfl
@[simp] theorem returnFromInterrupt_flags (s : State) : (s.returnFromInterrupt).flags = { s.flags with e := s.se } := rfl
@[simp] theorem returnFromInterrupt_imask (s : State) : (s.returnFromInterrupt).imask = s.imask := rfl
@[simp] theorem returnFromInterrupt_ipend (s : State) : (s.returnFromInterrupt).ipend = s.ipend := rfl
@[simp] theorem returnFromInterrupt_se (s : State) : (s.returnFromInterrupt).se = s.se := rfl
@[simp] theorem returnFromInterrupt_ra (s : State) : (s.returnFromInterrupt).ra = s.ra := rfl
@[simp] theorem returnFromInterrupt_rescan (s : State) : (s.returnFromInterrupt).rescan = true := rfl
@[simp] theorem returnFromInterrupt_run (s : State) : (s.returnFromInterrupt).run = s.run := rfl
@[simp] theorem returnFromInterrupt_pmem (s : State) : (s.returnFromInterrupt).pmem = s.pmem := rfl
@[simp] theorem returnFromInterrupt_dmem (s : State) : (s.returnFromInterrupt).dmem = s.dmem := rfl
@[simp] theorem returnFromInterrupt_dmemInit (s : State) : (s.returnFromInterrupt).dmemInit = s.dmemInit := rfl
@[simp] theorem returnFromInterrupt_raises (s : State) : (s.returnFromInterrupt).raises = s.raises := rfl
@[simp] theorem returnFromInterrupt_held (s : State) : (s.returnFromInterrupt).held = s.held := rfl
@[simp] theorem returnFromInterrupt_timerArmed (s : State) : (s.returnFromInterrupt).timerArmed = s.timerArmed := rfl
@[simp] theorem returnFromInterrupt_devEvents (s : State) : (s.returnFromInterrupt).devEvents = s.devEvents := rfl

/-! ## setCarry -/

@[simp] theorem setCarry_regs (s : State) (b : Bool) : (s.setCarry b).regs = s.regs := rfl
@[simp] theorem setCarry_pc (s : State) (b : Bool) : (s.setCarry b).pc = s.pc := rfl
@[simp] theorem setCarry_jp (s : State) (b : Bool) : (s.setCarry b).jp = s.jp := rfl
@[simp] theorem setCarry_jt (s : State) (b : Bool) : (s.setCarry b).jt = s.jt := rfl
@[simp] theorem setCarry_flags (s : State) (b : Bool) : (s.setCarry b).flags = { s.flags with c := b } := rfl
@[simp] theorem setCarry_imask (s : State) (b : Bool) : (s.setCarry b).imask = s.imask := rfl
@[simp] theorem setCarry_ipend (s : State) (b : Bool) : (s.setCarry b).ipend = s.ipend := rfl
@[simp] theorem setCarry_se (s : State) (b : Bool) : (s.setCarry b).se = s.se := rfl
@[simp] theorem setCarry_ra (s : State) (b : Bool) : (s.setCarry b).ra = s.ra := rfl
@[simp] theorem setCarry_rescan (s : State) (b : Bool) : (s.setCarry b).rescan = s.rescan := rfl
@[simp] theorem setCarry_run (s : State) (b : Bool) : (s.setCarry b).run = s.run := rfl
@[simp] theorem setCarry_pmem (s : State) (b : Bool) : (s.setCarry b).pmem = s.pmem := rfl
@[simp] theorem setCarry_dmem (s : State) (b : Bool) : (s.setCarry b).dmem = s.dmem := rfl
@[simp] theorem setCarry_dmemInit (s : State) (b : Bool) : (s.setCarry b).dmemInit = s.dmemInit := rfl
@[simp] theorem setCarry_raises (s : State) (b : Bool) : (s.setCarry b).raises = s.raises := rfl
@[simp] theorem setCarry_held (s : State) (b : Bool) : (s.setCarry b).held = s.held := rfl
@[simp] theorem setCarry_timerArmed (s : State) (b : Bool) : (s.setCarry b).timerArmed = s.timerArmed := rfl
@[simp] theorem setCarry_devEvents (s : State) (b : Bool) : (s.setCarry b).devEvents = s.devEvents := rfl

/-! ## applyAlu -/

@[simp] theorem applyAlu_regs (s : State) (rd : Reg) (out : AluOut) : (s.applyAlu rd out).regs = if rd = 0 then s.regs else s.regs.set rd out.result := rfl
@[simp] theorem applyAlu_pc (s : State) (rd : Reg) (out : AluOut) : (s.applyAlu rd out).pc = s.pc := rfl
@[simp] theorem applyAlu_jp (s : State) (rd : Reg) (out : AluOut) : (s.applyAlu rd out).jp = s.jp := rfl
@[simp] theorem applyAlu_jt (s : State) (rd : Reg) (out : AluOut) : (s.applyAlu rd out).jt = s.jt := rfl
@[simp] theorem applyAlu_flags (s : State) (rd : Reg) (out : AluOut) : (s.applyAlu rd out).flags = out.flags s.flags := rfl
@[simp] theorem applyAlu_imask (s : State) (rd : Reg) (out : AluOut) : (s.applyAlu rd out).imask = s.imask := rfl
@[simp] theorem applyAlu_ipend (s : State) (rd : Reg) (out : AluOut) : (s.applyAlu rd out).ipend = s.ipend := rfl
@[simp] theorem applyAlu_se (s : State) (rd : Reg) (out : AluOut) : (s.applyAlu rd out).se = s.se := rfl
@[simp] theorem applyAlu_ra (s : State) (rd : Reg) (out : AluOut) : (s.applyAlu rd out).ra = s.ra := rfl
@[simp] theorem applyAlu_rescan (s : State) (rd : Reg) (out : AluOut) : (s.applyAlu rd out).rescan = s.rescan := rfl
@[simp] theorem applyAlu_run (s : State) (rd : Reg) (out : AluOut) : (s.applyAlu rd out).run = s.run := rfl
@[simp] theorem applyAlu_pmem (s : State) (rd : Reg) (out : AluOut) : (s.applyAlu rd out).pmem = s.pmem := rfl
@[simp] theorem applyAlu_dmem (s : State) (rd : Reg) (out : AluOut) : (s.applyAlu rd out).dmem = s.dmem := rfl
@[simp] theorem applyAlu_dmemInit (s : State) (rd : Reg) (out : AluOut) : (s.applyAlu rd out).dmemInit = s.dmemInit := rfl
@[simp] theorem applyAlu_raises (s : State) (rd : Reg) (out : AluOut) : (s.applyAlu rd out).raises = s.raises := rfl
@[simp] theorem applyAlu_held (s : State) (rd : Reg) (out : AluOut) : (s.applyAlu rd out).held = s.held := rfl
@[simp] theorem applyAlu_timerArmed (s : State) (rd : Reg) (out : AluOut) : (s.applyAlu rd out).timerArmed = s.timerArmed := rfl
@[simp] theorem applyAlu_devEvents (s : State) (rd : Reg) (out : AluOut) : (s.applyAlu rd out).devEvents = s.devEvents := rfl

/-! ## stopIllegal -/

@[simp] theorem stopIllegal_regs (s : State) : (s.stopIllegal).regs = s.regs := rfl
@[simp] theorem stopIllegal_pc (s : State) : (s.stopIllegal).pc = s.pc := rfl
@[simp] theorem stopIllegal_jp (s : State) : (s.stopIllegal).jp = s.jp := rfl
@[simp] theorem stopIllegal_jt (s : State) : (s.stopIllegal).jt = s.jt := rfl
@[simp] theorem stopIllegal_flags (s : State) : (s.stopIllegal).flags = s.flags := rfl
@[simp] theorem stopIllegal_imask (s : State) : (s.stopIllegal).imask = s.imask := rfl
@[simp] theorem stopIllegal_ipend (s : State) : (s.stopIllegal).ipend = s.ipend := rfl
@[simp] theorem stopIllegal_se (s : State) : (s.stopIllegal).se = s.se := rfl
@[simp] theorem stopIllegal_ra (s : State) : (s.stopIllegal).ra = s.ra := rfl
@[simp] theorem stopIllegal_rescan (s : State) : (s.stopIllegal).rescan = s.rescan := rfl
@[simp] theorem stopIllegal_run (s : State) : (s.stopIllegal).run = .illegal s.pc s.fetch := rfl
@[simp] theorem stopIllegal_pmem (s : State) : (s.stopIllegal).pmem = s.pmem := rfl
@[simp] theorem stopIllegal_dmem (s : State) : (s.stopIllegal).dmem = s.dmem := rfl
@[simp] theorem stopIllegal_dmemInit (s : State) : (s.stopIllegal).dmemInit = s.dmemInit := rfl
@[simp] theorem stopIllegal_raises (s : State) : (s.stopIllegal).raises = s.raises := rfl
@[simp] theorem stopIllegal_held (s : State) : (s.stopIllegal).held = s.held := rfl
@[simp] theorem stopIllegal_timerArmed (s : State) : (s.stopIllegal).timerArmed = s.timerArmed := rfl
@[simp] theorem stopIllegal_devEvents (s : State) : (s.stopIllegal).devEvents = s.devEvents := rfl

/-! ## Reading a register after an update -/

theorem readReg_writeReg (s : State) (i j : Reg) (v : Word) :
    (s.writeReg i v).readReg j = if j = 0 then 0#16 else if j = i then v else s.readReg j := by
  unfold State.readReg
  by_cases hj : j = 0
  · simp [hj]
  · by_cases hji : j = i
    · subst hji
      simp [hj]
    · have : ¬ i = j := fun h => hji h.symm
      by_cases hi : i = 0
      · simp [hj, hi]
      · have hv : ¬ i.val = j.val := fun h => this (Fin.ext h)
        simp [hj, hji, hi, hv]

@[simp] theorem readReg_zero (s : State) : s.readReg 0 = 0#16 := rfl

theorem readReg_congr {s t : State} (h : s.regs = t.regs) (j : Reg) : s.readReg j = t.readReg j := by
  unfold State.readReg
  simp only [h]

@[simp] theorem readReg_advance (s : State) (take : Option PAddr) (j : Reg) :
    (s.advance take).readReg j = s.readReg j := rfl

@[simp] theorem readReg_service (s : State) (v : PAddr) (j : Reg) : (s.service v).readReg j = s.readReg j := rfl

@[simp] theorem readReg_setCarry (s : State) (b : Bool) (j : Reg) : (s.setCarry b).readReg j = s.readReg j := rfl

@[simp] theorem readReg_returnFromInterrupt (s : State) (j : Reg) :
    s.returnFromInterrupt.readReg j = s.readReg j := rfl

theorem readReg_applyAlu (s : State) (rd j : Reg) (out : AluOut) :
    (s.applyAlu rd out).readReg j = if j = 0 then 0#16 else if j = rd then out.result else s.readReg j := by
  unfold State.applyAlu
  rw [readReg_writeReg]
  rfl

end Sys2Proof.Machine
end

