-- ==== Sys2Proof/Laws/Ops.lean ====
section
/-! SUPPORT. What each shared operation of Machine/Ops.lean can do, said once. -/

namespace Sys2Proof.Machine

/-! ## The data bus -/

/-- The I/O window is the addresses from 0xFF00 on (20_memory.md R24). -/
theorem topByte_iff_window (a : Word) : a.extractLsb' 8 8 = 0xFF#8 ↔ 0xFF00 ≤ a.toNat := by
  have := a.isLt
  rw [← BitVec.toNat_inj]
  simp only [BitVec.extractLsb'_toNat, Nat.shiftRight_eq_div_pow]
  simp
  omega

/-- Outside the I/O window a data address reaches DMEM, masked to 15 bits (20_memory.md R24). -/
theorem busTarget_dmem {a : Word} (h : a.extractLsb' 8 8 ≠ 0xFF#8) : busTarget a = .dmem (a.setWidth 15) := by
  simp [busTarget, h]

/-- The interrupt mask's address lies in the I/O window (R28). -/
theorem addrImask_in_window : Config.addrImask.extractLsb' 8 8 = 0xFF#8 := by
  unfold Config.addrImask
  apply BitVec.eq_of_getLsbD_eq
  intro i hi
  simp only [BitVec.getLsbD_extractLsb', BitVec.getLsbD_append]
  interval_cases i <;> simp

theorem busTarget_imask : busTarget Config.addrImask = .imask := by
  simp [busTarget, addrImask_in_window]

/-- A bus read is one of four (R26). -/
theorem busRead_cases (s : State) (a : Word) :
    (busTarget a = .imask ∧ s.busRead a = (s.imask, s)) ∨
    (∃ r, busTarget a = .device r ∧
      s.busRead a = (Config.devRead s.devEvents r, { s with devEvents := .read r :: s.devEvents })) ∨
    (busTarget a = .unmapped ∧ s.busRead a = (0xFFFF#16, s)) ∨
    (∃ d, busTarget a = .dmem d ∧ s.busRead a = (s.dmem.readWord d, s)) := by
  unfold State.busRead
  cases h : busTarget a <;> simp

/-- A bus write is one of four (R27). -/
theorem busWrite_cases (s : State) (a v : Word) :
    (busTarget a = .imask ∧ s.busWrite a v = { s with imask := v }) ∨
    (∃ r, busTarget a = .device r ∧ 
      s.busWrite a v = { s with devEvents := .write r v :: s.devEvents, timerArmed := s.timerAfterWrite r v }) ∨
    (busTarget a = .unmapped ∧ s.busWrite a v = s) ∨
    (∃ d, busTarget a = .dmem d ∧ s.busWrite a v = { s with dmem := s.dmem.writeWord d v }) := by
  unfold State.busWrite
  cases h : busTarget a <;> simp

@[simp] theorem busRead_regs (s : State) (a : Word) : (s.busRead a).2.regs = s.regs := by
  unfold State.busRead
  split <;> rfl

@[simp] theorem busRead_pc (s : State) (a : Word) : (s.busRead a).2.pc = s.pc := by
  unfold State.busRead
  split <;> rfl

@[simp] theorem busRead_jp (s : State) (a : Word) : (s.busRead a).2.jp = s.jp := by
  unfold State.busRead
  split <;> rfl

@[simp] theorem busRead_jt (s : State) (a : Word) : (s.busRead a).2.jt = s.jt := by
  unfold State.busRead
  split <;> rfl

@[simp] theorem busRead_flags (s : State) (a : Word) : (s.busRead a).2.flags = s.flags := by
  unfold State.busRead
  split <;> rfl

@[simp] theorem busRead_imask (s : State) (a : Word) : (s.busRead a).2.imask = s.imask := by
  unfold State.busRead
  split <;> rfl

@[simp] theorem busRead_ipend (s : State) (a : Word) : (s.busRead a).2.ipend = s.ipend := by
  unfold State.busRead
  split <;> rfl

@[simp] theorem busRead_se (s : State) (a : Word) : (s.busRead a).2.se = s.se := by
  unfold State.busRead
  split <;> rfl

@[simp] theorem busRead_ra (s : State) (a : Word) : (s.busRead a).2.ra = s.ra := by
  unfold State.busRead
  split <;> rfl

@[simp] theorem busRead_rescan (s : State) (a : Word) : (s.busRead a).2.rescan = s.rescan := by
  unfold State.busRead
  split <;> rfl

@[simp] theorem busRead_run (s : State) (a : Word) : (s.busRead a).2.run = s.run := by
  unfold State.busRead
  split <;> rfl

@[simp] theorem busRead_pmem (s : State) (a : Word) : (s.busRead a).2.pmem = s.pmem := by
  unfold State.busRead
  split <;> rfl

@[simp] theorem busRead_dmem (s : State) (a : Word) : (s.busRead a).2.dmem = s.dmem := by
  unfold State.busRead
  split <;> rfl

@[simp] theorem busRead_dmemInit (s : State) (a : Word) : (s.busRead a).2.dmemInit = s.dmemInit := by
  unfold State.busRead
  split <;> rfl

@[simp] theorem busRead_raises (s : State) (a : Word) : (s.busRead a).2.raises = s.raises := by
  unfold State.busRead
  split <;> rfl

@[simp] theorem busRead_held (s : State) (a : Word) : (s.busRead a).2.held = s.held := by
  unfold State.busRead
  split <;> rfl

@[simp] theorem busRead_timerArmed (s : State) (a : Word) : (s.busRead a).2.timerArmed = s.timerArmed := by
  unfold State.busRead
  split <;> rfl

@[simp] theorem busWrite_regs (s : State) (a v : Word) : (s.busWrite a v).regs = s.regs := by
  unfold State.busWrite
  split <;> rfl

@[simp] theorem busWrite_pc (s : State) (a v : Word) : (s.busWrite a v).pc = s.pc := by
  unfold State.busWrite
  split <;> rfl

@[simp] theorem busWrite_jp (s : State) (a v : Word) : (s.busWrite a v).jp = s.jp := by
  unfold State.busWrite
  split <;> rfl

@[simp] theorem busWrite_jt (s : State) (a v : Word) : (s.busWrite a v).jt = s.jt := by
  unfold State.busWrite
  split <;> rfl

@[simp] theorem busWrite_flags (s : State) (a v : Word) : (s.busWrite a v).flags = s.flags := by
  unfold State.busWrite
  split <;> rfl

@[simp] theorem busWrite_ipend (s : State) (a v : Word) : (s.busWrite a v).ipend = s.ipend := by
  unfold State.busWrite
  split <;> rfl

@[simp] theorem busWrite_se (s : State) (a v : Word) : (s.busWrite a v).se = s.se := by
  unfold State.busWrite
  split <;> rfl

@[simp] theorem busWrite_ra (s : State) (a v : Word) : (s.busWrite a v).ra = s.ra := by
  unfold State.busWrite
  split <;> rfl

@[simp] theorem busWrite_rescan (s : State) (a v : Word) : (s.busWrite a v).rescan = s.rescan := by
  unfold State.busWrite
  split <;> rfl

@[simp] theorem busWrite_run (s : State) (a v : Word) : (s.busWrite a v).run = s.run := by
  unfold State.busWrite
  split <;> rfl

@[simp] theorem busWrite_pmem (s : State) (a v : Word) : (s.busWrite a v).pmem = s.pmem := by
  unfold State.busWrite
  split <;> rfl

@[simp] theorem busWrite_dmemInit (s : State) (a v : Word) : (s.busWrite a v).dmemInit = s.dmemInit := by
  unfold State.busWrite
  split <;> rfl

@[simp] theorem busWrite_raises (s : State) (a v : Word) : (s.busWrite a v).raises = s.raises := by
  unfold State.busWrite
  split <;> rfl

@[simp] theorem busWrite_held (s : State) (a v : Word) : (s.busWrite a v).held = s.held := by
  unfold State.busWrite
  split <;> rfl

/-! ## The requests of a boundary (R30, R115) -/

theorem arriving_timer_unarmed (rest : List Source) : arriving 0 (15 :: rest) = arriving 0 rest := by
  simp [arriving]

theorem arriving_timer_armed (n : Nat) (rest : List Source) :
    arriving (n + 1) (15 :: rest) = (15 :: (arriving n rest).1, (arriving n rest).2) := by
  simp [arriving]

theorem arriving_other {k : Source} (hk : k ≠ 15) (armed : Nat) (rest : List Source) :
    arriving armed (k :: rest) = (k :: (arriving armed rest).1, (arriving armed rest).2) := by
  simp [arriving, hk]

/-- Without an arming no request of source 15 arrives, and every other does. -/
theorem arriving_unarmed (now : List Source) : arriving 0 now = (now.filter (· ≠ 15), 0) := by
  induction now with
  | nil => rfl
  | cons k rest ih =>
    by_cases hk : k = 15
    · subst hk
      rw [arriving_timer_unarmed, ih]
      simp
    · rw [arriving_other hk, ih]
      simp [hk]

/-- No more requests of source 15 than armings: all arrive, and each uses one arming up. -/
theorem arriving_of_count_le {armed : Nat} {now : List Source} (h : now.count 15 ≤ armed) :
    arriving armed now = (now, armed - now.count 15) := by
  induction now generalizing armed with
  | nil => rfl
  | cons k rest ih =>
    by_cases hk : k = 15
    · subst hk
      rw [List.count_cons_self] at h ⊢
      obtain ⟨n, rfl⟩ : ∃ n, armed = n + 1 := ⟨armed - 1, by omega⟩
      rw [arriving_timer_armed, ih (by omega), Nat.add_sub_add_right]
    · rw [List.count_cons_of_ne hk] at h ⊢
      rw [arriving_other hk, ih h]

/-- What arrives, said once: some of the scheduled requests, in their order; every source but 15 as often as
scheduled, source 15 at most once for each arming; and the armings left. -/
theorem arriving_spec (armed : Nat) (now : List Source) :
    (arriving armed now).1.Sublist now ∧
    (∀ k : Source, k ≠ 15 → (arriving armed now).1.count k = now.count k) ∧
    (arriving armed now).1.count 15 = min armed (now.count 15) ∧
    (arriving armed now).2 = armed - now.count 15 := by
  induction now generalizing armed with
  | nil => simp [arriving]
  | cons k rest ih =>
    by_cases hk : k = 15
    · subst hk
      rw [List.count_cons_self]
      cases armed with
      | zero =>
        obtain ⟨h1, h2, h3, h4⟩ := ih 0
        rw [arriving_timer_unarmed]
        exact ⟨h1.cons _, fun j hj => by rw [h2 j hj, List.count_cons_of_ne hj.symm], by omega, by omega⟩
      | succ n =>
        obtain ⟨h1, h2, h3, h4⟩ := ih n
        rw [arriving_timer_armed]
        refine ⟨h1.cons_cons _, fun j hj => ?_, ?_, ?_⟩
        · rw [List.count_cons_of_ne hj.symm, List.count_cons_of_ne hj.symm, h2 j hj]
        · rw [List.count_cons_self]
          omega
        · simp only
          omega
    · obtain ⟨h1, h2, h3, h4⟩ := ih armed
      rw [arriving_other hk]
      refine ⟨h1.cons_cons _, fun j hj => ?_, ?_, by rw [List.count_cons_of_ne hk, h4]⟩
      · simp only [List.count_cons, h2 j hj]
      · rw [List.count_cons_of_ne hk, List.count_cons_of_ne hk, h3]

/-- The requests of a boundary, said once: with nothing scheduled the state is as it was; else those that arrive join
the held ones, and the schedule moves on. -/
theorem takeRequests_cases (s : State) :
    (s.raises = [] ∧ s.takeRequests = s) ∨
    (∃ now later, s.raises = now :: later ∧
      s.takeRequests = { s with
        held := s.held ++ (arriving s.timerArmed now).1
        timerArmed := (arriving s.timerArmed now).2
        raises := later }) := by
  unfold State.takeRequests
  cases h : s.raises with
  | nil => exact Or.inl ⟨rfl, rfl⟩
  | cons now later => exact Or.inr ⟨now, later, rfl, rfl⟩

/-- With no more requests of source 15 than armings, all scheduled requests join the held ones. -/
theorem takeRequests_of_count_le {s : State} {now : List Source} {later : List (List Source)}
    (hr : s.raises = now :: later) (hc : now.count 15 ≤ s.timerArmed) :
    s.takeRequests =
      { s with held := s.held ++ now, timerArmed := s.timerArmed - now.count 15, raises := later } := by
  simp [State.takeRequests, hr, arriving_of_count_le hc]

@[simp] theorem takeRequests_regs (s : State) : s.takeRequests.regs = s.regs := by
  unfold State.takeRequests
  split <;> rfl

@[simp] theorem takeRequests_pc (s : State) : s.takeRequests.pc = s.pc := by
  unfold State.takeRequests
  split <;> rfl

@[simp] theorem takeRequests_jp (s : State) : s.takeRequests.jp = s.jp := by
  unfold State.takeRequests
  split <;> rfl

@[simp] theorem takeRequests_jt (s : State) : s.takeRequests.jt = s.jt := by
  unfold State.takeRequests
  split <;> rfl

@[simp] theorem takeRequests_flags (s : State) : s.takeRequests.flags = s.flags := by
  unfold State.takeRequests
  split <;> rfl

@[simp] theorem takeRequests_imask (s : State) : s.takeRequests.imask = s.imask := by
  unfold State.takeRequests
  split <;> rfl

@[simp] theorem takeRequests_ipend (s : State) : s.takeRequests.ipend = s.ipend := by
  unfold State.takeRequests
  split <;> rfl

@[simp] theorem takeRequests_se (s : State) : s.takeRequests.se = s.se := by
  unfold State.takeRequests
  split <;> rfl

@[simp] theorem takeRequests_ra (s : State) : s.takeRequests.ra = s.ra := by
  unfold State.takeRequests
  split <;> rfl

@[simp] theorem takeRequests_rescan (s : State) : s.takeRequests.rescan = s.rescan := by
  unfold State.takeRequests
  split <;> rfl

@[simp] theorem takeRequests_run (s : State) : s.takeRequests.run = s.run := by
  unfold State.takeRequests
  split <;> rfl

@[simp] theorem takeRequests_pmem (s : State) : s.takeRequests.pmem = s.pmem := by
  unfold State.takeRequests
  split <;> rfl

@[simp] theorem takeRequests_dmem (s : State) : s.takeRequests.dmem = s.dmem := by
  unfold State.takeRequests
  split <;> rfl

@[simp] theorem takeRequests_dmemInit (s : State) : s.takeRequests.dmemInit = s.dmemInit := by
  unfold State.takeRequests
  split <;> rfl

@[simp] theorem takeRequests_devEvents (s : State) : s.takeRequests.devEvents = s.devEvents := by
  unfold State.takeRequests
  split <;> rfl

/-! ## The arbiter -/

/-- The lowest source with its bit set, and none only of an empty set (60_exceptions.md R113). -/
theorem lowestSource_some {m : Word} {src : Source} (h : lowestSource m = some src) :
    m.getLsbD src.val = true ∧ ∀ j : Source, j < src → m.getLsbD j.val = false := by
  unfold lowestSource at h
  rw [List.find?_eq_some_iff_append] at h
  obtain ⟨hm, as, bs, hl, hall⟩ := h
  refine ⟨hm, fun j hj => ?_⟩
  have hsorted : (List.finRange 16).Pairwise (· < ·) := List.pairwise_lt_finRange 16
  have hjm : j ∈ List.finRange 16 := List.mem_finRange j
  rw [hl] at hsorted hjm
  rw [List.pairwise_append] at hsorted
  simp only [List.mem_append, List.mem_cons] at hjm
  rcases hjm with hjm | hjm | hjm
  · simpa using hall j hjm
  · exact absurd hj (by simp [hjm])
  · exact absurd hj (lt_asymm ((List.pairwise_cons.mp hsorted.2.1).1 j hjm))

theorem lowestSource_none {m : Word} : lowestSource m = none ↔ m = 0#16 := by
  unfold lowestSource
  rw [List.find?_eq_none]
  constructor
  · intro h
    apply BitVec.eq_of_getLsbD_eq
    intro i hi
    have := h ⟨i, hi⟩ (List.mem_finRange _)
    simpa using this
  · intro h src _
    simp [h]

/-- A raise is serviced or pends (60_exceptions.md R112). -/
theorem raise_cases (s : State) (src : Source) :
    (s.flags.e = true ∧ (src = 15 ∨ s.unmasked src = true) ∧ s.raise src = s.service (hwVector src)) ∨
    ((s.flags.e = false ∨ (src ≠ 15 ∧ s.unmasked src = false)) ∧
      s.raise src = { s with ipend := s.ipend ||| BitVec.twoPow 16 src.val }) := by
  unfold State.raise
  by_cases he : s.flags.e = true
  · by_cases hs : src = 15 ∨ s.unmasked src = true
    · left
      refine ⟨he, hs, ?_⟩
      rw [if_pos]
      rcases hs with hs | hs <;> simp [he, hs]
    · right
      rw [not_or] at hs
      have h2 : s.unmasked src = false := by simpa using hs.2
      refine ⟨Or.inr ⟨hs.1, h2⟩, ?_⟩
      rw [if_neg]
      simp [hs.1, h2]
  · right
    have h2 : s.flags.e = false := by simpa using he
    exact ⟨Or.inl h2, by simp [h2]⟩

/-- With E = 0 every raise pends, and E stays 0 (R112). -/
theorem raise_disabled {s : State} (src : Source) (h : s.flags.e = false) :
    s.raise src = { s with ipend := s.ipend ||| BitVec.twoPow 16 src.val } := by
  simp [State.raise, h]

/-- Setting a pending bit sets that bit only. -/
theorem pending_set (ip : Word) (k j : Source) :
    (ip ||| BitVec.twoPow 16 k.val).getLsbD j.val = (ip.getLsbD j.val || decide (j = k)) := by
  have hj := j.isLt
  have hk := k.isLt
  have h : (j = k) ↔ (k.val = j.val) := ⟨fun h => by rw [h], fun h => Fin.ext h.symm⟩
  rw [BitVec.getLsbD_or, BitVec.getLsbD_twoPow]
  simp [hk, h]

/-- Clearing a pending bit clears that bit only. -/
theorem pending_clear (ip : Word) (k j : Source) :
    (ip &&& ~~~(BitVec.twoPow 16 k.val)).getLsbD j.val = (ip.getLsbD j.val && decide (j ≠ k)) := by
  have hj := j.isLt
  have hk := k.isLt
  have h : (j = k) ↔ (k.val = j.val) := ⟨fun h => by rw [h], fun h => Fin.ext h.symm⟩
  rw [BitVec.getLsbD_and, BitVec.getLsbD_not, BitVec.getLsbD_twoPow]
  simp [hk, hj, h]

/-- Raises none of which qualifies all pend, and nothing else happens (R112). -/
theorem foldl_raise_pend {l : List Source} {s : State}
    (h : ∀ x ∈ l, ¬ (s.flags.e = true ∧ (x = 15 ∨ s.unmasked x = true))) :
    ∃ ip, l.foldl State.raise s = { s with ipend := ip } ∧
      ∀ j : Source, ip.getLsbD j.val = (s.ipend.getLsbD j.val || decide (j ∈ l)) := by
  induction l generalizing s with
  | nil => exact ⟨s.ipend, rfl, by simp⟩
  | cons x rest ih =>
    have hx : s.raise x = { s with ipend := s.ipend ||| BitVec.twoPow 16 x.val } := by
      rcases raise_cases s x with ⟨he, hm, -⟩ | ⟨-, e⟩
      · exact absurd ⟨he, hm⟩ (h x (by simp))
      · exact e
    obtain ⟨ip, h1, h2⟩ := ih (s := { s with ipend := s.ipend ||| BitVec.twoPow 16 x.val })
      fun y hy => h y (by simp [hy])
    refine ⟨ip, by rw [List.foldl_cons, hx, h1], fun j => ?_⟩
    rw [h2 j, pending_set]
    by_cases hj : j = x <;> simp [hj]

/-- A re-scan services the lowest pending unmasked source or none (R113). -/
theorem runRescan_cases (s : State) :
    (s.ipend &&& s.imask = 0#16 ∧ s.runRescan = { s with rescan := false }) ∨
    (∃ src : Source, (s.ipend &&& s.imask).getLsbD src.val = true ∧
      (∀ j : Source, j < src → (s.ipend &&& s.imask).getLsbD j.val = false) ∧
      s.runRescan = State.service { s with rescan := false, ipend := s.ipend &&& ~~~(BitVec.twoPow 16 src.val) }
        (hwVector src)) := by
  unfold State.runRescan
  cases h : lowestSource (s.ipend &&& s.imask) with
  | none => exact Or.inl ⟨lowestSource_none.mp h, rfl⟩
  | some src => exact Or.inr ⟨src, (lowestSource_some h).1, (lowestSource_some h).2, rfl⟩

/-! The arbiter changes E, SE, RA, PC, IPEND, RESCAN and the requests, and nothing else. -/

@[simp] theorem raise_regs (s : State) (src : Source) : (s.raise src).regs = s.regs := by
  unfold State.raise
  split <;> rfl

@[simp] theorem foldl_raise_regs (l : List Source) (s : State) : (l.foldl State.raise s).regs = s.regs := by
  induction l generalizing s with
  | nil => rfl
  | cons x rest ih => simp [ih]

@[simp] theorem runRescan_regs (s : State) : s.runRescan.regs = s.regs := by
  unfold State.runRescan
  split <;> rfl

@[simp] theorem deliverRaises_regs (s : State) : s.deliverRaises.regs = s.regs := by
  simp [State.deliverRaises]

@[simp] theorem boundary_regs (s : State) (b : Bool) : (s.boundary b).regs = s.regs := by
  simp only [State.boundary]
  split
  · simp
  · split <;> simp

@[simp] theorem raise_jp (s : State) (src : Source) : (s.raise src).jp = s.jp := by
  unfold State.raise
  split <;> rfl

@[simp] theorem foldl_raise_jp (l : List Source) (s : State) : (l.foldl State.raise s).jp = s.jp := by
  induction l generalizing s with
  | nil => rfl
  | cons x rest ih => simp [ih]

@[simp] theorem runRescan_jp (s : State) : s.runRescan.jp = s.jp := by
  unfold State.runRescan
  split <;> rfl

@[simp] theorem deliverRaises_jp (s : State) : s.deliverRaises.jp = s.jp := by
  simp [State.deliverRaises]

@[simp] theorem boundary_jp (s : State) (b : Bool) : (s.boundary b).jp = s.jp := by
  simp only [State.boundary]
  split
  · simp
  · split <;> simp

@[simp] theorem raise_jt (s : State) (src : Source) : (s.raise src).jt = s.jt := by
  unfold State.raise
  split <;> rfl

@[simp] theorem foldl_raise_jt (l : List Source) (s : State) : (l.foldl State.raise s).jt = s.jt := by
  induction l generalizing s with
  | nil => rfl
  | cons x rest ih => simp [ih]

@[simp] theorem runRescan_jt (s : State) : s.runRescan.jt = s.jt := by
  unfold State.runRescan
  split <;> rfl

@[simp] theorem deliverRaises_jt (s : State) : s.deliverRaises.jt = s.jt := by
  simp [State.deliverRaises]

@[simp] theorem boundary_jt (s : State) (b : Bool) : (s.boundary b).jt = s.jt := by
  simp only [State.boundary]
  split
  · simp
  · split <;> simp

@[simp] theorem raise_imask (s : State) (src : Source) : (s.raise src).imask = s.imask := by
  unfold State.raise
  split <;> rfl

@[simp] theorem foldl_raise_imask (l : List Source) (s : State) : (l.foldl State.raise s).imask = s.imask := by
  induction l generalizing s with
  | nil => rfl
  | cons x rest ih => simp [ih]

@[simp] theorem runRescan_imask (s : State) : s.runRescan.imask = s.imask := by
  unfold State.runRescan
  split <;> rfl

@[simp] theorem deliverRaises_imask (s : State) : s.deliverRaises.imask = s.imask := by
  simp [State.deliverRaises]

@[simp] theorem boundary_imask (s : State) (b : Bool) : (s.boundary b).imask = s.imask := by
  simp only [State.boundary]
  split
  · simp
  · split <;> simp

@[simp] theorem raise_run (s : State) (src : Source) : (s.raise src).run = s.run := by
  unfold State.raise
  split <;> rfl

@[simp] theorem foldl_raise_run (l : List Source) (s : State) : (l.foldl State.raise s).run = s.run := by
  induction l generalizing s with
  | nil => rfl
  | cons x rest ih => simp [ih]

@[simp] theorem runRescan_run (s : State) : s.runRescan.run = s.run := by
  unfold State.runRescan
  split <;> rfl

@[simp] theorem deliverRaises_run (s : State) : s.deliverRaises.run = s.run := by
  simp [State.deliverRaises]

@[simp] theorem boundary_run (s : State) (b : Bool) : (s.boundary b).run = s.run := by
  simp only [State.boundary]
  split
  · simp
  · split <;> simp

@[simp] theorem raise_pmem (s : State) (src : Source) : (s.raise src).pmem = s.pmem := by
  unfold State.raise
  split <;> rfl

@[simp] theorem foldl_raise_pmem (l : List Source) (s : State) : (l.foldl State.raise s).pmem = s.pmem := by
  induction l generalizing s with
  | nil => rfl
  | cons x rest ih => simp [ih]

@[simp] theorem runRescan_pmem (s : State) : s.runRescan.pmem = s.pmem := by
  unfold State.runRescan
  split <;> rfl

@[simp] theorem deliverRaises_pmem (s : State) : s.deliverRaises.pmem = s.pmem := by
  simp [State.deliverRaises]

@[simp] theorem boundary_pmem (s : State) (b : Bool) : (s.boundary b).pmem = s.pmem := by
  simp only [State.boundary]
  split
  · simp
  · split <;> simp

@[simp] theorem raise_dmem (s : State) (src : Source) : (s.raise src).dmem = s.dmem := by
  unfold State.raise
  split <;> rfl

@[simp] theorem foldl_raise_dmem (l : List Source) (s : State) : (l.foldl State.raise s).dmem = s.dmem := by
  induction l generalizing s with
  | nil => rfl
  | cons x rest ih => simp [ih]

@[simp] theorem runRescan_dmem (s : State) : s.runRescan.dmem = s.dmem := by
  unfold State.runRescan
  split <;> rfl

@[simp] theorem deliverRaises_dmem (s : State) : s.deliverRaises.dmem = s.dmem := by
  simp [State.deliverRaises]

@[simp] theorem boundary_dmem (s : State) (b : Bool) : (s.boundary b).dmem = s.dmem := by
  simp only [State.boundary]
  split
  · simp
  · split <;> simp

@[simp] theorem raise_dmemInit (s : State) (src : Source) : (s.raise src).dmemInit = s.dmemInit := by
  unfold State.raise
  split <;> rfl

@[simp] theorem foldl_raise_dmemInit (l : List Source) (s : State) : (l.foldl State.raise s).dmemInit = s.dmemInit := by
  induction l generalizing s with
  | nil => rfl
  | cons x rest ih => simp [ih]

@[simp] theorem runRescan_dmemInit (s : State) : s.runRescan.dmemInit = s.dmemInit := by
  unfold State.runRescan
  split <;> rfl

@[simp] theorem deliverRaises_dmemInit (s : State) : s.deliverRaises.dmemInit = s.dmemInit := by
  simp [State.deliverRaises]

@[simp] theorem boundary_dmemInit (s : State) (b : Bool) : (s.boundary b).dmemInit = s.dmemInit := by
  simp only [State.boundary]
  split
  · simp
  · split <;> simp

@[simp] theorem raise_devEvents (s : State) (src : Source) : (s.raise src).devEvents = s.devEvents := by
  unfold State.raise
  split <;> rfl

@[simp] theorem foldl_raise_devEvents (l : List Source) (s : State) : (l.foldl State.raise s).devEvents = s.devEvents := by
  induction l generalizing s with
  | nil => rfl
  | cons x rest ih => simp [ih]

@[simp] theorem runRescan_devEvents (s : State) : s.runRescan.devEvents = s.devEvents := by
  unfold State.runRescan
  split <;> rfl

@[simp] theorem deliverRaises_devEvents (s : State) : s.deliverRaises.devEvents = s.devEvents := by
  simp [State.deliverRaises]

@[simp] theorem boundary_devEvents (s : State) (b : Bool) : (s.boundary b).devEvents = s.devEvents := by
  simp only [State.boundary]
  split
  · simp
  · split <;> simp

@[simp] theorem raise_raises (s : State) (src : Source) : (s.raise src).raises = s.raises := by
  unfold State.raise
  split <;> rfl

@[simp] theorem foldl_raise_raises (l : List Source) (s : State) : (l.foldl State.raise s).raises = s.raises := by
  induction l generalizing s with
  | nil => rfl
  | cons x rest ih => simp [ih]

@[simp] theorem runRescan_raises (s : State) : s.runRescan.raises = s.raises := by
  unfold State.runRescan
  split <;> rfl

@[simp] theorem deliverRaises_raises (s : State) : s.deliverRaises.raises = s.raises := by
  simp [State.deliverRaises]

@[simp] theorem boundary_raises (s : State) (b : Bool) : (s.boundary b).raises = s.takeRequests.raises := by
  simp only [State.boundary]
  split
  · rfl
  · split <;> simp

@[simp] theorem raise_held (s : State) (src : Source) : (s.raise src).held = s.held := by
  unfold State.raise
  split <;> rfl

@[simp] theorem foldl_raise_held (l : List Source) (s : State) : (l.foldl State.raise s).held = s.held := by
  induction l generalizing s with
  | nil => rfl
  | cons x rest ih => simp [ih]

@[simp] theorem runRescan_held (s : State) : s.runRescan.held = s.held := by
  unfold State.runRescan
  split <;> rfl

@[simp] theorem deliverRaises_held (s : State) : s.deliverRaises.held = [] := by
  simp [State.deliverRaises]

@[simp] theorem raise_timerArmed (s : State) (src : Source) : (s.raise src).timerArmed = s.timerArmed := by
  unfold State.raise
  split <;> rfl

@[simp] theorem foldl_raise_timerArmed (l : List Source) (s : State) : (l.foldl State.raise s).timerArmed = s.timerArmed := by
  induction l generalizing s with
  | nil => rfl
  | cons x rest ih => simp [ih]

@[simp] theorem runRescan_timerArmed (s : State) : s.runRescan.timerArmed = s.timerArmed := by
  unfold State.runRescan
  split <;> rfl

@[simp] theorem deliverRaises_timerArmed (s : State) : s.deliverRaises.timerArmed = s.timerArmed := by
  simp [State.deliverRaises]

@[simp] theorem boundary_timerArmed (s : State) (b : Bool) : (s.boundary b).timerArmed = s.takeRequests.timerArmed := by
  simp only [State.boundary]
  split
  · rfl
  · split <;> simp

/-- A boundary with a jump pending only takes the requests, and holds them (60_exceptions.md R115). -/
theorem boundary_jump {s : State} (b : Bool) (h : s.jp = true) : s.boundary b = s.takeRequests := by
  simp [State.boundary, h]

/-- A boundary with no jump pending and no re-scan owed only takes and delivers the requests (R115). -/
theorem boundary_deliver {s : State} (b : Bool) (hj : s.jp = false) (hr : s.rescan = false) :
    s.boundary b = s.takeRequests.deliverRaises := by
  simp [State.boundary, hj, hr]

/-- A boundary with no jump pending after a software interrupt leaves an owed re-scan owed (R115). -/
theorem boundary_serviced {s : State} (hj : s.jp = false) : s.boundary true = s.takeRequests.deliverRaises := by
  simp [State.boundary, hj]

/-- A boundary with no jump pending and a re-scan owed makes it, then delivers the requests (R115). -/
theorem boundary_rescan {s : State} (hj : s.jp = false) (hr : s.rescan = true) :
    s.boundary false = s.takeRequests.runRescan.deliverRaises := by
  simp [State.boundary, hj, hr]

/-- The boundary leaves Z, C, N and O, and clears E if it changes it (60_exceptions.md R110). -/
theorem raise_flags (s : State) (src : Source) :
    (s.raise src).flags = s.flags ∨ (s.raise src).flags = { s.flags with e := false } := by
  unfold State.raise
  split
  · exact Or.inr rfl
  · exact Or.inl rfl

theorem foldl_raise_flags (l : List Source) (s : State) :
    (l.foldl State.raise s).flags = s.flags ∨ (l.foldl State.raise s).flags = { s.flags with e := false } := by
  induction l generalizing s with
  | nil => exact Or.inl rfl
  | cons x rest ih =>
    rw [List.foldl_cons]
    rcases ih (s.raise x) with h | h <;> rcases raise_flags s x with hx | hx <;> rw [h, hx] <;> simp

theorem boundary_flags (s : State) (b : Bool) :
    (s.boundary b).flags = s.flags ∨ (s.boundary b).flags = { s.flags with e := false } := by
  have hdeliver : ∀ u : State, u.deliverRaises.flags = u.flags ∨
      u.deliverRaises.flags = { u.flags with e := false } := fun u => foldl_raise_flags _ _
  simp only [State.boundary]
  split
  · exact Or.inl (by simp)
  · split
    · rcases hdeliver s.takeRequests.runRescan with h | h <;>
        rcases runRescan_cases s.takeRequests with ⟨-, h2⟩ | ⟨src, -, -, h2⟩ <;> rw [h, h2] <;> simp
    · simpa using hdeliver s.takeRequests

end Sys2Proof.Machine
end

