-- ==== Sys2Proof/Laws/Exec.lean ====
section
/-! SUPPORT. What an instruction can do, said once: the shape of every next state that exec answers. -/

namespace Sys2Proof.Machine

/-- What no instruction's own effect touches before the program counter advances. -/
structure Kept (s u : State) : Prop where
  pc : u.pc = s.pc
  jp : u.jp = s.jp
  jt : u.jt = s.jt
  ipend : u.ipend = s.ipend
  se : u.se = s.se
  ra : u.ra = s.ra
  run : u.run = s.run
  pmem : u.pmem = s.pmem
  dmemInit : u.dmemInit = s.dmemInit
  raises : u.raises = s.raises
  held : u.held = s.held
  dmemWf : s.dmem.wf = true → u.dmem.wf = true
  r0 : s.regs[0] = 0#16 → u.regs[0] = 0#16

/-- A register write leaves the entry of R0 alone (10_state.md R11). -/
theorem writeReg_r0 {s : State} (rd : Reg) (v : Word) (h : s.regs[0] = 0#16) : (s.writeReg rd v).regs[0] = 0#16 := by
  unfold State.writeReg
  by_cases hr : rd = 0
  · simp [hr, h]
  · have hne : (rd : Nat) ≠ 0 := fun h' => hr (Fin.ext h')
    simp [hr, hne, h]

/-- A bus write keeps the data memory canonical (log 9). -/
theorem busWrite_wf {s : State} (a v : Word) (h : s.dmem.wf = true) : (s.busWrite a v).dmem.wf = true := by
  rcases busWrite_cases s a v with ⟨-, e⟩ | ⟨r, -, e⟩ | ⟨-, e⟩ | ⟨d, -, e⟩ <;> rw [e] <;>
    first | exact h | exact wf_writeWord h _ _

theorem Kept.refl (s : State) : Kept s s := ⟨rfl, rfl, rfl, rfl, rfl, rfl, rfl, rfl, rfl, rfl, rfl, id, id⟩

theorem Kept.writeReg {s u : State} (h : Kept s u) (rd : Reg) (v : Word) : Kept s (u.writeReg rd v) :=
  ⟨h.pc, h.jp, h.jt, h.ipend, h.se, h.ra, h.run, h.pmem, h.dmemInit, h.raises, h.held, h.dmemWf,
    fun h0 => writeReg_r0 rd v (h.r0 h0)⟩

theorem Kept.flags (s : State) (f : Flags) (b : Bool) : Kept s { s with flags := f, rescan := b } :=
  ⟨rfl, rfl, rfl, rfl, rfl, rfl, rfl, rfl, rfl, rfl, rfl, id, id⟩

theorem Kept.applyAlu (s : State) (rd : Reg) (out : AluOut) : Kept s (s.applyAlu rd out) :=
  (Kept.flags s _ s.rescan).writeReg rd out.result

theorem Kept.busRead (s : State) (a : Word) : Kept s (s.busRead a).2 := by
  constructor <;> simp

theorem Kept.busWrite (s : State) (a v : Word) : Kept s (s.busWrite a v) := by
  constructor <;> first | exact busWrite_wf a v | simp

/-! The eleven conditions of one operation at once. -/

theorem exec_brOf (cond : Cond) (disp : Byte) (s : State) : exec (brOf cond disp) s = branchOn cond disp s := by
  cases cond <;> rfl

theorem exec_jmpOf (cond : Cond) (rs : Reg) (s : State) : exec (jmpOf cond rs) s = jumpOn cond rs s := by
  cases cond <;> rfl

theorem exec_jalOf (cond : Cond) (rs : Reg) (s : State) : exec (jalOf cond rs) s = jumpLinkOn cond rs s := by
  cases cond <;> rfl

theorem jumpLinkOn_cases {cond : Cond} {rs : Reg} {s t : State} (h : jumpLinkOn cond rs s = .next t) :
    (s.flags.holds cond = true ∧
      t = (s.writeReg Config.jalLinkReg (linkValue s.pc)).advance (some (jumpTarget (s.readReg rs)))) ∨
    (s.flags.holds cond = false ∧ t = s.advance none) := by
  unfold jumpLinkOn at h
  cases hc : s.flags.holds cond <;> simp only [hc, if_true] at h <;> cases h
  · exact Or.inr ⟨rfl, rfl⟩
  · exact Or.inl ⟨rfl, rfl⟩

/-- Every next state of an instruction is its own effect followed by the program counter's advance, or the service
of a software interrupt (40_control.md R62). -/
theorem exec_shape {i : Instr} {s t : State} (h : exec i s = .next t) :
    (∃ u take, t = u.advance take ∧ Kept s u ∧ (i ≠ .eni → i ≠ .rti → u.rescan = s.rescan) ∧
      (s.rescan = true → u.rescan = true) ∧ isSoftwareInterrupt i = false) ∨
    ∃ n, i = .int n ∧ t = (s.advance none).service (swVector n) := by
  cases i <;> first
    | (rcases jumpLinkOn_cases (show jumpLinkOn _ _ s = .next t from h) with ⟨-, rfl⟩ | ⟨-, rfl⟩
       · exact Or.inl ⟨_, _, rfl, (Kept.refl s).writeReg _ _, by simp, by simp, rfl⟩
       · exact Or.inl ⟨_, _, rfl, Kept.refl s, by simp, by simp, rfl⟩)
    | cases (show Host.Outcome.next _ = Host.Outcome.next t from h)
      first
        | exact Or.inr ⟨_, rfl, rfl⟩
        | exact Or.inl ⟨_, _, rfl, Kept.applyAlu s _ _, by simp, by simp, rfl⟩
        | exact Or.inl ⟨_, _, rfl, (Kept.refl s).writeReg _ _, by simp, by simp, rfl⟩
        | exact Or.inl ⟨_, _, rfl, (Kept.busRead s _).writeReg _ _, by simp, by simp, rfl⟩
        | exact Or.inl ⟨_, _, rfl, Kept.busWrite s _ _, by simp, by simp, rfl⟩
        | exact Or.inl ⟨_, _, rfl, Kept.refl s, by simp, by simp, rfl⟩
        | exact Or.inl ⟨_, _, rfl, Kept.flags s _ _, by simp [State.setCarry], by simp [State.setCarry], rfl⟩

end Sys2Proof.Machine
end

