-- ==== Sys2Proof/Laws/PerInstr.lean ====
section
/-! SUPPORT. Statements made once per instruction: the encoding of an instruction carries the fixed bits of its row
of the opcode map (30_encoding.md R50). -/

namespace Sys2Proof.Laws

/-- The encoder's word, whatever the operands, has the fixed bits of the instruction's row, and the row stands in
the opcode map. -/
def EncodingRow.Statement (i : Instr) : Prop :=
  Machine.rowOf i ∈ opcodeRows ∧ (Machine.rowOf i).covers (encode i) = true

theorem encodeBr_masked (cond : Cond) (disp : Byte) :
    encodeBr cond disp &&& 0xFF00#16 = 1#4 ++ cond.code ++ 0#8 := by
  apply BitVec.eq_of_getLsbD_eq
  intro i hi
  simp only [encodeBr, BitVec.getLsbD_and, BitVec.getLsbD_append]
  interval_cases i <;> simp

theorem encodeJmp_masked (cond : Cond) (rs : Reg) :
    encodeJmp cond rs &&& 0xFF00#16 = 2#4 ++ cond.code ++ 0#8 := by
  apply BitVec.eq_of_getLsbD_eq
  intro i hi
  simp only [encodeJmp, BitVec.getLsbD_and, BitVec.getLsbD_append]
  interval_cases i <;> simp

theorem encodeJal_masked (cond : Cond) (rs : Reg) :
    encodeJal cond rs &&& 0xFF00#16 = 3#4 ++ cond.code ++ 0#8 := by
  apply BitVec.eq_of_getLsbD_eq
  intro i hi
  simp only [encodeJal, BitVec.getLsbD_and, BitVec.getLsbD_append]
  interval_cases i <;> simp

theorem encodeTransfer_masked (rd : Reg) (sub : BitVec 3) (ra rb : Reg) :
    encodeTransfer rd sub ra rb &&& 0xC700#16 = 1#2 ++ 0#3 ++ sub ++ 0#8 := by
  apply BitVec.eq_of_getLsbD_eq
  intro i hi
  simp only [encodeTransfer, BitVec.getLsbD_and, BitVec.getLsbD_append]
  interval_cases i <;> simp

theorem encodeAlu_masked (rd : Reg) (unit : BitVec 2) (op : BitVec 3) (ra rb : Reg) :
    encodeAlu rd unit op ra rb &&& 0xC7C0#16 = 2#2 ++ 0#3 ++ unit ++ op ++ 0#6 := by
  apply BitVec.eq_of_getLsbD_eq
  intro i hi
  simp only [encodeAlu, BitVec.getLsbD_and, BitVec.getLsbD_append]
  interval_cases i <;> simp

theorem encodeImmediate_masked (rd : Reg) (sub : BitVec 3) (imm8 : Byte) :
    encodeImmediate rd sub imm8 &&& 0xC700#16 = 3#2 ++ 0#3 ++ sub ++ 0#8 := by
  apply BitVec.eq_of_getLsbD_eq
  intro i hi
  simp only [encodeImmediate, BitVec.getLsbD_and, BitVec.getLsbD_append]
  interval_cases i <;> simp

theorem encodeInt_masked (n : Byte) : encode (.int n) &&& 0xC700#16 = 0x4700#16 := by
  apply BitVec.eq_of_getLsbD_eq
  intro i hi
  simp only [encode, BitVec.getLsbD_and, BitVec.getLsbD_append]
  interval_cases i <;> simp

theorem EncodingRow.nop : EncodingRow.Statement (.nop) :=
  ⟨by decide, by decide⟩

theorem EncodingRow.br (disp : Byte) : EncodingRow.Statement (.br disp) :=
  ⟨List.mem_of_getElem? (i := 1) rfl, decide_eq_true (encodeBr_masked _ _)⟩

theorem EncodingRow.brZ (disp : Byte) : EncodingRow.Statement (.brZ disp) :=
  ⟨List.mem_of_getElem? (i := 2) rfl, decide_eq_true (encodeBr_masked _ _)⟩

theorem EncodingRow.brNz (disp : Byte) : EncodingRow.Statement (.brNz disp) :=
  ⟨List.mem_of_getElem? (i := 3) rfl, decide_eq_true (encodeBr_masked _ _)⟩

theorem EncodingRow.brC (disp : Byte) : EncodingRow.Statement (.brC disp) :=
  ⟨List.mem_of_getElem? (i := 4) rfl, decide_eq_true (encodeBr_masked _ _)⟩

theorem EncodingRow.brNc (disp : Byte) : EncodingRow.Statement (.brNc disp) :=
  ⟨List.mem_of_getElem? (i := 5) rfl, decide_eq_true (encodeBr_masked _ _)⟩

theorem EncodingRow.brN (disp : Byte) : EncodingRow.Statement (.brN disp) :=
  ⟨List.mem_of_getElem? (i := 6) rfl, decide_eq_true (encodeBr_masked _ _)⟩

theorem EncodingRow.brNn (disp : Byte) : EncodingRow.Statement (.brNn disp) :=
  ⟨List.mem_of_getElem? (i := 7) rfl, decide_eq_true (encodeBr_masked _ _)⟩

theorem EncodingRow.brO (disp : Byte) : EncodingRow.Statement (.brO disp) :=
  ⟨List.mem_of_getElem? (i := 8) rfl, decide_eq_true (encodeBr_masked _ _)⟩

theorem EncodingRow.brNo (disp : Byte) : EncodingRow.Statement (.brNo disp) :=
  ⟨List.mem_of_getElem? (i := 9) rfl, decide_eq_true (encodeBr_masked _ _)⟩

theorem EncodingRow.brP (disp : Byte) : EncodingRow.Statement (.brP disp) :=
  ⟨List.mem_of_getElem? (i := 10) rfl, decide_eq_true (encodeBr_masked _ _)⟩

theorem EncodingRow.brNp (disp : Byte) : EncodingRow.Statement (.brNp disp) :=
  ⟨List.mem_of_getElem? (i := 11) rfl, decide_eq_true (encodeBr_masked _ _)⟩

theorem EncodingRow.jmp (rs : Reg) : EncodingRow.Statement (.jmp rs) :=
  ⟨List.mem_of_getElem? (i := 12) rfl, decide_eq_true (encodeJmp_masked _ _)⟩

theorem EncodingRow.jmpZ (rs : Reg) : EncodingRow.Statement (.jmpZ rs) :=
  ⟨List.mem_of_getElem? (i := 13) rfl, decide_eq_true (encodeJmp_masked _ _)⟩

theorem EncodingRow.jmpNz (rs : Reg) : EncodingRow.Statement (.jmpNz rs) :=
  ⟨List.mem_of_getElem? (i := 14) rfl, decide_eq_true (encodeJmp_masked _ _)⟩

theorem EncodingRow.jmpC (rs : Reg) : EncodingRow.Statement (.jmpC rs) :=
  ⟨List.mem_of_getElem? (i := 15) rfl, decide_eq_true (encodeJmp_masked _ _)⟩

theorem EncodingRow.jmpNc (rs : Reg) : EncodingRow.Statement (.jmpNc rs) :=
  ⟨List.mem_of_getElem? (i := 16) rfl, decide_eq_true (encodeJmp_masked _ _)⟩

theorem EncodingRow.jmpN (rs : Reg) : EncodingRow.Statement (.jmpN rs) :=
  ⟨List.mem_of_getElem? (i := 17) rfl, decide_eq_true (encodeJmp_masked _ _)⟩

theorem EncodingRow.jmpNn (rs : Reg) : EncodingRow.Statement (.jmpNn rs) :=
  ⟨List.mem_of_getElem? (i := 18) rfl, decide_eq_true (encodeJmp_masked _ _)⟩

theorem EncodingRow.jmpO (rs : Reg) : EncodingRow.Statement (.jmpO rs) :=
  ⟨List.mem_of_getElem? (i := 19) rfl, decide_eq_true (encodeJmp_masked _ _)⟩

theorem EncodingRow.jmpNo (rs : Reg) : EncodingRow.Statement (.jmpNo rs) :=
  ⟨List.mem_of_getElem? (i := 20) rfl, decide_eq_true (encodeJmp_masked _ _)⟩

theorem EncodingRow.jmpP (rs : Reg) : EncodingRow.Statement (.jmpP rs) :=
  ⟨List.mem_of_getElem? (i := 21) rfl, decide_eq_true (encodeJmp_masked _ _)⟩

theorem EncodingRow.jmpNp (rs : Reg) : EncodingRow.Statement (.jmpNp rs) :=
  ⟨List.mem_of_getElem? (i := 22) rfl, decide_eq_true (encodeJmp_masked _ _)⟩

theorem EncodingRow.jal (rs : Reg) : EncodingRow.Statement (.jal rs) :=
  ⟨List.mem_of_getElem? (i := 23) rfl, decide_eq_true (encodeJal_masked _ _)⟩

theorem EncodingRow.jalZ (rs : Reg) : EncodingRow.Statement (.jalZ rs) :=
  ⟨List.mem_of_getElem? (i := 24) rfl, decide_eq_true (encodeJal_masked _ _)⟩

theorem EncodingRow.jalNz (rs : Reg) : EncodingRow.Statement (.jalNz rs) :=
  ⟨List.mem_of_getElem? (i := 25) rfl, decide_eq_true (encodeJal_masked _ _)⟩

theorem EncodingRow.jalC (rs : Reg) : EncodingRow.Statement (.jalC rs) :=
  ⟨List.mem_of_getElem? (i := 26) rfl, decide_eq_true (encodeJal_masked _ _)⟩

theorem EncodingRow.jalNc (rs : Reg) : EncodingRow.Statement (.jalNc rs) :=
  ⟨List.mem_of_getElem? (i := 27) rfl, decide_eq_true (encodeJal_masked _ _)⟩

theorem EncodingRow.jalN (rs : Reg) : EncodingRow.Statement (.jalN rs) :=
  ⟨List.mem_of_getElem? (i := 28) rfl, decide_eq_true (encodeJal_masked _ _)⟩

theorem EncodingRow.jalNn (rs : Reg) : EncodingRow.Statement (.jalNn rs) :=
  ⟨List.mem_of_getElem? (i := 29) rfl, decide_eq_true (encodeJal_masked _ _)⟩

theorem EncodingRow.jalO (rs : Reg) : EncodingRow.Statement (.jalO rs) :=
  ⟨List.mem_of_getElem? (i := 30) rfl, decide_eq_true (encodeJal_masked _ _)⟩

theorem EncodingRow.jalNo (rs : Reg) : EncodingRow.Statement (.jalNo rs) :=
  ⟨List.mem_of_getElem? (i := 31) rfl, decide_eq_true (encodeJal_masked _ _)⟩

theorem EncodingRow.jalP (rs : Reg) : EncodingRow.Statement (.jalP rs) :=
  ⟨List.mem_of_getElem? (i := 32) rfl, decide_eq_true (encodeJal_masked _ _)⟩

theorem EncodingRow.jalNp (rs : Reg) : EncodingRow.Statement (.jalNp rs) :=
  ⟨List.mem_of_getElem? (i := 33) rfl, decide_eq_true (encodeJal_masked _ _)⟩

theorem EncodingRow.mov (rd ra : Reg) : EncodingRow.Statement (.mov rd ra) :=
  ⟨List.mem_of_getElem? (i := 34) rfl, decide_eq_true (encodeTransfer_masked _ _ _ _)⟩

theorem EncodingRow.load (rd ra : Reg) : EncodingRow.Statement (.load rd ra) :=
  ⟨List.mem_of_getElem? (i := 35) rfl, decide_eq_true (encodeTransfer_masked _ _ _ _)⟩

theorem EncodingRow.stor (ra rb : Reg) : EncodingRow.Statement (.stor ra rb) :=
  ⟨List.mem_of_getElem? (i := 36) rfl, decide_eq_true (encodeTransfer_masked _ _ _ _)⟩

theorem EncodingRow.eni : EncodingRow.Statement (.eni) :=
  ⟨List.mem_of_getElem? (i := 37) rfl, decide_eq_true (encodeTransfer_masked _ _ _ _)⟩

theorem EncodingRow.dsi : EncodingRow.Statement (.dsi) :=
  ⟨List.mem_of_getElem? (i := 38) rfl, decide_eq_true (encodeTransfer_masked _ _ _ _)⟩

theorem EncodingRow.rti : EncodingRow.Statement (.rti) :=
  ⟨List.mem_of_getElem? (i := 39) rfl, decide_eq_true (encodeTransfer_masked _ _ _ _)⟩

theorem EncodingRow.int (n : Byte) : EncodingRow.Statement (.int n) :=
  ⟨List.mem_of_getElem? (i := 40) rfl, decide_eq_true (encodeInt_masked n)⟩

theorem EncodingRow.add (rd ra rb : Reg) : EncodingRow.Statement (.add rd ra rb) :=
  ⟨List.mem_of_getElem? (i := 41) rfl, decide_eq_true (encodeAlu_masked _ _ _ _ _)⟩

theorem EncodingRow.sub (rd ra rb : Reg) : EncodingRow.Statement (.sub rd ra rb) :=
  ⟨List.mem_of_getElem? (i := 42) rfl, decide_eq_true (encodeAlu_masked _ _ _ _ _)⟩

theorem EncodingRow.addc (rd ra rb : Reg) : EncodingRow.Statement (.addc rd ra rb) :=
  ⟨List.mem_of_getElem? (i := 43) rfl, decide_eq_true (encodeAlu_masked _ _ _ _ _)⟩

theorem EncodingRow.subb (rd ra rb : Reg) : EncodingRow.Statement (.subb rd ra rb) :=
  ⟨List.mem_of_getElem? (i := 44) rfl, decide_eq_true (encodeAlu_masked _ _ _ _ _)⟩

theorem EncodingRow.dec (rd ra : Reg) : EncodingRow.Statement (.dec rd ra) :=
  ⟨List.mem_of_getElem? (i := 45) rfl, decide_eq_true (encodeAlu_masked _ _ _ _ _)⟩

theorem EncodingRow.inc (rd ra : Reg) : EncodingRow.Statement (.inc rd ra) :=
  ⟨List.mem_of_getElem? (i := 46) rfl, decide_eq_true (encodeAlu_masked _ _ _ _ _)⟩

theorem EncodingRow.com (rd ra : Reg) : EncodingRow.Statement (.com rd ra) :=
  ⟨List.mem_of_getElem? (i := 47) rfl, decide_eq_true (encodeAlu_masked _ _ _ _ _)⟩

theorem EncodingRow.and (rd ra rb : Reg) : EncodingRow.Statement (.and rd ra rb) :=
  ⟨List.mem_of_getElem? (i := 48) rfl, decide_eq_true (encodeAlu_masked _ _ _ _ _)⟩

theorem EncodingRow.or (rd ra rb : Reg) : EncodingRow.Statement (.or rd ra rb) :=
  ⟨List.mem_of_getElem? (i := 49) rfl, decide_eq_true (encodeAlu_masked _ _ _ _ _)⟩

theorem EncodingRow.xor (rd ra rb : Reg) : EncodingRow.Statement (.xor rd ra rb) :=
  ⟨List.mem_of_getElem? (i := 50) rfl, decide_eq_true (encodeAlu_masked _ _ _ _ _)⟩

theorem EncodingRow.shr (rd ra : Reg) : EncodingRow.Statement (.shr rd ra) :=
  ⟨List.mem_of_getElem? (i := 51) rfl, decide_eq_true (encodeAlu_masked _ _ _ _ _)⟩

theorem EncodingRow.shl (rd ra : Reg) : EncodingRow.Statement (.shl rd ra) :=
  ⟨List.mem_of_getElem? (i := 52) rfl, decide_eq_true (encodeAlu_masked _ _ _ _ _)⟩

theorem EncodingRow.shra (rd ra : Reg) : EncodingRow.Statement (.shra rd ra) :=
  ⟨List.mem_of_getElem? (i := 53) rfl, decide_eq_true (encodeAlu_masked _ _ _ _ _)⟩

theorem EncodingRow.shla (rd ra : Reg) : EncodingRow.Statement (.shla rd ra) :=
  ⟨List.mem_of_getElem? (i := 54) rfl, decide_eq_true (encodeAlu_masked _ _ _ _ _)⟩

theorem EncodingRow.ror (rd ra : Reg) : EncodingRow.Statement (.ror rd ra) :=
  ⟨List.mem_of_getElem? (i := 55) rfl, decide_eq_true (encodeAlu_masked _ _ _ _ _)⟩

theorem EncodingRow.rol (rd ra : Reg) : EncodingRow.Statement (.rol rd ra) :=
  ⟨List.mem_of_getElem? (i := 56) rfl, decide_eq_true (encodeAlu_masked _ _ _ _ _)⟩

theorem EncodingRow.rorc (rd ra : Reg) : EncodingRow.Statement (.rorc rd ra) :=
  ⟨List.mem_of_getElem? (i := 57) rfl, decide_eq_true (encodeAlu_masked _ _ _ _ _)⟩

theorem EncodingRow.rolc (rd ra : Reg) : EncodingRow.Statement (.rolc rd ra) :=
  ⟨List.mem_of_getElem? (i := 58) rfl, decide_eq_true (encodeAlu_masked _ _ _ _ _)⟩

theorem EncodingRow.mvi (rd : Reg) (imm8 : Byte) : EncodingRow.Statement (.mvi rd imm8) :=
  ⟨List.mem_of_getElem? (i := 59) rfl, decide_eq_true (encodeImmediate_masked _ _ _)⟩

theorem EncodingRow.mvih (rd : Reg) (imm8 : Byte) : EncodingRow.Statement (.mvih rd imm8) :=
  ⟨List.mem_of_getElem? (i := 60) rfl, decide_eq_true (encodeImmediate_masked _ _ _)⟩

theorem EncodingRow.mvil (rd : Reg) (imm8 : Byte) : EncodingRow.Statement (.mvil rd imm8) :=
  ⟨List.mem_of_getElem? (i := 61) rfl, decide_eq_true (encodeImmediate_masked _ _ _)⟩

theorem EncodingRow.clc : EncodingRow.Statement (.clc) :=
  ⟨List.mem_of_getElem? (i := 62) rfl, decide_eq_true (encodeImmediate_masked _ _ _)⟩

theorem EncodingRow.stc : EncodingRow.Statement (.stc) :=
  ⟨List.mem_of_getElem? (i := 63) rfl, decide_eq_true (encodeImmediate_masked _ _ _)⟩

theorem EncodingRow.cmc : EncodingRow.Statement (.cmc) :=
  ⟨List.mem_of_getElem? (i := 64) rfl, decide_eq_true (encodeImmediate_masked _ _ _)⟩

end Sys2Proof.Laws
end

