-- ==== Sys2Proof/Laws/Step.lean ====
section
/-! SUPPORT. What a step can do (40_control.md R62), said once. -/

namespace Sys2Proof.Machine

/-- A stuck core stays as it is (60_exceptions.md R118). -/
theorem step_stuck {s : State} {a : PAddr} {w : Word} (h : s.run = .illegal a w) : step s = .next s := by
  simp [step, h]

/-- A word that does not decode stops the core (R118). -/
theorem step_illegal {s : State} {c : IllegalClass} (hr : s.run = .running) (hd : decode s.fetch = .error c) :
    step s = .next s.stopIllegal := by
  simp [step, hr, hd]

/-- Every next state of a step comes about in one of three ways. -/
theorem step_cases {s t : State} (h : step s = .next t) :
    (s.run ≠ .running ∧ t = s) ∨
    (s.run = .running ∧ (∃ c, decode s.fetch = .error c) ∧ t = s.stopIllegal) ∨
    (s.run = .running ∧ ∃ i u, decode s.fetch = .ok i ∧ exec i s = .next u ∧
      t = u.boundary (isSoftwareInterrupt i)) := by
  unfold step at h
  split at h
  · rename_i hr
    exact Or.inl ⟨by simp [hr], by simpa using h.symm⟩
  · rename_i hr
    split at h
    · rename_i c hc
      exact Or.inr (Or.inl ⟨hr, ⟨c, hc⟩, by simpa using h.symm⟩)
    · rename_i i hi
      split at h
      · rename_i u hu
        exact Or.inr (Or.inr ⟨hr, i, u, hi, hu, by simpa using h.symm⟩)
      · cases h
      · cases h

end Sys2Proof.Machine
end

