-- ==== Sys2Proof/Tests/Slice0.lean ====
section
/-! SUPPORT. The model's own tests. Every expected value is from 30_encoding.md (words) or 95_test_vectors.md
(vectors, named by their number there), not from the model; and a witness for the hypotheses of each statement of
Certificates/Slice0/Obligations.lean that has any. -/

namespace Sys2Proof.Tests

open Sys2Proof.Machine Sys2Proof.Claims

/-! ## Decoding: one word per row of the opcode map, written out bit by bit from its encoding, every ignored bit 1 -/

theorem test_decode_nop : decode 0b0000111111111111#16 = .ok .nop := by decide

theorem test_decode_br : decode 0b0001000110100110#16 = .ok (.br 0b10100110#8) := by decide

theorem test_decode_brZ : decode 0b0001001010100110#16 = .ok (.brZ 0b10100110#8) := by decide

theorem test_decode_brNz : decode 0b0001001110100110#16 = .ok (.brNz 0b10100110#8) := by decide

theorem test_decode_brC : decode 0b0001010010100110#16 = .ok (.brC 0b10100110#8) := by decide

theorem test_decode_brNc : decode 0b0001010110100110#16 = .ok (.brNc 0b10100110#8) := by decide

theorem test_decode_brN : decode 0b0001011010100110#16 = .ok (.brN 0b10100110#8) := by decide

theorem test_decode_brNn : decode 0b0001011110100110#16 = .ok (.brNn 0b10100110#8) := by decide

theorem test_decode_brO : decode 0b0001100010100110#16 = .ok (.brO 0b10100110#8) := by decide

theorem test_decode_brNo : decode 0b0001100110100110#16 = .ok (.brNo 0b10100110#8) := by decide

theorem test_decode_brP : decode 0b0001101010100110#16 = .ok (.brP 0b10100110#8) := by decide

theorem test_decode_brNp : decode 0b0001101110100110#16 = .ok (.brNp 0b10100110#8) := by decide

theorem test_decode_jmp : decode 0b0010000111111110#16 = .ok (.jmp 6) := by decide

theorem test_decode_jmpZ : decode 0b0010001011111110#16 = .ok (.jmpZ 6) := by decide

theorem test_decode_jmpNz : decode 0b0010001111111110#16 = .ok (.jmpNz 6) := by decide

theorem test_decode_jmpC : decode 0b0010010011111110#16 = .ok (.jmpC 6) := by decide

theorem test_decode_jmpNc : decode 0b0010010111111110#16 = .ok (.jmpNc 6) := by decide

theorem test_decode_jmpN : decode 0b0010011011111110#16 = .ok (.jmpN 6) := by decide

theorem test_decode_jmpNn : decode 0b0010011111111110#16 = .ok (.jmpNn 6) := by decide

theorem test_decode_jmpO : decode 0b0010100011111110#16 = .ok (.jmpO 6) := by decide

theorem test_decode_jmpNo : decode 0b0010100111111110#16 = .ok (.jmpNo 6) := by decide

theorem test_decode_jmpP : decode 0b0010101011111110#16 = .ok (.jmpP 6) := by decide

theorem test_decode_jmpNp : decode 0b0010101111111110#16 = .ok (.jmpNp 6) := by decide

theorem test_decode_jal : decode 0b0011000111111110#16 = .ok (.jal 6) := by decide

theorem test_decode_jalZ : decode 0b0011001011111110#16 = .ok (.jalZ 6) := by decide

theorem test_decode_jalNz : decode 0b0011001111111110#16 = .ok (.jalNz 6) := by decide

theorem test_decode_jalC : decode 0b0011010011111110#16 = .ok (.jalC 6) := by decide

theorem test_decode_jalNc : decode 0b0011010111111110#16 = .ok (.jalNc 6) := by decide

theorem test_decode_jalN : decode 0b0011011011111110#16 = .ok (.jalN 6) := by decide

theorem test_decode_jalNn : decode 0b0011011111111110#16 = .ok (.jalNn 6) := by decide

theorem test_decode_jalO : decode 0b0011100011111110#16 = .ok (.jalO 6) := by decide

theorem test_decode_jalNo : decode 0b0011100111111110#16 = .ok (.jalNo 6) := by decide

theorem test_decode_jalP : decode 0b0011101011111110#16 = .ok (.jalP 6) := by decide

theorem test_decode_jalNp : decode 0b0011101111111110#16 = .ok (.jalNp 6) := by decide

theorem test_decode_mov : decode 0b0110100011011111#16 = .ok (.mov 5 3) := by decide

theorem test_decode_load : decode 0b0110101011011111#16 = .ok (.load 5 3) := by decide

theorem test_decode_stor : decode 0b0111101111011110#16 = .ok (.stor 3 6) := by decide

theorem test_decode_eni : decode 0b0111110011111111#16 = .ok .eni := by decide

theorem test_decode_dsi : decode 0b0111110111111111#16 = .ok .dsi := by decide

theorem test_decode_rti : decode 0b0111111011111111#16 = .ok .rti := by decide

theorem test_decode_int : decode 0b0111111110100110#16 = .ok (.int 0b10100110#8) := by decide

theorem test_decode_add : decode 0b1010100000011110#16 = .ok (.add 5 3 6) := by decide

theorem test_decode_sub : decode 0b1010100001011110#16 = .ok (.sub 5 3 6) := by decide

theorem test_decode_addc : decode 0b1010100010011110#16 = .ok (.addc 5 3 6) := by decide

theorem test_decode_subb : decode 0b1010100011011110#16 = .ok (.subb 5 3 6) := by decide

theorem test_decode_dec : decode 0b1010100100011111#16 = .ok (.dec 5 3) := by decide

theorem test_decode_inc : decode 0b1010100101011111#16 = .ok (.inc 5 3) := by decide

theorem test_decode_com : decode 0b1010101000011111#16 = .ok (.com 5 3) := by decide

theorem test_decode_and : decode 0b1010101001011110#16 = .ok (.and 5 3 6) := by decide

theorem test_decode_or : decode 0b1010101010011110#16 = .ok (.or 5 3 6) := by decide

theorem test_decode_xor : decode 0b1010101011011110#16 = .ok (.xor 5 3 6) := by decide

theorem test_decode_shr : decode 0b1010110000011111#16 = .ok (.shr 5 3) := by decide

theorem test_decode_shl : decode 0b1010110001011111#16 = .ok (.shl 5 3) := by decide

theorem test_decode_shra : decode 0b1010110010011111#16 = .ok (.shra 5 3) := by decide

theorem test_decode_shla : decode 0b1010110011011111#16 = .ok (.shla 5 3) := by decide

theorem test_decode_ror : decode 0b1010110100011111#16 = .ok (.ror 5 3) := by decide

theorem test_decode_rol : decode 0b1010110101011111#16 = .ok (.rol 5 3) := by decide

theorem test_decode_rorc : decode 0b1010110110011111#16 = .ok (.rorc 5 3) := by decide

theorem test_decode_rolc : decode 0b1010110111011111#16 = .ok (.rolc 5 3) := by decide

theorem test_decode_mvi : decode 0b1110100010100110#16 = .ok (.mvi 5 0b10100110#8) := by decide

theorem test_decode_mvih : decode 0b1110101010100110#16 = .ok (.mvih 5 0b10100110#8) := by decide

theorem test_decode_mvil : decode 0b1110101110100110#16 = .ok (.mvil 5 0b10100110#8) := by decide

theorem test_decode_clc : decode 0b1111110011111111#16 = .ok .clc := by decide

theorem test_decode_stc : decode 0b1111110111111111#16 = .ok .stc := by decide

theorem test_decode_cmc : decode 0b1111111011111111#16 = .ok .cmc := by decide

/-! ## Words outside the encodings: one of each class of 30_encoding.md R52, refused by the well-formedness check
and by the decoder, with its class -/

theorem test_illegal_condUnused : wellFormedWord 0x1000#16 = false ∧ decode 0x1000#16 = .error .condUnused := by decide

theorem test_illegal_condReserved : wellFormedWord 0x2C00#16 = false ∧ decode 0x2C00#16 = .error .condReserved := by decide

theorem test_illegal_transferSub : wellFormedWord 0x4100#16 = false ∧ decode 0x4100#16 = .error .transferSub := by decide

theorem test_illegal_arithCode : wellFormedWord 0x8180#16 = false ∧ decode 0x8180#16 = .error .arithCode := by decide

theorem test_illegal_logicCode : wellFormedWord 0x8300#16 = false ∧ decode 0x8300#16 = .error .logicCode := by decide

theorem test_illegal_unitCode : wellFormedWord 0x8600#16 = false ∧ decode 0x8600#16 = .error .unitCode := by decide

theorem test_illegal_immediateSub : wellFormedWord 0xC100#16 = false ∧ decode 0xC100#16 = .error .immediateSub := by decide

/-- The last words of the classes that are ranges. -/
theorem test_illegal_boundaries :
    decode 0x3FFF#16 = .error .condReserved ∧ decode 0x81FF#16 = .error .arithCode ∧
    decode 0x83FF#16 = .error .logicCode ∧ decode 0x87FF#16 = .error .unitCode ∧
    decode 0xC7FF#16 = .error .immediateSub := by decide

/-- The words next to those ranges are instructions. -/
theorem test_legal_neighbours :
    wellFormedWord 0x1BFF#16 = true ∧ wellFormedWord 0x0FFF#16 = true ∧ wellFormedWord 0x8140#16 = true ∧
    wellFormedWord 0x8200#16 = true ∧ wellFormedWord 0x85FF#16 = true ∧ wellFormedWord 0xC6FF#16 = true := by decide

/-- The opcode map has 65 rows, no two of which share a word (30_encoding.md R50). -/
theorem test_rows_disjoint : opcodeRows.length = 65 ∧ opcodeRows.Pairwise (fun r q => r.disjoint q = true) := by
  decide

/-- The host's numbering: the table's bits are the word's. -/
theorem test_decode_table_word : decodeTableWord 16 0x880A = some (.add 1 1 2) ∧ decodeTableWord 16 0x1000 = none := by
  decide

/-! ## One step -/

/-- A state at address a with the word w there. -/
def at' (a : PAddr) (w : Nat) (s : State) : State := State.withFetchWord { s with pc := a } 16 w

/-- The reset state with two registers set. -/
def regs2 (i : Reg) (v : Word) (j : Reg) (u : Word) : State := (State.reset.writeReg i v).writeReg j u

/-- The state with Z, C, N and O set. -/
def zcno (z c n o : Bool) (s : State) : State := { s with flags := { e := s.flags.e, z := z, c := c, n := n, o := o } }

/-- The step has a next state and it passes the check. -/
def next (s : State) (check : State → Bool) : Bool :=
  match step s with
  | .next t => check t
  | .fault _ => false
  | .refused _ => false

/-- What an ALU vector gives: the destination and Z, C, N, O. -/
def aluIs (rd : Reg) (r : Word) (z c n o : Bool) (t : State) : Bool :=
  t.readReg rd = r && t.flags = { e := false, z := z, c := c, n := n, o := o }

/-! ### Conditions, vectors K1 to K5 -/

/-- K1: of the eleven conditions, these hold. -/
theorem test_conditions_K1 :
    ([.always, .z, .nz, .c, .nc, .n, .nn, .o, .no, .p, .np] : List Cond).map
      (Flags.holds { e := false, z := false, c := false, n := false, o := false }) =
    [true, false, true, false, true, false, true, false, true, true, false] := by decide

/-- K2: of the eleven conditions, these hold. -/
theorem test_conditions_K2 :
    ([.always, .z, .nz, .c, .nc, .n, .nn, .o, .no, .p, .np] : List Cond).map
      (Flags.holds { e := false, z := true, c := false, n := false, o := false }) =
    [true, true, false, false, true, false, true, false, true, false, true] := by decide

/-- K3: of the eleven conditions, these hold. -/
theorem test_conditions_K3 :
    ([.always, .z, .nz, .c, .nc, .n, .nn, .o, .no, .p, .np] : List Cond).map
      (Flags.holds { e := false, z := false, c := false, n := true, o := false }) =
    [true, false, true, false, true, true, false, false, true, false, true] := by decide

/-- K4: of the eleven conditions, these hold. -/
theorem test_conditions_K4 :
    ([.always, .z, .nz, .c, .nc, .n, .nn, .o, .no, .p, .np] : List Cond).map
      (Flags.holds { e := false, z := false, c := true, n := false, o := true }) =
    [true, false, true, true, false, false, true, true, false, true, false] := by decide

/-- K5: of the eleven conditions, these hold. -/
theorem test_conditions_K5 :
    ([.always, .z, .nz, .c, .nc, .n, .nn, .o, .no, .p, .np] : List Cond).map
      (Flags.holds { e := false, z := true, c := true, n := true, o := true }) =
    [true, true, false, true, false, true, false, true, false, false, true] := by decide

/-! ### Branches, jumps and links: each condition taken and not taken, with the flags of K1 to K5 -/

theorem test_br : next (at' 0x0004#15 0x11FE State.reset)
    (fun t => t.pc = 0x0005#15 && t.jp && t.jt = 0x0002#15) = true := by decide

theorem test_brZ :
    next (at' 0x0004#15 0x12FE (zcno true false false false State.reset)) (fun t => t.pc = 0x0005#15 && t.jp && t.jt = 0x0002#15) = true ∧
    next (at' 0x0004#15 0x12FE (zcno false false false false State.reset)) (fun t => t.pc = 0x0005#15 && !t.jp) = true := by decide

theorem test_brNz :
    next (at' 0x0004#15 0x13FE (zcno false false false false State.reset)) (fun t => t.pc = 0x0005#15 && t.jp && t.jt = 0x0002#15) = true ∧
    next (at' 0x0004#15 0x13FE (zcno true false false false State.reset)) (fun t => t.pc = 0x0005#15 && !t.jp) = true := by decide

theorem test_brC :
    next (at' 0x0004#15 0x14FE (zcno false true false true State.reset)) (fun t => t.pc = 0x0005#15 && t.jp && t.jt = 0x0002#15) = true ∧
    next (at' 0x0004#15 0x14FE (zcno false false false false State.reset)) (fun t => t.pc = 0x0005#15 && !t.jp) = true := by decide

theorem test_brNc :
    next (at' 0x0004#15 0x15FE (zcno false false false false State.reset)) (fun t => t.pc = 0x0005#15 && t.jp && t.jt = 0x0002#15) = true ∧
    next (at' 0x0004#15 0x15FE (zcno false true false true State.reset)) (fun t => t.pc = 0x0005#15 && !t.jp) = true := by decide

theorem test_brN :
    next (at' 0x0004#15 0x16FE (zcno false false true false State.reset)) (fun t => t.pc = 0x0005#15 && t.jp && t.jt = 0x0002#15) = true ∧
    next (at' 0x0004#15 0x16FE (zcno false false false false State.reset)) (fun t => t.pc = 0x0005#15 && !t.jp) = true := by decide

theorem test_brNn :
    next (at' 0x0004#15 0x17FE (zcno false false false false State.reset)) (fun t => t.pc = 0x0005#15 && t.jp && t.jt = 0x0002#15) = true ∧
    next (at' 0x0004#15 0x17FE (zcno false false true false State.reset)) (fun t => t.pc = 0x0005#15 && !t.jp) = true := by decide

theorem test_brO :
    next (at' 0x0004#15 0x18FE (zcno false true false true State.reset)) (fun t => t.pc = 0x0005#15 && t.jp && t.jt = 0x0002#15) = true ∧
    next (at' 0x0004#15 0x18FE (zcno false false false false State.reset)) (fun t => t.pc = 0x0005#15 && !t.jp) = true := by decide

theorem test_brNo :
    next (at' 0x0004#15 0x19FE (zcno false false false false State.reset)) (fun t => t.pc = 0x0005#15 && t.jp && t.jt = 0x0002#15) = true ∧
    next (at' 0x0004#15 0x19FE (zcno false true false true State.reset)) (fun t => t.pc = 0x0005#15 && !t.jp) = true := by decide

theorem test_brP :
    next (at' 0x0004#15 0x1AFE (zcno false false false false State.reset)) (fun t => t.pc = 0x0005#15 && t.jp && t.jt = 0x0002#15) = true ∧
    next (at' 0x0004#15 0x1AFE (zcno true false false false State.reset)) (fun t => t.pc = 0x0005#15 && !t.jp) = true := by decide

theorem test_brNp :
    next (at' 0x0004#15 0x1BFE (zcno true false false false State.reset)) (fun t => t.pc = 0x0005#15 && t.jp && t.jt = 0x0002#15) = true ∧
    next (at' 0x0004#15 0x1BFE (zcno false false false false State.reset)) (fun t => t.pc = 0x0005#15 && !t.jp) = true := by decide

theorem test_jmp : next (at' 0x0004#15 0x2103 (State.reset.writeReg 3 0x8005#16))
    (fun t => t.pc = 0x0005#15 && t.jp && t.jt = 0x0005#15) = true := by decide

theorem test_jmpZ :
    next (at' 0x0004#15 0x2203 (zcno true false false false (State.reset.writeReg 3 0x8005#16))) (fun t => t.pc = 0x0005#15 && t.jp && t.jt = 0x0005#15) = true ∧
    next (at' 0x0004#15 0x2203 (zcno false false false false (State.reset.writeReg 3 0x8005#16))) (fun t => t.pc = 0x0005#15 && !t.jp) = true := by decide

theorem test_jmpNz :
    next (at' 0x0004#15 0x2303 (zcno false false false false (State.reset.writeReg 3 0x8005#16))) (fun t => t.pc = 0x0005#15 && t.jp && t.jt = 0x0005#15) = true ∧
    next (at' 0x0004#15 0x2303 (zcno true false false false (State.reset.writeReg 3 0x8005#16))) (fun t => t.pc = 0x0005#15 && !t.jp) = true := by decide

theorem test_jmpC :
    next (at' 0x0004#15 0x2403 (zcno false true false true (State.reset.writeReg 3 0x8005#16))) (fun t => t.pc = 0x0005#15 && t.jp && t.jt = 0x0005#15) = true ∧
    next (at' 0x0004#15 0x2403 (zcno false false false false (State.reset.writeReg 3 0x8005#16))) (fun t => t.pc = 0x0005#15 && !t.jp) = true := by decide

theorem test_jmpNc :
    next (at' 0x0004#15 0x2503 (zcno false false false false (State.reset.writeReg 3 0x8005#16))) (fun t => t.pc = 0x0005#15 && t.jp && t.jt = 0x0005#15) = true ∧
    next (at' 0x0004#15 0x2503 (zcno false true false true (State.reset.writeReg 3 0x8005#16))) (fun t => t.pc = 0x0005#15 && !t.jp) = true := by decide

theorem test_jmpN :
    next (at' 0x0004#15 0x2603 (zcno false false true false (State.reset.writeReg 3 0x8005#16))) (fun t => t.pc = 0x0005#15 && t.jp && t.jt = 0x0005#15) = true ∧
    next (at' 0x0004#15 0x2603 (zcno false false false false (State.reset.writeReg 3 0x8005#16))) (fun t => t.pc = 0x0005#15 && !t.jp) = true := by decide

theorem test_jmpNn :
    next (at' 0x0004#15 0x2703 (zcno false false false false (State.reset.writeReg 3 0x8005#16))) (fun t => t.pc = 0x0005#15 && t.jp && t.jt = 0x0005#15) = true ∧
    next (at' 0x0004#15 0x2703 (zcno false false true false (State.reset.writeReg 3 0x8005#16))) (fun t => t.pc = 0x0005#15 && !t.jp) = true := by decide

theorem test_jmpO :
    next (at' 0x0004#15 0x2803 (zcno false true false true (State.reset.writeReg 3 0x8005#16))) (fun t => t.pc = 0x0005#15 && t.jp && t.jt = 0x0005#15) = true ∧
    next (at' 0x0004#15 0x2803 (zcno false false false false (State.reset.writeReg 3 0x8005#16))) (fun t => t.pc = 0x0005#15 && !t.jp) = true := by decide

theorem test_jmpNo :
    next (at' 0x0004#15 0x2903 (zcno false false false false (State.reset.writeReg 3 0x8005#16))) (fun t => t.pc = 0x0005#15 && t.jp && t.jt = 0x0005#15) = true ∧
    next (at' 0x0004#15 0x2903 (zcno false true false true (State.reset.writeReg 3 0x8005#16))) (fun t => t.pc = 0x0005#15 && !t.jp) = true := by decide

theorem test_jmpP :
    next (at' 0x0004#15 0x2A03 (zcno false false false false (State.reset.writeReg 3 0x8005#16))) (fun t => t.pc = 0x0005#15 && t.jp && t.jt = 0x0005#15) = true ∧
    next (at' 0x0004#15 0x2A03 (zcno true false false false (State.reset.writeReg 3 0x8005#16))) (fun t => t.pc = 0x0005#15 && !t.jp) = true := by decide

theorem test_jmpNp :
    next (at' 0x0004#15 0x2B03 (zcno true false false false (State.reset.writeReg 3 0x8005#16))) (fun t => t.pc = 0x0005#15 && t.jp && t.jt = 0x0005#15) = true ∧
    next (at' 0x0004#15 0x2B03 (zcno false false false false (State.reset.writeReg 3 0x8005#16))) (fun t => t.pc = 0x0005#15 && !t.jp) = true := by decide

theorem test_jal : next (at' 0x0004#15 0x3103 (State.reset.writeReg 3 0x8005#16))
    (fun t => t.pc = 0x0005#15 && t.jp && t.jt = 0x0005#15) = true := by decide

theorem test_jalZ :
    next (at' 0x0004#15 0x3203 (zcno true false false false (State.reset.writeReg 3 0x8005#16))) (fun t => t.pc = 0x0005#15 && t.jp && t.jt = 0x0005#15) = true ∧
    next (at' 0x0004#15 0x3203 (zcno false false false false (State.reset.writeReg 3 0x8005#16))) (fun t => t.pc = 0x0005#15 && !t.jp) = true := by decide

theorem test_jalNz :
    next (at' 0x0004#15 0x3303 (zcno false false false false (State.reset.writeReg 3 0x8005#16))) (fun t => t.pc = 0x0005#15 && t.jp && t.jt = 0x0005#15) = true ∧
    next (at' 0x0004#15 0x3303 (zcno true false false false (State.reset.writeReg 3 0x8005#16))) (fun t => t.pc = 0x0005#15 && !t.jp) = true := by decide

theorem test_jalC :
    next (at' 0x0004#15 0x3403 (zcno false true false true (State.reset.writeReg 3 0x8005#16))) (fun t => t.pc = 0x0005#15 && t.jp && t.jt = 0x0005#15) = true ∧
    next (at' 0x0004#15 0x3403 (zcno false false false false (State.reset.writeReg 3 0x8005#16))) (fun t => t.pc = 0x0005#15 && !t.jp) = true := by decide

theorem test_jalNc :
    next (at' 0x0004#15 0x3503 (zcno false false false false (State.reset.writeReg 3 0x8005#16))) (fun t => t.pc = 0x0005#15 && t.jp && t.jt = 0x0005#15) = true ∧
    next (at' 0x0004#15 0x3503 (zcno false true false true (State.reset.writeReg 3 0x8005#16))) (fun t => t.pc = 0x0005#15 && !t.jp) = true := by decide

theorem test_jalN :
    next (at' 0x0004#15 0x3603 (zcno false false true false (State.reset.writeReg 3 0x8005#16))) (fun t => t.pc = 0x0005#15 && t.jp && t.jt = 0x0005#15) = true ∧
    next (at' 0x0004#15 0x3603 (zcno false false false false (State.reset.writeReg 3 0x8005#16))) (fun t => t.pc = 0x0005#15 && !t.jp) = true := by decide

theorem test_jalNn :
    next (at' 0x0004#15 0x3703 (zcno false false false false (State.reset.writeReg 3 0x8005#16))) (fun t => t.pc = 0x0005#15 && t.jp && t.jt = 0x0005#15) = true ∧
    next (at' 0x0004#15 0x3703 (zcno false false true false (State.reset.writeReg 3 0x8005#16))) (fun t => t.pc = 0x0005#15 && !t.jp) = true := by decide

theorem test_jalO :
    next (at' 0x0004#15 0x3803 (zcno false true false true (State.reset.writeReg 3 0x8005#16))) (fun t => t.pc = 0x0005#15 && t.jp && t.jt = 0x0005#15) = true ∧
    next (at' 0x0004#15 0x3803 (zcno false false false false (State.reset.writeReg 3 0x8005#16))) (fun t => t.pc = 0x0005#15 && !t.jp) = true := by decide

theorem test_jalNo :
    next (at' 0x0004#15 0x3903 (zcno false false false false (State.reset.writeReg 3 0x8005#16))) (fun t => t.pc = 0x0005#15 && t.jp && t.jt = 0x0005#15) = true ∧
    next (at' 0x0004#15 0x3903 (zcno false true false true (State.reset.writeReg 3 0x8005#16))) (fun t => t.pc = 0x0005#15 && !t.jp) = true := by decide

theorem test_jalP :
    next (at' 0x0004#15 0x3A03 (zcno false false false false (State.reset.writeReg 3 0x8005#16))) (fun t => t.pc = 0x0005#15 && t.jp && t.jt = 0x0005#15) = true ∧
    next (at' 0x0004#15 0x3A03 (zcno true false false false (State.reset.writeReg 3 0x8005#16))) (fun t => t.pc = 0x0005#15 && !t.jp) = true := by decide

theorem test_jalNp :
    next (at' 0x0004#15 0x3B03 (zcno true false false false (State.reset.writeReg 3 0x8005#16))) (fun t => t.pc = 0x0005#15 && t.jp && t.jt = 0x0005#15) = true ∧
    next (at' 0x0004#15 0x3B03 (zcno false false false false (State.reset.writeReg 3 0x8005#16))) (fun t => t.pc = 0x0005#15 && !t.jp) = true := by decide

/-- C5: the target wraps below 0. -/
theorem test_br_wraps : next (at' 0x0005#15 0x1180 State.reset)
    (fun t => t.pc = 0x0006#15 && t.jp && t.jt = 0x7F85#15) = true := by decide

/-- C9: a branch at the last address has its slot at 0. -/
theorem test_br_at_the_last_address : next (at' 0x7FFF#15 0x1102 State.reset)
    (fun t => t.pc = 0x0000#15 && t.jp && t.jt = 0x0001#15) = true := by decide

/-- C6, its second step: the slot runs and PC is the target. -/
theorem test_delay_slot : next (at' 0x0001#15 0x8948 { State.reset with jp := true, jt := 4#15 })
    (fun t => t.readReg 1 = 1#16 && t.pc = 4#15 && !t.jp) = true := by decide

/-- C8, its second step: a branch in a slot; the first target is next, the second pending. -/
theorem test_branch_in_a_slot : next (at' 0x0001#15 0x1108 { State.reset with jp := true, jt := 4#15 })
    (fun t => t.pc = 4#15 && t.jp && t.jt = 9#15) = true := by decide

/-- C14, for the spec's reference parameters: the old R7 is the target, the link goes to R7. -/
theorem test_jal_reads_its_target_first (hr : Config.jalLinkReg = 7) (ho : Config.jalLinkOfs = .two) :
    ∃ t, exec (.jal 7) { State.reset.writeReg 7 0x0300#16 with pc := 0x0010#15 } = .next t ∧ t.jt = 0x0300#15 ∧
      t.readReg 7 = 0x0012#16 := by
  refine ⟨_, rfl, by decide, ?_⟩
  rw [show Flags.holds _ Cond.always = true from rfl, if_pos rfl, readReg_advance, readReg_writeReg, hr, linkValue, ho]
  decide

/-- C1: a NOP. -/
theorem test_nop : next (at' 0x0010#15 0x0FFF State.reset) (fun t => t.pc = 0x0011#15 && !t.jp) = true := by decide

/-- C16: an illegal word stops the core, and the stopped core stays. -/
theorem test_illegal_word_stops :
    next (at' 0x0000#15 0x1000 State.reset) (fun t => t.run = .illegal 0#15 0x1000#16 && t.pc = 0#15) = true ∧
    next { State.reset with run := .illegal 0#15 0x1000#16 } (fun t => t.run = .illegal 0#15 0x1000#16 && t.pc = 0#15)
      = true := by decide

/-! ### Transfer and system -/

/-- T1. -/
theorem test_mov : next (at' 0#15 0x4818 (zcno true false false false (State.reset.writeReg 3 0x1234#16)))
    (fun t => t.readReg 1 = 0x1234#16 && t.flags.z) = true := by decide

/-- T2: a write to R0 is discarded. -/
theorem test_mov_to_r0 : next (at' 0#15 0x4018 (State.reset.writeReg 3 0x1234#16)) (fun t => t.readReg 0 = 0#16) = true := by
  decide

/-- T4: the address is the old R1. -/
theorem test_load : next (at' 0#15 0x4A08 { State.reset.writeReg 1 0x0100#16 with dmem := Memory.writeWord [] 0x0100#15 0xBEEF#16 })
    (fun t => t.readReg 1 = 0xBEEF#16) = true := by decide

/-- T5: the word reached from 0x8000 up. -/
theorem test_load_masked : next (at' 0#15 0x4A10 { State.reset.writeReg 2 0x8100#16 with dmem := Memory.writeWord [] 0x0100#15 0xBEEF#16 })
    (fun t => t.readReg 1 = 0xBEEF#16) = true := by decide

/-- T6: an unmapped address of the I/O window reads 0xFFFF. -/
theorem test_unmapped_read (h : Config.addrImask ≠ 0xFF00#16) (hm : Config.ioMap 0xFF00#16 = none) :
    (State.reset.busRead 0xFF00#16).1 = 0xFFFF#16 := by
  have hb : busTarget 0xFF00#16 = .unmapped := by simp [busTarget, h.symm, hm]
  simp [State.busRead, hb]

/-- T8. -/
theorem test_stor : next (at' 0#15 0x4331 (regs2 6 0x7000#16 1 0x00AA#16))
    (fun t => t.dmem.readWord 0x7000#15 = 0x00AA#16 && t.readReg 6 = 0x7000#16) = true := by decide

/-- T9. -/
theorem test_stor_masked : next (at' 0#15 0x431A (regs2 3 0x8010#16 2 0x0012#16))
    (fun t => t.dmem.readWord 0x0010#15 = 0x0012#16) = true := by decide

/-- T10, for the spec's test value of the address. -/
theorem test_mask_write (h : Config.addrImask = 0xFFFA#16) : (State.reset.busWrite 0xFFFA#16 0x8024#16).imask = 0x8024#16 := by
  rw [← h]
  simp [State.busWrite, busTarget_imask]

/-- T11: a write to an unmapped address does nothing. -/
theorem test_unmapped_write (h : Config.addrImask ≠ 0xFF00#16) (hm : Config.ioMap 0xFF00#16 = none) :
    State.reset.busWrite 0xFF00#16 0x1111#16 = State.reset := by
  have hb : busTarget 0xFF00#16 = .unmapped := by simp [busTarget, h.symm, hm]
  simp [State.busWrite, hb]

/-- A state with the interrupt registers set. -/
def irq (e : Bool) (imask ipend : Word) (raises : List (List Source)) : State :=
  { State.reset with flags := { State.reset.flags with e := e }, imask := imask, ipend := ipend, raises := raises }

/-- T12: nothing is pending. -/
theorem test_eni : next (at' 0x0005#15 0x4400 (irq false 0#16 0#16 []))
    (fun t => t.flags.e && !t.rescan && t.pc = 0x0006#15) = true := by decide

/-- T13: a pending unmasked source is serviced at the boundary of the ENI. -/
theorem test_eni_services : next (at' 0x0005#15 0x4400 (irq false 0x0004#16 0x0004#16 []))
    (fun t => t.ipend = 0#16 && t.se && !t.flags.e && t.ra = 0x0006#15 && t.pc = 0x7F20#15) = true := by decide

/-- T14. -/
theorem test_dsi : next (at' 0#15 0x4500 (irq true 0#16 0#16 [])) (fun t => !t.flags.e && t.pc = 1#15) = true := by decide

/-- T15. -/
theorem test_rti : next (at' 0x7FF3#15 0x4600 { State.reset with se := true, ra := 0x0123#15 })
    (fun t => t.flags.e && t.pc = 0x7FF4#15 && t.jp && t.jt = 0x0123#15 && t.rescan) = true := by decide

/-- T16. -/
theorem test_int : next (at' 0x0002#15 0x4720 (irq true 0#16 0#16 []))
    (fun t => t.se && !t.flags.e && t.ra = 0x0003#15 && t.pc = 0x7F20#15) = true := by decide

/-- Q8: the software interrupt first, then a raise pends. -/
theorem test_int_comes_first : next (at' 0x0010#15 0x47F0 (irq true 0xFFFF#16 0x0030#16 [[1]]))
    (fun t => t.pc = 0x7FF0#15 && t.ra = 0x0011#15 && !t.rescan && t.ipend = 0x0032#16) = true := by decide

/-! ### The ALU -/

/-- A1: ADD R1, R1, R2. -/
theorem test_add_A1 : next (at' 0#15 0x880A (regs2 1 0x7FFF#16 2 0x0001#16))
    (aluIs 1 0x8000#16 false false true true) = true := by decide

/-- A2: ADD R1, R1, R2. -/
theorem test_add_A2 : next (at' 0#15 0x880A (regs2 1 0xFFFF#16 2 0x0001#16))
    (aluIs 1 0x0000#16 true true false false) = true := by decide

/-- A5: SUB R0, R3, R4. -/
theorem test_sub_A5 : next (at' 0#15 0x805C (regs2 3 0x1234#16 4 0x1234#16))
    (aluIs 0 0x0000#16 true false false false) = true := by decide

/-- A8: SUB R1, R0, R1 (NEG). -/
theorem test_sub_A8 : next (at' 0#15 0x8841 (State.reset.writeReg 1 0x8000#16))
    (aluIs 1 0x8000#16 false true true true) = true := by decide

/-- A11: ADDC R1, R1, R2. -/
theorem test_addc_A11 : next (at' 0#15 0x888A (zcno false true false false (regs2 1 0xFFFF#16 2 0x0000#16)))
    (aluIs 1 0x0000#16 true true false false) = true := by decide

/-- A13: ADDC R1, R1, R2. -/
theorem test_addc_A13 : next (at' 0#15 0x888A (zcno false true false false (regs2 1 0x7FFF#16 2 0x0000#16)))
    (aluIs 1 0x8000#16 false false true true) = true := by decide

/-- A15: SUBB R1, R1, R2. -/
theorem test_subb_A15 : next (at' 0#15 0x88CA (zcno false true false false (regs2 1 0x0000#16 2 0x0000#16)))
    (aluIs 1 0xFFFF#16 false true true false) = true := by decide

/-- A17: SUBB R1, R1, R2. -/
theorem test_subb_A17 : next (at' 0#15 0x88CA (zcno false true false false (regs2 1 0x8000#16 2 0x7FFF#16)))
    (aluIs 1 0x0000#16 true false false true) = true := by decide

/-- A19: DEC R1, R1. -/
theorem test_dec_A19 : next (at' 0#15 0x8908 (State.reset.writeReg 1 0x8000#16))
    (aluIs 1 0x7FFF#16 false false false true) = true := by decide

/-- A20: DEC R1, R1. -/
theorem test_dec_A20 : next (at' 0#15 0x8908 (State.reset.writeReg 1 0x0000#16))
    (aluIs 1 0xFFFF#16 false true true false) = true := by decide

/-- A22: INC R1, R1. -/
theorem test_inc_A22 : next (at' 0#15 0x8948 (State.reset.writeReg 1 0xFFFF#16))
    (aluIs 1 0x0000#16 true true false false) = true := by decide

/-- A24: COM R1, R2. -/
theorem test_com_A24 : next (at' 0#15 0x8A10 (State.reset.writeReg 2 0x00FF#16))
    (aluIs 1 0xFF00#16 false false true false) = true := by decide

/-- A25: COM R1, R1. -/
theorem test_com_A25 : next (at' 0#15 0x8A08 (zcno false true false true (State.reset.writeReg 1 0xFFFF#16)))
    (aluIs 1 0x0000#16 true true false true) = true := by decide

/-- A26: AND R0, R1, R2 (TEST). -/
theorem test_and_A26 : next (at' 0#15 0x824A (regs2 1 0x00F0#16 2 0x0F0F#16))
    (aluIs 0 0x0000#16 true false false false) = true := by decide

/-- A27: AND R1, R1, R0. -/
theorem test_and_A27 : next (at' 0#15 0x8A48 (zcno false true false true (State.reset.writeReg 1 0xFFFF#16)))
    (aluIs 1 0x0000#16 true true false true) = true := by decide

/-- A28: OR R3, R1, R2. -/
theorem test_or_A28 : next (at' 0#15 0x9A8A (regs2 1 0x8000#16 2 0x0001#16))
    (aluIs 3 0x8001#16 false false true false) = true := by decide

/-- A29: OR R1, R1, R0. -/
theorem test_or_A29 : next (at' 0#15 0x8A88 (State.reset.writeReg 1 0x8000#16))
    (aluIs 1 0x8000#16 false false true false) = true := by decide

/-- A30: XOR R1, R1, R1. -/
theorem test_xor_A30 : next (at' 0#15 0x8AC9 (State.reset.writeReg 1 0x1234#16))
    (aluIs 1 0x0000#16 true false false false) = true := by decide

/-- A31: XOR R1, R1, R2. -/
theorem test_xor_A31 : next (at' 0#15 0x8ACA (regs2 1 0xFF00#16 2 0x0FF0#16))
    (aluIs 1 0xF0F0#16 false false true false) = true := by decide

/-- A32: SHR R1, R1. -/
theorem test_shr_A32 : next (at' 0#15 0x8C08 (State.reset.writeReg 1 0x0001#16))
    (aluIs 1 0x0000#16 true true false false) = true := by decide

/-- A33: INC R0, R1. -/
theorem test_inc_A33 : next (at' 0#15 0x8148 (State.reset.writeReg 1 0xFFFF#16))
    (aluIs 0 0x0000#16 true true false false) = true := by decide

/-- A34: SHR R1, R1. -/
theorem test_shr_A34 : next (at' 0#15 0x8C08 (zcno false false false true (State.reset.writeReg 1 0x8000#16)))
    (aluIs 1 0x4000#16 false false false true) = true := by decide

/-- A35: SHL R1, R1. -/
theorem test_shl_A35 : next (at' 0#15 0x8C48 (State.reset.writeReg 1 0x8001#16))
    (aluIs 1 0x0002#16 false true false false) = true := by decide

/-- A36: SHL R1, R1. -/
theorem test_shl_A36 : next (at' 0#15 0x8C48 (State.reset.writeReg 1 0x8000#16))
    (aluIs 1 0x0000#16 true true false false) = true := by decide

/-- A37: SHRA R1, R1. -/
theorem test_shra_A37 : next (at' 0#15 0x8C88 (State.reset.writeReg 1 0x8002#16))
    (aluIs 1 0xC001#16 false false true false) = true := by decide

/-- A38: SHRA R1, R1. -/
theorem test_shra_A38 : next (at' 0#15 0x8C88 (State.reset.writeReg 1 0xFFFF#16))
    (aluIs 1 0xFFFF#16 false true true false) = true := by decide

/-- A39: SHLA R1, R1. -/
theorem test_shla_A39 : next (at' 0#15 0x8CC8 (State.reset.writeReg 1 0x4000#16))
    (aluIs 1 0x8000#16 false false true true) = true := by decide

/-- A40: SHLA R1, R1. -/
theorem test_shla_A40 : next (at' 0#15 0x8CC8 (State.reset.writeReg 1 0xC000#16))
    (aluIs 1 0x8000#16 false true true false) = true := by decide

/-- A42: ROR R1, R1. -/
theorem test_ror_A42 : next (at' 0#15 0x8D08 (State.reset.writeReg 1 0x0001#16))
    (aluIs 1 0x8000#16 false true true false) = true := by decide

/-- A43: ROR R1, R1. -/
theorem test_ror_A43 : next (at' 0#15 0x8D08 (State.reset.writeReg 1 0x0000#16))
    (aluIs 1 0x0000#16 true false false false) = true := by decide

/-- A44: ROL R1, R1. -/
theorem test_rol_A44 : next (at' 0#15 0x8D48 (State.reset.writeReg 1 0x8000#16))
    (aluIs 1 0x0001#16 false true false false) = true := by decide

/-- A45: ROL R1, R1. -/
theorem test_rol_A45 : next (at' 0#15 0x8D48 (State.reset.writeReg 1 0xFFFF#16))
    (aluIs 1 0xFFFF#16 false true true false) = true := by decide

/-- A46: RORC R1, R1. -/
theorem test_rorc_A46 : next (at' 0#15 0x8D88 (State.reset.writeReg 1 0x0001#16))
    (aluIs 1 0x0000#16 true true false false) = true := by decide

/-- A47: RORC R1, R1. -/
theorem test_rorc_A47 : next (at' 0#15 0x8D88 (zcno false true false false (State.reset.writeReg 1 0x0000#16)))
    (aluIs 1 0x8000#16 false false true false) = true := by decide

/-- A48: ROLC R1, R1. -/
theorem test_rolc_A48 : next (at' 0#15 0x8DC8 (zcno false true false false (State.reset.writeReg 1 0x8000#16)))
    (aluIs 1 0x0001#16 false true false false) = true := by decide

/-- A49: ROLC R1, R1. -/
theorem test_rolc_A49 : next (at' 0#15 0x8DC8 (State.reset.writeReg 1 0x8000#16))
    (aluIs 1 0x0000#16 true true false false) = true := by decide

/-! ### Immediates and carry -/

/-- I1, for either value of the parameter. -/
theorem test_mvi : mviValue 0x05#8 = 0x0005#16 := by
  unfold mviValue
  cases Config.mviExt <;> decide

/-- I2. -/
theorem test_mvi_widens : (Config.mviExt = .sign → mviValue 0x80#8 = 0xFF80#16) ∧
    (Config.mviExt = .zero → mviValue 0x80#8 = 0x0080#16) := by
  unfold mviValue
  constructor <;> intro h <;> rw [h] <;> decide

/-- I4. -/
theorem test_mvih : next (at' 0#15 0xFAAB (State.reset.writeReg 7 0x1234#16)) (fun t => t.readReg 7 = 0xAB34#16) = true := by
  decide

/-- I5. -/
theorem test_mvil : next (at' 0#15 0xFBCD (State.reset.writeReg 7 0xAB34#16)) (fun t => t.readReg 7 = 0xABCD#16) = true := by
  decide

/-- I7. -/
theorem test_clc : next (at' 0#15 0xC400 (zcno true true false false State.reset)) (fun t => !t.flags.c && t.flags.z) = true := by
  decide

/-- I8. -/
theorem test_stc : next (at' 0#15 0xC500 State.reset) (fun t => t.flags.c && !t.flags.z) = true := by decide

/-- I9 and I10. -/
theorem test_cmc : next (at' 0#15 0xC600 (zcno false true false false State.reset)) (fun t => !t.flags.c) = true ∧
    next (at' 0#15 0xC600 State.reset) (fun t => t.flags.c) = true := by decide

/-! ## The boundary: vectors Q1 to Q10 and Z1, Z2; the instruction is a NOP at 0x0010 unless said otherwise -/

/-- The vectors of 60_exceptions.md R109 (S13). -/
theorem test_vectors : hwVector 0 = 0x7F00#15 ∧ hwVector 2 = 0x7F20#15 ∧ hwVector 15 = 0x7FF0#15 ∧
    swVector 0x20#8 = 0x7F20#15 ∧ swVector 0xF0#8 = 0x7FF0#15 ∧ swVector 0xFF#8 = 0x7FFF#15 := by decide

/-- Q1. -/
theorem test_raise_serviced : next (at' 0x0010#15 0x0000 (irq true 0x0008#16 0#16 [[3]]))
    (fun t => t.se && !t.flags.e && t.ra = 0x0011#15 && t.pc = 0x7F30#15) = true := by decide

/-- Q2. -/
theorem test_raise_masked : next (at' 0x0010#15 0x0000 (irq true 0#16 0#16 [[3]]))
    (fun t => t.ipend = 0x0008#16 && t.pc = 0x0011#15) = true := by decide

/-- Q3: the timer passes the mask. -/
theorem test_timer_bypasses_the_mask : next (at' 0x0010#15 0x0000 (irq true 0#16 0#16 [[15]]))
    (fun t => t.pc = 0x7FF0#15 && t.ra = 0x0011#15) = true := by decide

/-- Q4. -/
theorem test_raise_disabled : next (at' 0x0010#15 0x0000 (irq false 0xFFFF#16 0#16 [[15]]))
    (fun t => t.ipend = 0x8000#16 && t.pc = 0x0011#15) = true := by decide

/-- Q5. -/
theorem test_two_raises : next (at' 0x0010#15 0x0000 (irq true 0xFFFF#16 0#16 [[4, 2]]))
    (fun t => t.pc = 0x7F40#15 && t.ipend = 0x0004#16) = true := by decide

/-- Q6: a taken branch holds the raise. -/
theorem test_raise_held : next (at' 0x0010#15 0x1100 (irq true 0x0008#16 0#16 [[3]]))
    (fun t => t.jp && t.pc = 0x0011#15 && t.ipend = 0#16 && t.held = [3] && t.raises = []) = true := by decide

/-- Q6, the next boundary: the slot clears JP and the held raise is serviced. -/
theorem test_held_raise_is_presented_next :
    next (at' 0x0011#15 0x0000 { irq true 0x0008#16 0#16 [] with jp := true, jt := 0x0010#15, held := [3] })
      (fun t => t.pc = 0x7F30#15 && t.ra = 0x0010#15 && t.held = []) = true := by decide

/-- 20_memory.md R30: a timer that is not armed raises nothing, and one arming raises once. -/
theorem test_timer_needs_its_arming :
    next (at' 0x0010#15 0x0000 { irq true 0#16 0#16 [[15]] with timerArmed := 0 })
      (fun t => t.pc = 0x0011#15 && t.ipend = 0#16) = true ∧
    next (at' 0x0010#15 0x0000 (irq false 0#16 0#16 [[15], [15]]))
      (fun t => t.ipend = 0x8000#16 && t.timerArmed = 0) = true := by decide

/-- Q7: a pending timer needs its mask bit. -/
theorem test_pending_timer_masked : next (at' 0x0010#15 0x4400 (irq false 0#16 0x8000#16 []))
    (fun t => t.flags.e && t.ipend = 0x8000#16 && t.pc = 0x0011#15) = true := by decide

/-- Q9: in a delay slot the return address is the target. -/
theorem test_raise_in_a_slot : next (at' 0x0010#15 0x0000 { irq true 0x0002#16 0#16 [[1]] with jp := true, jt := 0x0200#15 })
    (fun t => t.ra = 0x0200#15 && t.pc = 0x7F10#15) = true := by decide

/-- Q10: a raise serviced at once leaves the pending bit. -/
theorem test_pending_bit_stays : next (at' 0x0010#15 0x0000 (irq true 0x0002#16 0x0002#16 [[1]]))
    (fun t => t.pc = 0x7F10#15 && t.ipend = 0x0002#16) = true := by decide

/-- Z1. -/
theorem test_reset_from_a_stop : (State.hostReset { irq true 0xFFFF#16 0xFFFF#16 [] with run := .illegal 3#15 0x1000#16, pc := 3#15 })
    = State.reset := by decide

/-- Z2: a raise right after reset pends. -/
theorem test_raise_after_reset : next (State.reset.hostDeliver 15) (fun t => t.ipend = 0x8000#16 && t.pc = 1#15) = true := by
  decide

/-! ## The toolchain contract -/

/-- S4: the reach of BR at 0x0100. -/
theorem test_branch_byte : branchByte 0x0100#15 0x0080#15 = some 0x80#8 ∧ branchByte 0x0100#15 0x01FF#15 = some 0xFF#8 ∧
    branchByte 0x0100#15 0x007F#15 = none ∧ branchByte 0x0100#15 0x0200#15 = none ∧
    branchByte 0x0100#15 0x017F#15 = some 0x7F#8 ∧ branchByte 0x0100#15 0x0180#15 = some 0x80#8 := by decide

/-- S9: the spellings of three words. -/
theorem test_spellings : aliasOf (.sub 0 3 4) = some (.cmp 3 4) ∧ aliasOf (.and 0 1 2) = some (.test 1 2) ∧
    aliasOf (.sub 1 0 1) = some (.neg 1) := by decide

/-- 30_encoding.md R57: the filler after BR and RTI, none after ADD, none with the option on. -/
theorem test_filler : assemble false [.br 4#8, .add 1 1 1, .rti] = [.br 4#8, .nop, .add 1 1 1, .rti, .nop] ∧
    assemble true [.br 4#8, .rti] = [.br 4#8, .rti] := by decide

/-- 30_encoding.md R59 at A = 0x7FF8: A + 8 is 0x8000, so the first word is MVIH R7, 80h. -/
theorem test_call_at_the_end_of_memory :
    expand false 0x7FF8#15 (.call 0x0123#16) =
      [.mvih 7 0x80#8, .mvil 7 0x00#8, .stor 6 7, .dec 6 6, .mvih 7 0x01#8, .mvil 7 0x23#8, .jmp 7, .nop] := by decide

/-! ## Witnesses: for each statement with hypotheses, concrete states and operands that meet all of them together -/

/-- A running state with three words from address 0x0100 on. -/
def words (w0 w1 w2 : Word) : State :=
  { State.reset with
    pc := 0x0100#15
    pmem := ((Memory.writeWord [] 0x0100#15 w0).writeWord 0x0101#15 w1).writeWord 0x0104#15 w2 }

theorem witness_EveryWordOfARowDecodesToThatRow :
    (⟨"JMP.NP", 0x2B00#16, 0xFF00#16, 0xFF07#16⟩ : OpRow) ∈ opcodeRows ∧ 0x2BFF#16 &&& 0xFF00#16 = 0x2B00#16 := by decide

theorem witness_IgnoredBitsDoNotChangeTheInstruction :
    decode 0x0FFF#16 = .ok .nop ∧ 0x0000#16 &&& (rowOf .nop).used = 0x0FFF#16 &&& (rowOf .nop).used := by decide

/-- Every `Encoded` clause has words: the fixed bits of each row are under its mask. -/
theorem witness_encoded_clauses : ∀ r ∈ opcodeRows, r.value &&& r.mask = r.value := by decide

theorem witness_StepRunsTheDecodedInstruction : let s := words 0x0000#16 0#16 0#16
    s.run = .running ∧ decode s.fetch = .ok .nop ∧ exec .nop s = .next (s.advance none) := ⟨rfl, by decide, rfl⟩

theorem witness_IllegalWordStopsTheCoreForGood : let s := words 0x8180#16 0#16 0#16
    s.run = .running ∧ illegalClass (s.pmem.readWord s.pc) ≠ none := by decide

theorem witness_StepKeepsTheStateSound : State.reset.Sound ∧ ∃ t, step State.reset = .next t :=
  ⟨⟨rfl, rfl, rfl, by decide⟩, _, rfl⟩

theorem witness_CanonicalMemoriesAreDeterminedByTheirReads :
    let m := Memory.writeWord [] 3#15 0x1234#16
    let m' := (Memory.writeWord [] 3#15 0x00FF#16).writeWord 3#15 0x1234#16
    m.wf = true ∧ m'.wf = true ∧ ∀ a : PAddr, m.readWord a = m'.readWord a :=
  ⟨by decide, by decide, fun _ => rfl⟩

/-- Each condition holds under some flags, and each but the first fails under some. -/
theorem witness_conditions : ∀ cond : Cond, (∃ f, CondHolds f cond) ∧ (cond ≠ .always → ∃ f, ¬ CondHolds f cond) := by
  intro cond
  constructor
  · cases cond <;> first
      | (refine ⟨⟨false, true, true, true, true⟩, ?_⟩; unfold CondHolds; decide)
      | (refine ⟨⟨false, false, false, false, false⟩, ?_⟩; unfold CondHolds; decide)
  · intro h
    cases cond <;> first
      | exact absurd rfl h
      | (refine ⟨⟨false, true, true, true, true⟩, ?_⟩; unfold CondHolds; decide)
      | (refine ⟨⟨false, false, false, false, false⟩, ?_⟩; unfold CondHolds; decide)

/-- Both clauses of NextPc have states. -/
theorem witness_next_pc : State.reset.jp = false ∧ ({ State.reset with jp := true } : State).jp = true := ⟨rfl, rfl⟩

/-- A branch at 0x0100 to 0x0104 whose slot is an INC. -/
theorem witness_TakenJumpLandsAfterItsDelaySlot : let s := words 0x1104#16 0x8948#16 0#16
    ∃ t, s.run = .running ∧ step s = .next t ∧ t.jp = true ∧ t.run = .running ∧ decode t.fetch = .ok (.inc 1 1) ∧
      (Instr.inc 1 1) ≠ .eni ∧ isSoftwareInterrupt (.inc 1 1) = false ∧ t.rescan = false ∧ t.raises = [] ∧
      t.held = [] ∧ s.jp = false :=
  ⟨_, rfl, rfl, by decide, by decide, by decide, by decide, rfl, by decide, by decide, by decide, rfl⟩

/-- Branches at 0x0100 and 0x0101 and a NOP at 0x0104. -/
theorem witness_BranchInADelaySlot : let s := words 0x1104#16 0x1108#16 0x0000#16
    ∃ t u, s.run = .running ∧ s.jp = false ∧ s.rescan = false ∧ s.raises = [] ∧ s.held = [] ∧
      decode s.fetch = .ok (.br 4#8) ∧
      step s = .next t ∧ decode t.fetch = .ok (.br 8#8) ∧ step t = .next u ∧ decode u.fetch = .ok .nop :=
  ⟨_, _, rfl, rfl, rfl, rfl, rfl, by decide, rfl, by decide, rfl, by decide⟩

/-- The last address before the I/O window and its first, the first and last of each copy of data memory. -/
theorem witness_data_addresses : (0xFEFF#16).toNat < 0xFF00 ∧ ¬ (0xFF00#16).toNat < 0xFF00 ∧
    busTarget 0x0000#16 = .dmem 0x0000#15 ∧ busTarget 0x7FFF#16 = .dmem 0x7FFF#15 ∧
    busTarget 0x8000#16 = .dmem 0x0000#15 ∧ busTarget 0xFEFF#16 = .dmem 0x7EFF#15 :=
  ⟨by decide, by decide, busTarget_dmem (by decide), busTarget_dmem (by decide), busTarget_dmem (by decide),
    busTarget_dmem (by decide)⟩

theorem witness_StorWritesTheDataBus : (regs2 6 0xFEFF#16 1 0x00AA#16).dmem.wf = true ∧
    ((regs2 6 0xFEFF#16 1 0x00AA#16).readReg 6).toNat < 0xFF00 ∧
    ¬ ((regs2 6 0xFF00#16 1 0x00AA#16).readReg 6).toNat < 0xFF00 := by decide

/-- Two registers that reach one word of data memory, 0x8000 apart. -/
theorem witness_LoadAfterStorReadsTheStoredWord : let s := regs2 1 0x0010#16 2 0x8010#16
    s.dmem.wf = true ∧ (3 : Reg) ≠ 0 ∧ (s.readReg 1).toNat < 0xFF00 ∧ (s.readReg 2).toNat < 0xFF00 := by decide

theorem witness_InterruptMaskReadsBackAllSixteenBits :
    (2 : Reg) ≠ 0 ∧ (regs2 1 Config.addrImask 3 0x8024#16).readReg 1 = Config.addrImask := ⟨by decide, rfl⟩

/-- Held requests first, then the scheduled ones, the timer's as often as it is armed; and with nothing scheduled the
held ones alone. -/
theorem witness_Presented :
    Presented { irq true 0#16 0#16 [[4, 15], [2]] with held := [3] } [3, 4, 15] [[2]] ∧
    Presented { irq true 0#16 0#16 [] with held := [3] } [3] [] :=
  ⟨⟨[4, 15], Or.inl rfl, by decide, rfl⟩, ⟨[], Or.inr ⟨rfl, rfl, rfl⟩, by decide, rfl⟩⟩

/-- ENI with requests at its boundary, in a slot and outside one. -/
theorem witness_EniStepServicesTheLowestReadySource : ∀ jp : Bool,
    let s := at' 0x0010#15 0x4400 { irq false 0x0034#16 0x8024#16 [[4, 15, 2]] with jp := jp, jt := 0x0200#15 }
    s.run = .running ∧ decode s.fetch = .ok .eni ∧ Presented s [4, 15, 2] [] ∧ s.jp = jp := fun jp =>
  ⟨rfl, by cases jp <;> decide, ⟨[4, 15, 2], Or.inl rfl, (by decide : 1 ≤ 1), rfl⟩, rfl⟩

/-- Its clauses: sources 2 and 5 ready; or none ready (the timer pends, masked), and then either a first request the
mask allows after one it does not, or no such request. -/
theorem witness_EniStepServicesTheLowestReadySource_clauses :
    LowestReady (irq false 0x0024#16 0x0024#16 []) 2 ∧ (∀ k, ¬ Ready (irq false 0x0010#16 0x8000#16 []) k) ∧
    (let s := irq false 0x0010#16 0x8000#16 []
     [3, 4, 15] = [3] ++ (4 : Source) :: [15] ∧ (∀ x ∈ [(3 : Source)], ¬ MaskAllows s x) ∧ MaskAllows s 4 ∧
       MaskAllows s 15 ∧ ∀ x ∈ [(3 : Source), 14], ¬ MaskAllows s x) := by
  unfold LowestReady Ready MaskAllows
  decide

/-- An RTI at 0x0100 with a NOP in its slot; source 2 ready or none. -/
theorem witness_RtiReturnsOrServicesAfterItsSlot : ∀ ip ∈ [0x0000#16, 0x0024#16],
    let s : State := { words 0x4600#16 0#16 0#16 with ipend := ip, imask := 0x0024#16 }
    ∃ t, s.run = .running ∧ s.jp = false ∧ decode s.fetch = .ok .rti ∧ s.raises = [] ∧ s.held = [] ∧
      step s = .next t ∧
      decode t.fetch = .ok .nop := by
  intro ip hip
  rw [List.mem_cons, List.mem_singleton] at hip
  rcases hip with rfl | rfl <;> exact ⟨_, rfl, rfl, by decide, rfl, rfl, rfl, by decide⟩

/-- In the first of these states no source is ready, in the second source 2 is the lowest. -/
theorem witness_RtiReturnsOrServicesAfterItsSlot_sources :
    (∀ k, ¬ Ready { words 0x4600#16 0#16 0#16 with ipend := 0x0000#16, imask := 0x0024#16 } k) ∧
    LowestReady { words 0x4600#16 0#16 0#16 with ipend := 0x0024#16, imask := 0x0024#16 } 2 := by
  unfold LowestReady Ready
  decide

/-- The interrupt mask's address lies in the I/O window, so LOAD's and STOR's clause about it has states. -/
theorem witness_mask_address : ¬ ((regs2 1 Config.addrImask 3 0x8024#16).readReg 1).toNat < 0xFF00 := by
  have h := (topByte_iff_window Config.addrImask).mp addrImask_in_window
  rw [show (regs2 1 Config.addrImask 3 0x8024#16).readReg 1 = Config.addrImask from rfl]
  omega

theorem witness_SoftwareInterruptComesFirstAtItsBoundary : ∀ jp : Bool,
    let s := at' 0x0010#15 0x47F0 { irq true 0xFFFF#16 0x0030#16 [[1, 15], [2]] with jp := jp, held := [3] }
    s.run = .running ∧ decode s.fetch = .ok (.int 0xF0#8) ∧ Presented s [3, 1, 15] [[2]] ∧ s.jp = jp := fun jp =>
  ⟨rfl, by cases jp <;> decide, ⟨[1, 15], Or.inl rfl, (by decide : 1 ≤ 1), rfl⟩, rfl⟩

/-- A taken branch, in whose boundary requests 2 (held), 3 and 15 are presented, and the next boundary's with 4 after
them. -/
theorem witness_NothingIsServicedBetweenAJumpAndItsSlot :
    let s : State := { words 0x1104#16 0#16 0#16 with raises := [[3, 15], [4]], held := [2], rescan := true }
    Presented s [2, 3, 15] [[4]] ∧
    ∃ t, s.run = .running ∧ step s = .next t ∧ t.jp = true ∧ t.run = .running ∧ s.rescan = true ∧
      Presented t [2, 3, 15, 4] [] :=
  ⟨⟨[3, 15], Or.inl rfl, by decide, rfl⟩,
    ⟨_, rfl, rfl, by decide, by decide, rfl, ⟨[4], Or.inl (by decide), by decide, by decide⟩⟩⟩

/-- A request that is serviced (source 3 unmasked; the timer masked) and one that pends (masked; or E = 0). -/
theorem witness_HardwareRequestIsServicedOrPends :
    (∀ p ∈ [(irq true 0x0008#16 0#16 [[3]], (3 : Source)), (irq true 0#16 0#16 [[15]], 15),
      (irq true 0#16 0#16 [[14]], 14), (irq false 0xFFFF#16 0#16 [[15]], 15)],
      p.1.jp = false ∧ p.1.rescan = false ∧ Presented p.1 [p.2] []) ∧
    Qualifies (irq true 0x0008#16 0#16 [[3]]) 3 ∧ Qualifies (irq true 0#16 0#16 [[15]]) 15 ∧
    ¬ Qualifies (irq true 0#16 0#16 [[14]]) 14 ∧ ¬ Qualifies (irq false 0xFFFF#16 0#16 [[15]]) 15 := by
  refine ⟨fun p hp => ?_, ?_⟩
  · simp only [List.mem_cons, List.not_mem_nil, or_false] at hp
    rcases hp with rfl | rfl | rfl | rfl <;> exact ⟨rfl, rfl, _, Or.inl rfl, by decide, rfl⟩
  · unfold Qualifies MaskAllows
    decide

/-- A masked request first, then one that qualifies, then the timer and another. -/
theorem witness_RequestsAfterAServicePend : let s := irq true 0x0010#16 0#16 [[3, 4, 15, 2], []]
    s.jp = false ∧ s.rescan = false ∧ Presented s ([3] ++ 4 :: [15, 2]) [[]] ∧
      (∀ x ∈ [(3 : Source)], ¬ Qualifies s x) ∧ Qualifies s 4 := by
  refine ⟨rfl, rfl, ⟨_, Or.inl rfl, by decide, rfl⟩, ?_⟩
  unfold Qualifies MaskAllows
  decide

theorem witness_RequestsPendWhileInterruptsAreDisabled : let s := irq false 0xFFFF#16 0#16 [[4, 15], []]
    s.jp = false ∧ s.rescan = false ∧ s.flags.e = false ∧ Presented s [4, 15] [[]] :=
  ⟨rfl, rfl, rfl, ⟨_, Or.inl rfl, by decide, rfl⟩⟩

/-- One arming and a second request of source 15; an unarmed timer and a first one. -/
theorem witness_TimerRequestsBeyondTheArmingsAreNotRaised :
    (let s := irq true 0#16 0#16 [[3, 15, 15, 4], [15]]
     s.raises = ([3, 15] ++ 15 :: [4]) :: [[15]] ∧ s.timerArmed ≤ [3, 15].count (15 : Source)) ∧
    (let s : State := { irq true 0#16 0#16 [[15]] with timerArmed := 0 }
     s.raises = ([] ++ 15 :: []) :: [] ∧ s.timerArmed ≤ [].count (15 : Source)) := by decide

/-- Requests scheduled, the timer's among them, at a step that leaves a silent timer alone: a NOP, and a STOR to data
memory. -/
theorem witness_ASilentTimerStaysSilentUntilItIsArmed : ∀ w ∈ [0x0000#16, 0x4331#16],
    let s : State := { words w 0#16 0#16 with raises := [[3, 15], [4]], timerArmed := 0 }
    (15 : Source) ∉ s.held ∧ s.ipend.getLsbD 15 = false ∧ (∃ t, step s = .next t) ∧ s.timerArmed = 0 ∧
      ¬ StoresToTimer s .arm ∧ s.run = .running ∧
      ∃ i u, decode s.fetch = .ok i ∧ exec i s = .next u ∧ u.raises = [3, 15] :: [[4]] := by
  intro w hw
  rw [List.mem_cons, List.mem_singleton] at hw
  rcases hw with rfl | rfl
  · refine ⟨by decide, rfl, ⟨_, rfl⟩, rfl, ?_, rfl, .nop, _, by decide, rfl, rfl⟩
    rintro ⟨-, ra, rb, r, h, -⟩
    cases (show decode (words 0x0000#16 0#16 0#16).fetch = .ok .nop by decide).symm.trans h
  · refine ⟨by decide, rfl, ⟨_, rfl⟩, rfl, ?_, rfl, .stor 6 1, _, by decide, rfl, busWrite_raises _ _ _⟩
    rintro ⟨-, ra, rb, r, h, ⟨hlo, -⟩, -⟩
    cases (show decode (words 0x4331#16 0#16 0#16).fetch = .ok (.stor 6 1) by decide).symm.trans h
    exact absurd hlo (by decide)

/-- A STOR that disarms an armed timer, where 0xFF00 is its control register and the value disarms it. -/
theorem witness_ASilentTimerStaysSilentUntilItIsArmed_disarming (ha : Config.addrImask ≠ 0xFF00#16)
    (hm : Config.ioMap 0xFF00#16 = some .timerControl) (hd : Config.timerEffect [] .timerControl 0#16 = .disarm) :
    let s := at' 0x0010#15 0x4331 (State.reset.writeReg 6 0xFF00#16)
    s.timerArmed = 1 ∧ (15 : Source) ∉ s.held ∧ s.ipend.getLsbD 15 = false ∧ StoresToTimer s .disarm :=
  ⟨rfl, by decide, rfl, rfl, 6, 1, .timerControl, by decide, ⟨by decide, ha.symm, hm, .inr rfl⟩, hd⟩

theorem witness_EmittedBranchesAreFollowedByAFiller :
    (assemble false [.add 1 1 1, .rti])[1]? = some .rti ∧ BranchClass .rti ∧ BranchClass (.brNz 4#8) ∧
    BranchClass (.jmp 7) ∧ BranchClass (.jalNp 7) ∧ ¬ BranchClass (.add 1 1 1) := by
  refine ⟨by decide, .inr (.inr (.inr rfl)), .inl ⟨.nz, _, rfl⟩, .inr (.inl ⟨.always, _, rfl⟩),
    .inr (.inr (.inl ⟨.np, _, rfl⟩)), ?_⟩
  rintro (⟨cond, _, h⟩ | ⟨cond, _, h⟩ | ⟨cond, _, h⟩ | h)
  · cases cond <;> cases h
  · cases cond <;> cases h
  · cases cond <;> cases h
  · cases h

/-- ENI with source 2 ready: its pending bit is cleared. -/
theorem witness_APendingBitIsClearedOnlyByItsService : let s := at' 0x0005#15 0x4400 (irq false 0x0004#16 0x0004#16 [])
    ∃ t, step s = .next t ∧ s.ipend.getLsbD 2 = true ∧ t.ipend.getLsbD 2 = false :=
  ⟨_, rfl, by decide, by decide⟩

theorem witness_SavedAndPendingInterruptStateIsInvisible :
    Instr.nop ≠ .rti ∧ exec .nop State.reset = .next (State.reset.advance none) ∧
    exec .rti State.reset = .next State.reset.returnFromInterrupt := ⟨by decide, rfl, rfl⟩

/-- Sums and differences on either side of the signed range; every instruction of the statement has a next state. -/
theorem witness_OverflowMeansTheSignedResultDoesNotFit : ∀ a b : Reg, ∀ s : State,
    ∃ t1 t2 t3 t4 t5 t6, exec (.add 1 a b) s = .next t1 ∧ exec (.addc 1 a b) s = .next t2 ∧ exec (.sub 1 a b) s = .next t3 ∧
      exec (.subb 1 a b) s = .next t4 ∧ exec (.dec 1 a) s = .next t5 ∧ exec (.inc 1 a) s = .next t6 :=
  fun _ _ _ => ⟨_, _, _, _, _, _, rfl, rfl, rfl, rfl, rfl, rfl⟩

theorem witness_AddThenAddcAddsThirtyTwoBits :
    (1 : Reg) ≠ 0 ∧ (2 : Reg) ≠ 0 ∧ (1 : Reg) ≠ 2 ∧ (1 : Reg) ≠ 3 ∧ (1 : Reg) ≠ 4 := by decide

theorem witness_FullTurnsOfTheRotatesRestoreTheOperand : (1 : Reg) ≠ 0 ∧ (State.reset.writeReg 1 0x8001#16).readReg 1 = 0x8001#16 := by
  decide

/-- An instruction outside each class of the statement, and one inside. -/
theorem witness_EachFlagIsWrittenOnlyByItsInstructions :
    (isArith (.int 0#8) || isLogic (.int 0#8) || isShift (.int 0#8)) = false ∧
    (isArith (.and 1 1 1) || isShift (.and 1 1 1) || isCarry (.and 1 1 1)) = false ∧
    (isArith (.shl 1 1) || isShla (.shl 1 1)) = false ∧ writesE (.add 1 1 1) = false ∧
    ∃ t, exec (.shl 1 1) State.reset = .next t := ⟨rfl, rfl, rfl, rfl, _, rfl⟩

/-- Each of the two values of the parameter has a word; which of them holds is open (log 1). -/
theorem witness_MviWritesTheWidenedImmediate : Config.mviExt = .sign ∨ Config.mviExt = .zero := by
  cases Config.mviExt <;> simp

/-- The ends of every range of the displacement: −129, −128, 127, 128, 255 and 256 from 0x0100. -/
theorem witness_AssembledBranch : ∀ p ∈ [(0x007F#15, (-129 : Int)), (0x0080#15, -128), (0x017F#15, 127), (0x0180#15, 128),
    (0x01FF#15, 255), (0x0200#15, 256)], ((p.1.toNat : Int) - (0x0100#15).toNat) = p.2 := by decide

/-- The stack at 0x7EFF and at the last address before the I/O window. -/
theorem witness_PopReturnsWhatPushStored :
    State.reset.dmem.wf = true ∧ (1 : Reg) ≠ 0 ∧ (1 : Reg) ≠ 6 ∧
    ((State.reset.writeReg 6 0x7EFF#16).readReg 6).toNat < 0xFF00 ∧
    ((State.reset.writeReg 6 0xFEFF#16).readReg 6).toNat < 0xFF00 := ⟨rfl, by decide, by decide, by decide, by decide⟩

theorem witness_RetJumpsToTheWordAfterTheCall : let s := State.reset.writeReg 6 0x7EFF#16
    s.dmem.wf = true ∧ (s.readReg 6).toNat < 0xFF00 := by decide

end Sys2Proof.Tests
end

section
/-! PROOF. The state is sound after reset and after every step (10_state.md R11, R21; log 9). -/

namespace Sys2Proof.Machine

/-! ## What keeps a state sound -/

/-- Soundness speaks of the memories and the registers only. -/
theorem State.Sound.of_same {s u : State} (hs : s.Sound) (hpmem : u.pmem = s.pmem) (hdmem : u.dmem = s.dmem)
    (hinit : u.dmemInit = s.dmemInit) (hregs : u.regs = s.regs) : u.Sound where
  pmem := hpmem ▸ hs.pmem
  dmem := hdmem ▸ hs.dmem
  dmemInit := hinit ▸ hs.dmemInit
  r0 := by simp only [hregs, hs.r0]

theorem Kept.sound {s u : State} (h : Kept s u) (hs : s.Sound) : u.Sound where
  pmem := h.pmem ▸ hs.pmem
  dmem := h.dmemWf hs.dmem
  dmemInit := h.dmemInit ▸ hs.dmemInit
  r0 := h.r0 hs.r0

theorem advance_sound {s : State} (hs : s.Sound) (take : Option PAddr) : (s.advance take).Sound :=
  hs.of_same rfl rfl rfl rfl

theorem service_sound {s : State} (hs : s.Sound) (v : PAddr) : (s.service v).Sound :=
  hs.of_same rfl rfl rfl rfl

theorem stopIllegal_sound {s : State} (hs : s.Sound) : s.stopIllegal.Sound :=
  hs.of_same rfl rfl rfl rfl

/-- The arbiter touches neither a memory nor a register. -/
theorem boundary_sound {s : State} (hs : s.Sound) (serviced : Bool) : (s.boundary serviced).Sound :=
  hs.of_same (boundary_pmem s serviced) (boundary_dmem s serviced) (boundary_dmemInit s serviced)
    (boundary_regs s serviced)

theorem exec_sound {i : Instr} {s t : State} (hs : s.Sound) (h : exec i s = .next t) : t.Sound := by
  rcases exec_shape h with ⟨u, take, rfl, hkept, -⟩ | ⟨n, -, rfl⟩
  · exact advance_sound (hkept.sound hs) take
  · exact service_sound (advance_sound hs none) _

/-! ## The statements -/

/-- Settles O11. -/
theorem resetStateIsSound : Obligations.ResetStateIsSound := by
  obtain ⟨hpmem, hdmem, hinit⟩ := reset_memories_wf
  exact ⟨hpmem, hdmem, hinit, by decide⟩

/-- Settles O10: each of the three ways a step can go keeps the state sound. -/
theorem stepKeepsTheStateSound : Obligations.StepKeepsTheStateSound := by
  intro s t hs h
  rcases step_cases h with ⟨-, rfl⟩ | ⟨-, -, rfl⟩ | ⟨-, i, u, -, hu, rfl⟩
  · exact hs
  · exact stopIllegal_sound hs
  · exact boundary_sound (exec_sound hs hu) _

end Sys2Proof.Machine
end

section
/-! PROOF. SE, RA, IPEND and RESCAN are invisible to an instruction's own effect (10_state.md R17, 60_exceptions.md
R117): every operation commutes with putting other values into these four registers. -/

namespace Sys2Proof.Machine

open Sys2Proof.Claims

/-- The state with other values in IPEND, SE, RA and RESCAN. -/
def State.withSaved (s : State) (ip : Word) (se : Bool) (ra : PAddr) (rs : Bool) : State :=
  { s with ipend := ip, se := se, ra := ra, rescan := rs }

theorem sameOutcome_withSaved (s : State) (ip : Word) (se : Bool) (ra : PAddr) (rs : Bool) :
    SameOutcome s (s.withSaved ip se ra rs) :=
  ⟨rfl, rfl, rfl, rfl, rfl, rfl, rfl, rfl, rfl, rfl, rfl, rfl, rfl, rfl⟩

section
variable (s : State) (ip : Word) (se : Bool) (ra : PAddr) (rs : Bool)

/-! ## One commuting rule per operation -/

@[simp] theorem withSaved_flags : (s.withSaved ip se ra rs).flags = s.flags := rfl

@[simp] theorem withSaved_pc : (s.withSaved ip se ra rs).pc = s.pc := rfl

@[simp] theorem withSaved_readReg (i : Reg) : (s.withSaved ip se ra rs).readReg i = s.readReg i := rfl

@[simp] theorem withSaved_writeReg (i : Reg) (v : Word) :
    (s.withSaved ip se ra rs).writeReg i v = (s.writeReg i v).withSaved ip se ra rs := rfl

@[simp] theorem withSaved_advance (take : Option PAddr) :
    (s.withSaved ip se ra rs).advance take = (s.advance take).withSaved ip se ra rs := rfl

/-- The value of a device read rests on the accesses before it alone (log 4). -/
@[simp] theorem withSaved_busRead (a : Word) :
    (s.withSaved ip se ra rs).busRead a = ((s.busRead a).1, (s.busRead a).2.withSaved ip se ra rs) := by
  unfold State.busRead
  cases busTarget a <;> rfl

@[simp] theorem withSaved_busWrite (a v : Word) :
    (s.withSaved ip se ra rs).busWrite a v = (s.busWrite a v).withSaved ip se ra rs := by
  unfold State.busWrite
  cases busTarget a <;> rfl

theorem withSaved_jumpLinkOn {t : State} {cond : Cond} {r : Reg} (h : jumpLinkOn cond r s = .next t) :
    jumpLinkOn cond r (s.withSaved ip se ra rs) = .next (t.withSaved ip se ra rs) := by
  rcases jumpLinkOn_cases h with ⟨hc, rfl⟩ | ⟨hc, rfl⟩ <;> simp [jumpLinkOn, hc]

end

/-! ## Instructions -/

/-- The instructions that write one of the four registers: ENI, RTI and INT. -/
def writesSaved : Instr → Bool
  | .eni | .rti | .int _ => true
  | _ => false

/-- Every instruction but these three commutes with putting other values into the four registers. -/
theorem exec_withSaved_of_not_writesSaved {i : Instr} {s t : State} (hi : writesSaved i = false)
    (h : exec i s = .next t) (ip : Word) (se : Bool) (ra : PAddr) (rs : Bool) :
    exec i (s.withSaved ip se ra rs) = .next (t.withSaved ip se ra rs) := by
  cases i with
  | eni | rti | int n => cases hi
  | jal r | jalZ r | jalNz r | jalC r | jalNc r | jalN r | jalNn r | jalO r | jalNo r | jalP r | jalNp r =>
    exact withSaved_jumpLinkOn s ip se ra rs h
  | load rd a =>
    cases h
    simp [exec, execLoad]
  | stor a b =>
    cases h
    simp [exec, execStor]
  | _ =>
    cases h
    rfl

/-- Only an interrupt's service writes SE and RA (10_state.md R17). -/
theorem exec_keeps_se_ra {i : Instr} {s t : State} (hi : isSoftwareInterrupt i = false) (h : exec i s = .next t) :
    t.se = s.se ∧ t.ra = s.ra := by
  rcases exec_shape h with ⟨u, take, rfl, hkept, -⟩ | ⟨n, rfl, -⟩
  · exact ⟨hkept.se, hkept.ra⟩
  · cases hi

/-- An instruction goes the same way whatever the four registers hold, where RTI must find the same SE and RA; and
with the same SE and RA before it, they are the same after it. -/
theorem exec_withSaved {i : Instr} {s t : State} (h : exec i s = .next t) (ip : Word) (se : Bool) (ra : PAddr)
    (rs : Bool) (hrti : i = .rti → se = s.se ∧ ra = s.ra) :
    ∃ ip' se' ra' rs', exec i (s.withSaved ip se ra rs) = .next (t.withSaved ip' se' ra' rs') ∧
      (se = s.se → se' = t.se) ∧ (ra = s.ra → ra' = t.ra) := by
  cases hw : writesSaved i with
  | false =>
    have hint : isSoftwareInterrupt i = false := by
      cases i with
      | int n => cases hw
      | _ => rfl
    obtain ⟨hse, hra⟩ := exec_keeps_se_ra hint h
    exact ⟨ip, se, ra, rs, exec_withSaved_of_not_writesSaved hw h ip se ra rs, fun e => e.trans hse.symm,
      fun e => e.trans hra.symm⟩
  | true =>
    cases i with
    | eni =>
      cases h
      exact ⟨ip, se, ra, true, rfl, id, id⟩
    | rti =>
      obtain ⟨rfl, rfl⟩ := hrti rfl
      cases h
      exact ⟨ip, s.se, s.ra, true, rfl, id, id⟩
    | int n =>
      cases h
      exact ⟨ip, s.flags.e, (s.advance none).pc, rs, rfl, fun _ => rfl, fun _ => rfl⟩
    | _ => cases hw

/-- Settles O39: the state with other values in the four registers is `withSaved` of the given one. -/
theorem savedAndPendingInterruptStateIsInvisible : Obligations.SavedAndPendingInterruptStateIsInvisible := by
  intro i s t ip rs h
  refine ⟨fun se ra hi => ?_, ?_⟩
  · obtain ⟨ip', se', ra', rs', hu, -, -⟩ := exec_withSaved h ip se ra rs (fun e => absurd e hi)
    exact ⟨_, hu, sameOutcome_withSaved t ip' se' ra' rs'⟩
  · obtain ⟨ip', se', ra', rs', hu, hse, hra⟩ := exec_withSaved h ip s.se s.ra rs (fun _ => ⟨rfl, rfl⟩)
    exact ⟨_, hu, sameOutcome_withSaved t ip' se' ra' rs', hse rfl, hra rfl⟩

end Sys2Proof.Machine
end

section
/-! PROOF. Which instructions write which flag (10_state.md R15). -/

namespace Sys2Proof.Machine

open Sys2Proof.Claims

/-- The ways an instruction's own effect takes the flags f to the flags g: through the ALU, which leaves E always, C
for the logic unit, and O for all but the arithmetic unit and SHLA (42_alu.md R80); through C alone; through E alone;
or not at all. -/
inductive FlagEffect (i : Instr) (f : Flags) : Flags → Prop where
  | alu (out : AluOut) (instrs : (isArith i || isLogic i || isShift i) = true)
      (carry : isLogic i = true → out.carry = none)
      (overflow : (isArith i || isShla i) = false → out.overflow = none) : FlagEffect i f (out.flags f)
  | carry (b : Bool) (instrs : isCarry i = true) : FlagEffect i f { f with c := b }
  | enable (b : Bool) (instrs : writesE i = true) : FlagEffect i f { f with e := b }
  | same : FlagEffect i f f

theorem jumpLinkOn_flags {cond : Cond} {rs : Reg} {s t : State} (h : jumpLinkOn cond rs s = .next t) :
    t.flags = s.flags := by
  rcases jumpLinkOn_cases h with ⟨-, rfl⟩ | ⟨-, rfl⟩ <;> rfl

theorem execLoad_flags {rd ra : Reg} {s t : State} (h : execLoad rd ra s = .next t) : t.flags = s.flags := by
  cases h
  exact busRead_flags s _

theorem execStor_flags {ra rb : Reg} {s t : State} (h : execStor ra rb s = .next t) : t.flags = s.flags := by
  cases h
  exact busWrite_flags s _ _

/-- What an instruction does to the flags, said once. -/
theorem exec_flagEffect {i : Instr} {s t : State} (h : exec i s = .next t) : FlagEffect i s.flags t.flags := by
  cases i with
  | add | sub | addc | subb | dec | inc | shla =>
    cases h
    exact .alu _ rfl nofun nofun
  | com | and | or | xor =>
    cases h
    exact .alu (logicOut _) rfl (fun _ => rfl) (fun _ => rfl)
  | shr | shl | shra | ror | rol | rorc | rolc =>
    cases h
    exact .alu (shiftOut _ _) rfl nofun (fun _ => rfl)
  | clc | stc | cmc =>
    cases h
    exact .carry _ rfl
  | eni | dsi | rti | int =>
    cases h
    exact .enable _ rfl
  | jal | jalZ | jalNz | jalC | jalNc | jalN | jalNn | jalO | jalNo | jalP | jalNp =>
    rw [jumpLinkOn_flags h]
    exact .same
  | load =>
    rw [execLoad_flags h]
    exact .same
  | stor =>
    rw [execStor_flags h]
    exact .same
  | _ =>
    cases h
    exact .same

/-- What each of these ways leaves, flag by flag (10_state.md R15). -/
theorem FlagEffect.keeps {i : Instr} {f g : Flags} (h : FlagEffect i f g) :
    ((isArith i || isLogic i || isShift i) = false → g.z = f.z ∧ g.n = f.n) ∧
    ((isArith i || isShift i || isCarry i) = false → g.c = f.c) ∧
    ((isArith i || isShla i) = false → g.o = f.o) ∧
    (writesE i = false → g.e = f.e) := by
  cases h with
  | same => exact ⟨fun _ => ⟨rfl, rfl⟩, fun _ => rfl, fun _ => rfl, fun _ => rfl⟩
  | carry b hinstrs => exact ⟨fun _ => ⟨rfl, rfl⟩, fun hc => by simp [hinstrs] at hc, fun _ => rfl, fun _ => rfl⟩
  | enable b hinstrs => exact ⟨fun _ => ⟨rfl, rfl⟩, fun _ => rfl, fun _ => rfl, fun he => by simp [hinstrs] at he⟩
  | alu out hunit hcarry hoverflow =>
    refine ⟨fun hzn => ?_, fun hc => ?_, fun ho => ?_, fun _ => rfl⟩
    · simp [hunit] at hzn
    · obtain ⟨⟨harith, hshift⟩, -⟩ : (isArith i = false ∧ isShift i = false) ∧ isCarry i = false := by simpa using hc
      have hlogic : isLogic i = true := by simpa [harith, hshift] using hunit
      simp [AluOut.flags, hcarry hlogic]
    · simp [AluOut.flags, hoverflow ho]

/-- Settles O50: every instruction takes the flags one of the ways of `FlagEffect`. -/
theorem eachFlagIsWrittenOnlyByItsInstructions : Obligations.EachFlagIsWrittenOnlyByItsInstructions := by
  intro i s t h
  exact (exec_flagEffect h).keeps

end Sys2Proof.Machine
end

section
/-! PROOF. Program memory is read only (20_memory.md R23, R38), and the canonical form of a memory is unique
(log 9). -/

namespace Sys2Proof.Machine

/-! ## What holds along every run -/

/-- What every step keeps holds after every run. -/
theorem after_keeps {P : State → Prop} (hstep : ∀ s t, P s → step s = .next t → P t) {s : State} (h : P s)
    (n : Nat) : P (s.after n) := by
  induction n generalizing s with
  | zero => exact h
  | succ n ih =>
    unfold State.after
    split
    · rename_i t ht
      exact ih (hstep s t h ht)
    · exact h
    · exact h

/-- No instruction writes program memory (R23). -/
theorem exec_pmem {i : Instr} {s t : State} (h : exec i s = .next t) : t.pmem = s.pmem := by
  rcases exec_shape h with ⟨u, take, rfl, hkept, -⟩ | ⟨n, -, rfl⟩
  · exact hkept.pmem
  · rfl

theorem step_pmem {s t : State} (h : step s = .next t) : t.pmem = s.pmem := by
  rcases step_cases h with ⟨-, rfl⟩ | ⟨-, -, rfl⟩ | ⟨-, i, u, -, hu, rfl⟩
  · rfl
  · rfl
  · rw [boundary_pmem, exec_pmem hu]

/-- Settles O9: each step keeps program memory, so each run does. -/
theorem noRunChangesProgramMemory : Obligations.NoRunChangesProgramMemory := fun s =>
  after_keeps (P := fun t => t.pmem = s.pmem) (fun _ _ ht hstep => (step_pmem hstep).trans ht) rfl

/-! ## Canonical memories -/

/-- The low byte of a word is in its even cell. -/
theorem readWord_lowByte (m : Memory) (a : PAddr) : (m.readWord a).extractLsb' 0 8 = m.readByte (2 * a.toNat) :=
  BitVec.extractLsb'_append_eq_right

/-- The high byte of a word is in its odd cell. -/
theorem readWord_highByte (m : Memory) (a : PAddr) :
    (m.readWord a).extractLsb' 8 8 = m.readByte (2 * a.toNat + 1) :=
  BitVec.extractLsb'_append_eq_left

/-- Memories with the same words have the same 65536 cells. -/
theorem readByte_eq_of_readWord_eq {m m' : Memory} (h : ∀ a : PAddr, m.readWord a = m'.readWord a) {k : Nat}
    (hk : k < 65536) : m.readByte k = m'.readByte k := by
  obtain ⟨a, ha⟩ : ∃ a : PAddr, a.toNat = k / 2 := ⟨BitVec.ofNat 15 (k / 2), by simp; omega⟩
  rcases Nat.mod_two_eq_zero_or_one k with hpar | hpar
  · rw [show k = 2 * a.toNat by omega, ← readWord_lowByte, ← readWord_lowByte, h]
  · rw [show k = 2 * a.toNat + 1 by omega, ← readWord_highByte, ← readWord_highByte, h]

theorem wfFrom_cons {lo k : Nat} {b : Byte} {rest : Memory} :
    Memory.wfFrom lo ((k, b) :: rest) = true ↔
      lo ≤ k ∧ k < 65536 ∧ b ≠ 0#8 ∧ Memory.wfFrom (k + 1) rest = true := by
  simp [Memory.wfFrom, and_assoc]

/-- The first listed cell of a canonical memory is not 0, and a canonical memory that begins after it reads 0 there. -/
theorem readByte_head_ne {lo k : Nat} {b : Byte} {rest m : Memory} (h : Memory.wfFrom lo ((k, b) :: rest) = true)
    (hm : Memory.wfFrom (k + 1) m = true) : Memory.readByte ((k, b) :: rest) k ≠ m.readByte k := by
  obtain ⟨-, -, hb, -⟩ := wfFrom_cons.mp h
  rw [readByte_below hm (Nat.lt_succ_self k)]
  simpa [Memory.readByte] using hb

/-- A canonical memory is known by its 65536 cells: its first listed cell is the first that does not read 0. -/
theorem eq_of_readByte_eq {lo lo' : Nat} {m m' : Memory} (h : Memory.wfFrom lo m = true)
    (h' : Memory.wfFrom lo' m' = true) (hread : ∀ k < 65536, m.readByte k = m'.readByte k) : m = m' := by
  induction m generalizing lo lo' m' with
  | nil =>
    cases m' with
    | nil => rfl
    | cons c' rest' =>
      obtain ⟨-, hk', -⟩ := wfFrom_cons.mp h'
      exact absurd (hread _ hk').symm (readByte_head_ne h' rfl)
  | cons c rest ih =>
    obtain ⟨k, b⟩ := c
    obtain ⟨-, hk, hb, hrest⟩ := wfFrom_cons.mp h
    cases m' with
    | nil => exact absurd (hread k hk) (readByte_head_ne h rfl)
    | cons c' rest' =>
      obtain ⟨k', b'⟩ := c'
      obtain ⟨-, hk', hb', hrest'⟩ := wfFrom_cons.mp h'
      rcases Nat.lt_trichotomy k k' with hlt | rfl | hgt
      · exact absurd (hread k hk) (readByte_head_ne h (wfFrom_cons.mpr ⟨hlt, hk', hb', hrest'⟩))
      · have hbb : b = b' := by simpa [Memory.readByte] using hread k hk
        have htail : ∀ j < 65536, Memory.readByte rest j = Memory.readByte rest' j := by
          intro j hj
          by_cases hjk : j = k
          · rw [readByte_below hrest (by omega), readByte_below hrest' (by omega)]
          · simpa [Memory.readByte, hjk] using hread j hj
        rw [hbb, ih hrest hrest' htail]
      · exact absurd (hread k' hk').symm (readByte_head_ne h' (wfFrom_cons.mpr ⟨hgt, hk, hb, hrest⟩))

/-- Settles O12: memories with the same words have the same cells, which a canonical memory is known by. -/
theorem canonicalMemoriesAreDeterminedByTheirReads : Obligations.CanonicalMemoriesAreDeterminedByTheirReads :=
  fun _ _ h h' hread => eq_of_readByte_eq h h' fun _ hk => readByte_eq_of_readWord_eq hread hk

end Sys2Proof.Machine
end

section
/-! PROOF. What STOR wrote, LOAD reads: a word of data memory, under both of its addresses (20_memory.md R25, R36), and
IMASK (R28). -/

namespace Sys2Proof.Machine

open Sys2Proof.Claims

/-! ## The data bus, by the address -/

/-- Below the I/O window an address reaches the word of DMEM that its low 15 bits name (20_memory.md R24, R25). -/
theorem busTarget_of_lt {a : Word} (h : a.toNat < 0xFF00) :
    busTarget a = .dmem (BitVec.ofNat 15 (a.toNat % 32768)) := by
  have hout : a.extractLsb' 8 8 ≠ 0xFF#8 := fun hin => absurd ((topByte_iff_window a).mp hin) (by omega)
  have hmask : a.setWidth 15 = BitVec.ofNat 15 (a.toNat % 32768) := BitVec.eq_of_toNat_eq (by simp)
  rw [busTarget_dmem hout, hmask]

theorem busRead_of_lt (s : State) {a : Word} (h : a.toNat < 0xFF00) :
    s.busRead a = (s.dmem.readWord (BitVec.ofNat 15 (a.toNat % 32768)), s) := by
  simp only [State.busRead, busTarget_of_lt h]

theorem busWrite_of_lt (s : State) {a : Word} (v : Word) (h : a.toNat < 0xFF00) :
    s.busWrite a v = { s with dmem := s.dmem.writeWord (BitVec.ofNat 15 (a.toNat % 32768)) v } := by
  simp only [State.busWrite, busTarget_of_lt h]

theorem busRead_addrImask (s : State) : s.busRead Config.addrImask = (s.imask, s) := by
  simp only [State.busRead, busTarget_imask]

theorem busWrite_addrImask (s : State) (v : Word) : s.busWrite Config.addrImask v = { s with imask := v } := by
  simp only [State.busWrite, busTarget_imask]

@[simp] theorem readReg_busWrite (s : State) (a v : Word) (j : Reg) : (s.busWrite a v).readReg j = s.readReg j :=
  readReg_congr (busWrite_regs s a v) j

/-! ## LOAD and STOR -/

theorem exec_load (rd ra : Reg) (s : State) :
    exec (.load rd ra) s =
      .next (((s.busRead (s.readReg ra)).2.writeReg rd (s.busRead (s.readReg ra)).1).advance none) := rfl

theorem exec_stor (ra rb : Reg) (s : State) :
    exec (.stor ra rb) s = .next ((s.busWrite (s.readReg ra) (s.readReg rb)).advance none) := rfl

theorem execAll_cons {i : Instr} {s t : State} (l : List Instr) (h : exec i s = .next t) :
    execAll (i :: l) s = execAll l t := by
  rw [execAll, h]

/-- STOR then LOAD: the bus read happens in the state that the bus write left. -/
theorem execAll_stor_load (ra rb rd rc : Reg) (s : State) :
    execAll [.stor ra rb, .load rd rc] s =
      .next ((((((s.busWrite (s.readReg ra) (s.readReg rb)).advance none).busRead (s.readReg rc)).2.writeReg rd
        (((s.busWrite (s.readReg ra) (s.readReg rb)).advance none).busRead (s.readReg rc)).1)).advance none) := by
  rw [execAll_cons _ (exec_stor ra rb s), execAll_cons _ (exec_load rd rc _), execAll, readReg_advance,
    readReg_busWrite]

/-- A destination other than R0 reads the value written to it. -/
theorem readReg_writeReg_self {rd : Reg} (s : State) (v : Word) (h : rd ≠ 0) : (s.writeReg rd v).readReg rd = v := by
  rw [readReg_writeReg, if_neg h, if_pos rfl]

/-- A word read after a word write, by the two word addresses as numbers. -/
theorem readWord_writeWord {m : Memory} (h : m.wf = true) (a b : PAddr) (v : Word) :
    (m.writeWord a v).readWord b = if a.toNat = b.toNat then v else m.readWord b := by
  split
  · rename_i heq
    rw [BitVec.eq_of_toNat_eq heq, readWord_writeWord_same h]
  · rename_i hne
    exact readWord_writeWord_other m v fun heq => hne (congrArg BitVec.toNat heq.symm)

/-- Settles O24: both addresses reach data memory, through their low 15 bits only. -/
theorem loadAfterStorReadsTheStoredWord : Obligations.LoadAfterStorReadsTheStoredWord := by
  intro ra rb rc rd s hwf hrd hra hrc
  refine ⟨_, execAll_stor_load ra rb rd rc s, ?_⟩
  rw [busWrite_of_lt s _ hra, busRead_of_lt _ hrc, readReg_advance, readReg_writeReg_self _ _ hrd, advance_dmem,
    readWord_writeWord hwf]
  simp

/-- Settles O25: IMASK lies on the data bus as a plain 16-bit register. -/
theorem interruptMaskReadsBackAllSixteenBits : Obligations.InterruptMaskReadsBackAllSixteenBits := by
  intro ra rb rd s hrd hra
  refine ⟨_, execAll_stor_load ra rb rd ra s, ?_⟩
  rw [hra, busWrite_addrImask, busRead_addrImask]
  exact ⟨rfl, readReg_writeReg_self _ _ hrd, rfl, rfl, fun _ => ⟨rfl, rfl, rfl⟩, rfl⟩

end Sys2Proof.Machine
end

section
/-! PROOF. The timer raises at most once per arming and not at all while it is disarmed (20_memory.md R30; in the form
of log 5 and log 7). -/

namespace Sys2Proof.Machine

open Sys2Proof.Claims

/-! ## What arrives at a boundary -/

/-- Requests in two parts: the second meets the armings that the first left. -/
theorem arriving_append (armed : Nat) (l r : List Source) :
    arriving armed (l ++ r) =
      ((arriving armed l).1 ++ (arriving (arriving armed l).2 r).1, (arriving (arriving armed l).2 r).2) := by
  induction l generalizing armed with
  | nil => rfl
  | cons k rest ih =>
    rw [List.cons_append]
    by_cases hk : k = 15
    · subst hk
      cases armed with
      | zero => rw [arriving_timer_unarmed, arriving_timer_unarmed, ih]
      | succ n => rw [arriving_timer_armed, arriving_timer_armed, ih, List.cons_append]
    · rw [arriving_other hk, arriving_other hk, ih, List.cons_append]

/-- Each request of source 15 uses an arming up while there is one. -/
theorem arriving_armings_left (armed : Nat) (now : List Source) :
    (arriving armed now).2 = armed - now.count 15 := by
  obtain ⟨-, -, -, hleft⟩ := arriving_spec armed now
  exact hleft

/-- A request of source 15 that finds no arming left is as if it had not been made. -/
theorem arriving_drop_timer {armed : Nat} {pre : List Source} (post : List Source) (h : armed ≤ pre.count 15) :
    arriving armed (pre ++ 15 :: post) = arriving armed (pre ++ post) := by
  have hleft : (arriving armed pre).2 = 0 := by
    rw [arriving_armings_left]
    omega
  rw [arriving_append, arriving_append, hleft, arriving_timer_unarmed]

/-- The requests of a boundary are taken in by what arrives of them. -/
theorem takeRequests_congr {s : State} {now now' : List Source} {later : List (List Source)}
    (hr : s.raises = now :: later) (h : arriving s.timerArmed now = arriving s.timerArmed now') :
    s.takeRequests = State.takeRequests { s with raises := now' :: later } := by
  simp [State.takeRequests, hr, h]

/-- The boundary sees the schedule only through the requests it takes. -/
theorem boundary_congr {s u : State} (b : Bool) (h : s.takeRequests = u.takeRequests) :
    s.boundary b = u.boundary b := by
  simp only [State.boundary, h]

/-- Settles O59: a dropped request leaves what arrives as it was, and what arrives counts the armings down. -/
theorem timerRequestsBeyondTheArmingsAreNotRaised : Obligations.TimerRequestsBeyondTheArmingsAreNotRaised := by
  intro s b
  refine ⟨fun pre post later hr hc => ?_, fun now later hr => ?_, fun hr => ?_⟩
  · exact boundary_congr b (takeRequests_congr hr (arriving_drop_timer post hc))
  · rw [boundary_timerArmed, State.takeRequests, hr, ← arriving_armings_left]
  · rw [boundary_timerArmed, State.takeRequests, hr]

/-! ## The boundary of a silent timer -/

/-- The ways a boundary goes: a pending jump, no re-scan to make, or a re-scan first (60_exceptions.md R115). -/
theorem boundary_cases (s : State) (b : Bool) :
    (s.jp = true ∧ s.boundary b = s.takeRequests) ∨
    (s.jp = false ∧ (s.rescan = false ∨ b = true) ∧ s.boundary b = s.takeRequests.deliverRaises) ∨
    (s.jp = false ∧ s.rescan = true ∧ b = false ∧ s.boundary b = s.takeRequests.runRescan.deliverRaises) := by
  cases hj : s.jp with
  | true => exact .inl ⟨rfl, boundary_jump b hj⟩
  | false =>
    cases hr : s.rescan with
    | false => exact .inr (.inl ⟨rfl, .inl rfl, boundary_deliver b hj hr⟩)
    | true =>
      cases b with
      | true => exact .inr (.inl ⟨rfl, .inr rfl, boundary_serviced hj⟩)
      | false => exact .inr (.inr ⟨rfl, rfl, rfl, boundary_rescan hj hr⟩)

/-- A raise touches no other source's pending bit. -/
theorem raise_ipend_other {s : State} {k src : Source} (h : k ≠ src) :
    (s.raise src).ipend.getLsbD k.val = s.ipend.getLsbD k.val := by
  rcases raise_cases s src with ⟨-, -, e⟩ | ⟨-, e⟩ <;> rw [e]
  · rfl
  · simp only [pending_set, decide_eq_false h, Bool.or_false]

/-- Raises touch the pending bit of no source that is not among them. -/
theorem foldl_raise_ipend_other {l : List Source} {k : Source} (s : State) (h : k ∉ l) :
    (l.foldl State.raise s).ipend.getLsbD k.val = s.ipend.getLsbD k.val := by
  induction l generalizing s with
  | nil => rfl
  | cons x rest ih =>
    rw [List.mem_cons, not_or] at h
    obtain ⟨hx, hrest⟩ := h
    rw [List.foldl_cons, ih _ hrest, raise_ipend_other hx]

/-- A re-scan sets no pending bit (R113). -/
theorem runRescan_ipend_false {s : State} {k : Source} (h : s.ipend.getLsbD k.val = false) :
    s.runRescan.ipend.getLsbD k.val = false := by
  rcases runRescan_cases s with ⟨-, e⟩ | ⟨src, -, -, e⟩ <;> rw [e]
  · exact h
  · rw [service_ipend, pending_clear, h, Bool.false_and]

theorem takeRequests_silent {s : State} (h : TimerSilent s) : TimerSilent s.takeRequests := by
  obtain ⟨harmed, hheld, hpend⟩ := h
  rcases takeRequests_cases s with ⟨-, e⟩ | ⟨now, later, -, e⟩ <;> rw [e]
  · exact ⟨harmed, hheld, hpend⟩
  · rw [harmed, arriving_unarmed]
    exact ⟨rfl, by simpa using hheld, hpend⟩

theorem runRescan_silent {s : State} (h : TimerSilent s) : TimerSilent s.runRescan := by
  obtain ⟨harmed, hheld, hpend⟩ := h
  exact ⟨by simpa using harmed, by simpa using hheld, runRescan_ipend_false (k := 15) hpend⟩

theorem deliverRaises_silent {s : State} (h : TimerSilent s) : TimerSilent s.deliverRaises := by
  obtain ⟨harmed, hheld, hpend⟩ := h
  exact ⟨by simpa using harmed, by simp, (foldl_raise_ipend_other (k := 15) _ hheld).trans hpend⟩

/-- A silent timer is silent after the boundary, whatever is scheduled for it. -/
theorem boundary_silent {s : State} (b : Bool) (h : TimerSilent s) : TimerSilent (s.boundary b) := by
  rcases boundary_cases s b with ⟨-, e⟩ | ⟨-, -, e⟩ | ⟨-, -, -, e⟩ <;> rw [e]
  · exact takeRequests_silent h
  · exact deliverRaises_silent (takeRequests_silent h)
  · exact deliverRaises_silent (runRescan_silent (takeRequests_silent h))

/-- At the boundary of an unarmed timer the scheduled requests of source 15 are as if they were not there. -/
theorem boundary_unarmed {s : State} {now : List Source} {later : List (List Source)} (b : Bool)
    (harmed : s.timerArmed = 0) (hr : s.raises = now :: later) :
    s.boundary b = State.boundary { s with raises := now.filter (· ≠ 15) :: later } b :=
  boundary_congr b (takeRequests_congr hr (by simp [harmed, arriving_unarmed]))

/-! ## The instruction's own effect on the timer -/

/-- An address reaches a peripheral register when it is mapped, in the I/O window, and not IMASK's (20_memory.md R24,
R26). -/
theorem busTarget_device_iff {a : Word} {r : PeriphReg} :
    busTarget a = .device r ↔ 0xFF00 ≤ a.toNat ∧ a ≠ Config.addrImask ∧ Config.ioMap a = some r := by
  rw [← topByte_iff_window]
  unfold busTarget
  by_cases hw : a.extractLsb' 8 8 = 0xFF#8
  · by_cases hi : a = Config.addrImask
    · simp [hi, addrImask_in_window]
    · cases hm : Config.ioMap a <;> simp [hw, hi]
  · simp [hw]

/-- A write outside the timer's two registers leaves its armings (R30). -/
theorem timerAfterWrite_other {s : State} {r : PeriphReg} (v : Word) (h : ¬ (r = .timerValue ∨ r = .timerControl)) :
    s.timerAfterWrite r v = s.timerArmed := if_neg h

theorem timerAfterWrite_disarm {s : State} {r : PeriphReg} {v : Word} (h : r = .timerValue ∨ r = .timerControl)
    (he : Config.timerEffect s.devEvents r v = .disarm) : s.timerAfterWrite r v = 0 := by
  simp [State.timerAfterWrite, h, he]

/-- An unarmed timer is armed by an arming write only. -/
theorem timerAfterWrite_unarmed {s : State} {r : PeriphReg} {v : Word} (harmed : s.timerArmed = 0)
    (he : Config.timerEffect s.devEvents r v ≠ .arm) : s.timerAfterWrite r v = 0 := by
  unfold State.timerAfterWrite
  cases h : Config.timerEffect s.devEvents r v with
  | arm => exact absurd h he
  | disarm | neither => simp [harmed]

/-- STOR to a timer register does to the armings what `P_TIMER` says of the write. -/
theorem busWrite_timerArmed_of_timerWrite {s : State} {ra : Reg} {r : PeriphReg} (v : Word)
    (h : TimerWrite s ra r) : (s.busWrite (s.readReg ra) v).timerArmed = s.timerAfterWrite r v := by
  obtain ⟨hwin, himask, hmap, -⟩ := h
  simp only [State.busWrite, busTarget_device_iff.mpr ⟨hwin, himask, hmap⟩]

/-- A bus write changes the timer's armings only where it reaches one of its two registers. -/
theorem busWrite_timerArmed_cases (s : State) (ra : Reg) (v : Word) :
    (s.busWrite (s.readReg ra) v).timerArmed = s.timerArmed ∨
    ∃ r, TimerWrite s ra r ∧ (s.busWrite (s.readReg ra) v).timerArmed = s.timerAfterWrite r v := by
  rcases busWrite_cases s (s.readReg ra) v with ⟨-, e⟩ | ⟨r, htarget, e⟩ | ⟨-, e⟩ | ⟨d, -, e⟩
  · exact .inl (by rw [e])
  · obtain ⟨hwin, himask, hmap⟩ := busTarget_device_iff.mp htarget
    by_cases htimer : r = .timerValue ∨ r = .timerControl
    · exact .inr ⟨r, ⟨hwin, himask, hmap, htimer⟩, by rw [e]⟩
    · exact .inl (by rw [e, timerAfterWrite_other v htimer])
  · exact .inl (by rw [e])
  · exact .inl (by rw [e])

/-- Only a STOR to one of the timer's registers changes its armings (R30; that no read does is log 7). -/
theorem exec_timerArmed_cases {i : Instr} {s t : State} (h : exec i s = .next t) :
    t.timerArmed = s.timerArmed ∨
    ∃ ra rb r, i = .stor ra rb ∧ TimerWrite s ra r ∧ t.timerArmed = s.timerAfterWrite r (s.readReg rb) := by
  cases i with
  | stor ra rb =>
    cases h
    rcases busWrite_timerArmed_cases s ra (s.readReg rb) with e | ⟨r, hw, e⟩
    · exact .inl e
    · exact .inr ⟨ra, rb, r, rfl, hw, e⟩
  | load rd ra =>
    cases h
    exact .inl (busRead_timerArmed s _)
  | jal r | jalZ r | jalNz r | jalC r | jalNc r | jalN r | jalNn r | jalO r | jalNo r | jalP r | jalNp r =>
    rcases jumpLinkOn_cases h with ⟨-, rfl⟩ | ⟨-, rfl⟩ <;> exact .inl rfl
  | _ =>
    cases h
    exact .inl rfl

/-- No instruction's own effect touches the held requests or the pending bits. -/
theorem exec_held_ipend {i : Instr} {s t : State} (h : exec i s = .next t) : t.held = s.held ∧ t.ipend = s.ipend := by
  rcases exec_shape h with ⟨u, take, rfl, hkept, -⟩ | ⟨n, -, rfl⟩
  · exact ⟨hkept.held, hkept.ipend⟩
  · exact ⟨rfl, rfl⟩

/-- After an instruction that disarms the timer, or finds it unarmed and does not arm it, it is unarmed. -/
theorem exec_unarmed {i : Instr} {s u : State} (hrun : s.run = .running) (hi : decode s.fetch = .ok i)
    (hu : exec i s = .next u)
    (htimer : (s.timerArmed = 0 ∧ ¬ StoresToTimer s .arm) ∨ StoresToTimer s .disarm) : u.timerArmed = 0 := by
  rcases htimer with ⟨harmed, hnotArm⟩ | ⟨-, ra, rb, r, hstor, hw, hdisarm⟩
  · rcases exec_timerArmed_cases hu with e | ⟨ra, rb, r, rfl, hw, e⟩
    · exact e.trans harmed
    · exact e.trans (timerAfterWrite_unarmed harmed fun he => hnotArm ⟨hrun, ra, rb, r, hi, hw, he⟩)
  · cases hi.symm.trans hstor
    cases hu
    have hleft := busWrite_timerArmed_of_timerWrite (s.readReg rb) hw
    obtain ⟨-, -, -, hreg⟩ := hw
    exact hleft.trans (timerAfterWrite_disarm hreg hdisarm)

/-- A step that runs no instruction, of a stuck core or at an illegal word, arms and disarms nothing. -/
theorem silent_of_no_instruction {s : State} (hno : ∀ i, s.run = .running → decode s.fetch ≠ .ok i)
    (hheld : (15 : Source) ∉ s.held) (hpend : s.ipend.getLsbD 15 = false)
    (htimer : (s.timerArmed = 0 ∧ ¬ StoresToTimer s .arm) ∨ StoresToTimer s .disarm) : TimerSilent s := by
  rcases htimer with ⟨harmed, -⟩ | ⟨hrun, ra, rb, r, hstor, -⟩
  · exact ⟨harmed, hheld, hpend⟩
  · exact absurd hstor (hno _ hrun)

/-- Settles O60: the instruction leaves the timer silent, and the boundary then finds no arming for a request. -/
theorem aSilentTimerStaysSilentUntilItIsArmed : Obligations.ASilentTimerStaysSilentUntilItIsArmed := by
  intro s t hheld hpend hstep htimer
  rcases step_cases hstep with ⟨hstuck, rfl⟩ | ⟨-, ⟨c, hc⟩, rfl⟩ | ⟨hrun, i, u, hi, hu, rfl⟩
  · have hno : ∀ i, t.run = .running → decode t.fetch ≠ .ok i := fun _ hrun => absurd hrun hstuck
    exact ⟨silent_of_no_instruction hno hheld hpend htimer, fun _ _ _ _ hrun => absurd hrun hstuck⟩
  · have hno : ∀ i, s.run = .running → decode s.fetch ≠ .ok i := fun _ _ hi => nomatch hc.symm.trans hi
    have hsilent : TimerSilent s := silent_of_no_instruction hno hheld hpend htimer
    exact ⟨hsilent, fun i _ _ _ hrun hi => absurd hi (hno i hrun)⟩
  · have harmed : u.timerArmed = 0 := exec_unarmed hrun hi hu htimer
    obtain ⟨hheld', hpend'⟩ := exec_held_ipend hu
    refine ⟨boundary_silent _ ⟨harmed, hheld' ▸ hheld, hpend' ▸ hpend⟩, fun j v now later _ hj hv hr => ?_⟩
    cases hi.symm.trans hj
    cases hu.symm.trans hv
    exact boundary_unarmed _ harmed hr

end Sys2Proof.Machine
end

section
/-! PROOF. The decoder and the encoder agree (30_encoding.md R50 to R53, R61). -/

namespace Sys2Proof.Machine

/-! ## The decoder by format (R41) -/

theorem decode_of_format0 {w : Word} (h : formatField w = 0) : decode w = decodeControl w := by
  simp only [decode, h]

theorem decode_of_format1 {w : Word} (h : formatField w = 1) : decode w = decodeTransfer w := by
  simp only [decode, h]

theorem decode_of_format2 {w : Word} (h : formatField w = 2) : decode w = decodeAlu w := by
  simp only [decode, h]

theorem decode_of_format3 {w : Word} (h : formatField w = 3) : decode w = decodeImmediate w := by
  simp only [decode, h]

/-! ## Decoding what the encoder wrote -/

theorem condOf_code (cond : Cond) : condOf cond.code.toFin = .ok cond := by
  cases cond <;> rfl

theorem decode_encodeBr (cond : Cond) (disp : Byte) : decode (encodeBr cond disp) = .ok (brOf cond disp) := by
  rw [decode_of_format0 (formatField_encodeBr cond disp), decodeControl, opField_encodeBr, condField_encodeBr,
    condOf_code, byteField_encodeBr]
  rfl

theorem decode_encodeJmp (cond : Cond) (rs : Reg) : decode (encodeJmp cond rs) = .ok (jmpOf cond rs) := by
  rw [decode_of_format0 (formatField_encodeJmp cond rs), decodeControl, opField_encodeJmp, condField_encodeJmp,
    condOf_code, rbField_encodeJmp]
  rfl

theorem decode_encodeJal (cond : Cond) (rs : Reg) : decode (encodeJal cond rs) = .ok (jalOf cond rs) := by
  rw [decode_of_format0 (formatField_encodeJal cond rs), decodeControl, opField_encodeJal, condField_encodeJal,
    condOf_code, rbField_encodeJal]
  rfl

/-- INT's word has the immediate in the place of ra and rb, so it has field lemmas of its own (R44). -/
theorem decode_encode_int (n : Byte) : decode (encode (.int n)) = .ok (.int n) := by
  have hformat : formatField (encode (.int n)) = 1 :=
    congrArg BitVec.toFin (extractLsb'_of_masked (lo := 14) (len := 2) (Laws.encodeInt_masked n) rfl)
  have hsub : subField (encode (.int n)) = 7 :=
    congrArg BitVec.toFin (extractLsb'_of_masked (lo := 8) (len := 3) (Laws.encodeInt_masked n) rfl)
  have hbyte : byteField (encode (.int n)) = n := BitVec.extractLsb'_append_eq_right
  rw [decode_of_format1 hformat, decodeTransfer, hsub, hbyte]

/-- The encoder writes each operand into the field that the decoder reads it from (R61). -/
theorem decode_encode (i : Instr) : decode (encode i) = .ok i := by
  cases i with
  | nop => rfl
  | br d | brZ d | brNz d | brC d | brNc d | brN d | brNn d | brO d | brNo d | brP d | brNp d =>
    exact decode_encodeBr _ d
  | jmp r | jmpZ r | jmpNz r | jmpC r | jmpNc r | jmpN r | jmpNn r | jmpO r | jmpNo r | jmpP r | jmpNp r =>
    exact decode_encodeJmp _ r
  | jal r | jalZ r | jalNz r | jalC r | jalNc r | jalN r | jalNn r | jalO r | jalNo r | jalP r | jalNp r =>
    exact decode_encodeJal _ r
  | mov | load | stor | eni | dsi | rti =>
    simp [encode, decode_of_format1, formatField_encodeTransfer, decodeTransfer, subField_encodeTransfer,
      rdField_encodeTransfer, raField_encodeTransfer, rbField_encodeTransfer]
  | int n => exact decode_encode_int n
  | add | sub | addc | subb | dec | inc | com | and | or | xor | shr | shl | shra | shla | ror | rol | rorc | rolc =>
    simp [encode, decode_of_format2, formatField_encodeAlu, decodeAlu, unitField_encodeAlu, aluOpField_encodeAlu,
      rdField_encodeAlu, raField_encodeAlu, rbField_encodeAlu]
  | mvi | mvih | mvil | clc | stc | cmc =>
    simp [encode, decode_of_format3, formatField_encodeImmediate, decodeImmediate, subField_encodeImmediate,
      rdField_encodeImmediate, byteField_encodeImmediate]

/-- Settles O1, by decode_encode. -/
theorem decodeOfEncodeIsTheInstruction : Obligations.DecodeOfEncodeIsTheInstruction :=
  decode_encode

/-- Settles O5: nine closed words, decoded by computation. -/
theorem writtenWordsDecode : Obligations.WrittenWordsDecode :=
  ⟨rfl, rfl, rfl, rfl, rfl, rfl, rfl, rfl, rfl⟩

/-- A field whose bits a mask covers is the same in words that agree under the mask. -/
theorem extractLsb'_congr_of_masked {w v m : Word} {lo len : Nat} (h : w &&& m = v &&& m)
    (hm : m.extractLsb' lo len = BitVec.allOnes len) : w.extractLsb' lo len = v.extractLsb' lo len :=
  (extractLsb'_of_masked h hm).trans (extractLsb'_of_masked rfl hm).symm

/-! ## The row of a word -/

/-- The row of the opcode map that a word decodes to, or its class of R52. -/
def rowOfWord (w : Word) : Except IllegalClass OpRow := (decode w).map rowOf

/-- The bits that select the row of a word, by its format (R41 to R46): format and op of a NOP; format, op and cond of
a BR, JMP or JAL; format and sub; format, unit and op. -/
def selectingBits (v : Word) : Word :=
  match formatField v with
  | 0 => if opField v = 0 then 0xF000#16 else 0xFF00#16
  | 1 => 0xC700#16
  | 2 => 0xC7C0#16
  | 3 => 0xC700#16

theorem decodeControl_row_congr {w v : Word} (hop : opField w = opField v)
    (hcond : opField v ≠ 0 → condField w = condField v) :
    (decodeControl w).map rowOf = (decodeControl v).map rowOf := by
  unfold decodeControl
  rw [hop]
  split
  · rfl
  all_goals
    rename_i h
    rw [hcond (by rw [h]; decide)]
    rcases condOf (condField v) with c | cond
    · rfl
    · cases cond <;> rfl

theorem decodeTransfer_row_congr {w v : Word} (hsub : subField w = subField v) :
    (decodeTransfer w).map rowOf = (decodeTransfer v).map rowOf := by
  unfold decodeTransfer
  rw [hsub]
  split <;> rfl

theorem decodeAlu_row_congr {w v : Word} (hunit : unitField w = unitField v) (hop : aluOpField w = aluOpField v) :
    (decodeAlu w).map rowOf = (decodeAlu v).map rowOf := by
  unfold decodeAlu
  rw [hunit, hop]
  split <;> rfl

theorem decodeImmediate_row_congr {w v : Word} (hsub : subField w = subField v) :
    (decodeImmediate w).map rowOf = (decodeImmediate v).map rowOf := by
  unfold decodeImmediate
  rw [hsub]
  split <;> rfl

/-- Words that agree in the selecting bits are of one row (R51). -/
theorem rowOfWord_congr {w v : Word} (h : w &&& selectingBits v = v &&& selectingBits v) :
    rowOfWord w = rowOfWord v := by
  have hfield {lo len : Nat} (hm : (selectingBits v).extractLsb' lo len = BitVec.allOnes len) :
      (w.extractLsb' lo len).toFin = (v.extractLsb' lo len).toFin :=
    congrArg BitVec.toFin (extractLsb'_congr_of_masked h hm)
  have hformat : formatField w = formatField v := hfield (by unfold selectingBits; grind)
  simp only [rowOfWord, decode, hformat]
  match hf : formatField v with
  | 0 =>
    have hop : opField w = opField v := hfield (by simp only [selectingBits, hf]; split <;> rfl)
    exact decodeControl_row_congr hop fun hne => hfield (by simp [selectingBits, hf, hne])
  | 1 => exact decodeTransfer_row_congr (hfield (by simp [selectingBits, hf]))
  | 2 => exact decodeAlu_row_congr (hfield (by simp [selectingBits, hf])) (hfield (by simp [selectingBits, hf]))
  | 3 => exact decodeImmediate_row_congr (hfield (by simp [selectingBits, hf]))

/-- The mask of a row is the selecting bits of its fixed value, and the value is a word of the row. -/
theorem opcodeRows_select :
    ∀ r ∈ opcodeRows, selectingBits r.value = r.mask ∧ r.value &&& r.mask = r.value ∧ rowOfWord r.value = .ok r := by
  decide

/-- A row's words agree with its fixed value in the selecting bits. -/
theorem decode_of_row {r : OpRow} {w : Word} (hr : r ∈ opcodeRows) (hw : w &&& r.mask = r.value) :
    ∃ i, decode w = .ok i ∧ rowOf i = r := by
  obtain ⟨hmask, hvalue, hrow⟩ := opcodeRows_select r hr
  have h : rowOfWord w = .ok r := (rowOfWord_congr (by rw [hmask, hw, hvalue])).trans hrow
  unfold rowOfWord at h
  cases hd : decode w with
  | error c => simp [hd, Except.map] at h
  | ok i => exact ⟨i, rfl, by simpa [hd, Except.map] using h⟩

/-- Settles O2, by decode_of_row. -/
theorem everyWordOfARowDecodesToThatRow : Obligations.EveryWordOfARowDecodesToThatRow :=
  fun _ hr _ hw => decode_of_row hr hw

/-! ## The illegal words, by field -/

/-- A mask that covers the given fields and nothing else compares these fields. -/
theorem masked_iff_fields {w : Word} (m v : Word) (fields : List (Nat × Nat))
    (hm : ∀ i < 16, m.getLsbD i = fields.any fun p => decide (p.1 ≤ i ∧ i < p.1 + p.2)) (hv : v &&& m = v) :
    w &&& m = v ↔ ∀ p ∈ fields, w.extractLsb' p.1 p.2 = v.extractLsb' p.1 p.2 := by
  constructor
  · rintro rfl p hp
    apply BitVec.eq_of_getLsbD_eq
    intro i hi
    by_cases hlt : p.1 + i < 16
    · have : m.getLsbD (p.1 + i) = true := by
        rw [hm _ hlt, List.any_eq_true]
        exact ⟨p, hp, by simp [hi]⟩
      simp [this]
    · simp [BitVec.getLsbD_of_ge _ _ (Nat.le_of_not_lt hlt)]
  · intro h
    rw [← hv]
    apply BitVec.eq_of_getLsbD_eq
    intro i hi
    rw [BitVec.getLsbD_and, BitVec.getLsbD_and, hm i hi]
    by_cases hany : ∃ p ∈ fields, p.1 ≤ i ∧ i < p.1 + p.2
    · obtain ⟨p, hp, hle, hlt⟩ := hany
      have hbit := congrArg (fun x => x.getLsbD (i - p.1)) (h p hp)
      have : i - p.1 < p.2 := by omega
      simp only [BitVec.getLsbD_extractLsb', this, decide_true, Bool.true_and, Nat.add_sub_cancel' hle] at hbit
      rw [hbit]
    · have : (fields.any fun p => decide (p.1 ≤ i ∧ i < p.1 + p.2)) = false := by
        simpa using hany
      rw [this, Bool.and_false, Bool.and_false]

/-- As masked_iff_fields, the fields as numbers. -/
theorem masked_iff_numbers {w : Word} (m v : Word) (fields : List (Nat × Nat))
    (hm : ∀ i < 16, m.getLsbD i = fields.any fun p => decide (p.1 ≤ i ∧ i < p.1 + p.2)) (hv : v &&& m = v) :
    w &&& m = v ↔ ∀ p ∈ fields, w.toNat / 2 ^ p.1 % 2 ^ p.2 = v.toNat / 2 ^ p.1 % 2 ^ p.2 := by
  simp only [masked_iff_fields m v fields hm hv, ← BitVec.toNat_inj, BitVec.extractLsb'_toNat,
    Nat.shiftRight_eq_div_pow]

theorem formatField_val (w : Word) : (formatField w).val = w.toNat / 2 ^ 14 % 4 := by
  simp [formatField, Nat.shiftRight_eq_div_pow]

theorem opField_val (w : Word) : (opField w).val = w.toNat / 2 ^ 12 % 4 := by
  simp [opField, Nat.shiftRight_eq_div_pow]

theorem condField_val (w : Word) : (condField w).val = w.toNat / 2 ^ 8 % 16 := by
  simp [condField, Nat.shiftRight_eq_div_pow]

theorem subField_val (w : Word) : (subField w).val = w.toNat / 2 ^ 8 % 8 := by
  simp [subField, Nat.shiftRight_eq_div_pow]

theorem unitField_val (w : Word) : (unitField w).val = w.toNat / 2 ^ 9 % 4 := by
  simp [unitField, Nat.shiftRight_eq_div_pow]

theorem aluOpField_val (w : Word) : (aluOpField w).val = w.toNat / 2 ^ 6 % 8 := by
  simp [aluOpField, Nat.shiftRight_eq_div_pow]

/-! Each test of the table of R52, said of the fields it selects. -/

theorem isBranchOp_iff (w : Word) : isBranchOp w = true ↔ formatField w = 0 ∧ opField w ≠ 0 := by
  have hformat := masked_iff_numbers (w := w) 0xC000#16 0#16 [(14, 2)] (by decide) rfl
  have hop := masked_iff_numbers (w := w) 0x3000#16 0#16 [(12, 2)] (by decide) rfl
  simp [isBranchOp, hformat, hop, Fin.ext_iff, formatField_val, opField_val]

theorem condUnused_iff (w : Word) : w &&& 0x0F00#16 = 0#16 ↔ condField w = 0 := by
  simp [masked_iff_numbers 0x0F00#16 0#16 [(8, 4)] (by decide) rfl, Fin.ext_iff, condField_val]

theorem condReserved_iff (w : Word) : w &&& 0x0C00#16 = 0x0C00#16 ↔ 12 ≤ condField w := by
  simp only [masked_iff_numbers 0x0C00#16 0x0C00#16 [(10, 2)] (by decide) rfl, List.forall_mem_singleton,
    BitVec.toNat_ofNat, Fin.le_def, Fin.coe_ofNat_eq_mod, condField_val]
  omega

/-- The format and the sub field together, of formats 01 and 11. -/
theorem formatSub_iff {w v : Word} (hv : v &&& 0xC700#16 = v) :
    w &&& 0xC700#16 = v ↔ formatField w = formatField v ∧ subField w = subField v := by
  simp only [masked_iff_fields 0xC700#16 v [(14, 2), (8, 3)] (by decide) hv, List.mem_cons, List.not_mem_nil,
    or_false, forall_eq_or_imp, forall_eq]
  exact Iff.and BitVec.toFin_inj.symm BitVec.toFin_inj.symm

theorem arithCode_iff (w : Word) :
    w &&& 0xC780#16 = 0x8180#16 ↔ formatField w = 2 ∧ unitField w = 0 ∧ 6 ≤ aluOpField w := by
  simp only [masked_iff_numbers 0xC780#16 0x8180#16 [(14, 2), (7, 4)] (by decide) rfl, List.mem_cons,
    List.not_mem_nil, or_false, forall_eq_or_imp, forall_eq, BitVec.toNat_ofNat, Fin.ext_iff, Fin.le_def,
    Fin.coe_ofNat_eq_mod, formatField_val, unitField_val, aluOpField_val]
  omega

theorem logicCode_iff (w : Word) :
    w &&& 0xC700#16 = 0x8300#16 ↔ formatField w = 2 ∧ unitField w = 1 ∧ 4 ≤ aluOpField w := by
  simp only [masked_iff_numbers 0xC700#16 0x8300#16 [(14, 2), (8, 3)] (by decide) rfl, List.mem_cons,
    List.not_mem_nil, or_false, forall_eq_or_imp, forall_eq, BitVec.toNat_ofNat, Fin.ext_iff, Fin.le_def,
    Fin.coe_ofNat_eq_mod, formatField_val, unitField_val, aluOpField_val]
  omega

theorem unitCode_iff (w : Word) : w &&& 0xC600#16 = 0x8600#16 ↔ formatField w = 2 ∧ unitField w = 3 := by
  simp [masked_iff_numbers 0xC600#16 0x8600#16 [(14, 2), (9, 2)] (by decide) rfl, Fin.ext_iff, formatField_val,
    unitField_val]

/-- The table of R52, said of the fields. -/
theorem illegalClass_eq (w : Word) :
    illegalClass w =
      if (formatField w = 0 ∧ opField w ≠ 0) ∧ condField w = 0 then some .condUnused
      else if (formatField w = 0 ∧ opField w ≠ 0) ∧ 12 ≤ condField w then some .condReserved
      else if formatField w = 1 ∧ subField w = 1 then some .transferSub
      else if formatField w = 2 ∧ unitField w = 0 ∧ 6 ≤ aluOpField w then some .arithCode
      else if formatField w = 2 ∧ unitField w = 1 ∧ 4 ≤ aluOpField w then some .logicCode
      else if formatField w = 2 ∧ unitField w = 3 then some .unitCode
      else if (formatField w = 3 ∧ subField w = 1) ∨ (formatField w = 3 ∧ subField w = 7) then some .immediateSub
      else none := by
  have htransfer := formatSub_iff (w := w) (v := 0x4100#16) rfl
  have himmediate1 := formatSub_iff (w := w) (v := 0xC100#16) rfl
  have himmediate7 := formatSub_iff (w := w) (v := 0xC700#16) rfl
  simp only [illegalClass, Bool.and_eq_true, Bool.or_eq_true, decide_eq_true_eq, isBranchOp_iff, condUnused_iff,
    condReserved_iff, htransfer, arithCode_iff, logicCode_iff, unitCode_iff, himmediate1, himmediate7]
  rfl

/-! ## The errors of the decoder, by field -/

theorem condOf_error_iff (field : Fin 16) (c : IllegalClass) :
    condOf field = .error c ↔ (field = 0 ∧ c = .condUnused) ∨ (12 ≤ field ∧ c = .condReserved) := by
  revert field
  cases c <;> decide

theorem map_error_iff {α β : Type} (x : Except IllegalClass α) (f : α → β) (c : IllegalClass) :
    x.map f = .error c ↔ x = .error c := by
  cases x <;> simp [Except.map]

theorem decodeControl_error_iff (w : Word) (c : IllegalClass) :
    decodeControl w = .error c ↔ opField w ≠ 0 ∧ condOf (condField w) = .error c := by
  unfold decodeControl
  split <;> simp [map_error_iff, *]

theorem decodeTransfer_error_iff (w : Word) (c : IllegalClass) :
    decodeTransfer w = .error c ↔ subField w = 1 ∧ .transferSub = c := by
  unfold decodeTransfer
  split <;> simp [*]

theorem decodeAlu_error_iff (w : Word) (c : IllegalClass) :
    decodeAlu w = .error c ↔
      (unitField w = 0 ∧ 6 ≤ aluOpField w ∧ .arithCode = c) ∨ (unitField w = 1 ∧ 4 ≤ aluOpField w ∧ .logicCode = c) ∨
        (unitField w = 3 ∧ .unitCode = c) := by
  unfold decodeAlu
  split <;> simp [*]

theorem decodeImmediate_error_iff (w : Word) (c : IllegalClass) :
    decodeImmediate w = .error c ↔ (subField w = 1 ∨ subField w = 7) ∧ .immediateSub = c := by
  unfold decodeImmediate
  split <;> simp [*]

/-- Settles O4: in each format the decoder and the table reject by the same fields. -/
theorem decodeFailsExactlyOnTheIllegalWords : Obligations.DecodeFailsExactlyOnTheIllegalWords := by
  intro w c
  rw [illegalClass_eq]
  match hf : formatField w with
  | 0 =>
    rw [decode_of_format0 hf, decodeControl_error_iff, condOf_error_iff]
    grind
  | 1 =>
    rw [decode_of_format1 hf, decodeTransfer_error_iff]
    grind
  | 2 =>
    rw [decode_of_format2 hf, decodeAlu_error_iff]
    grind
  | 3 =>
    rw [decode_of_format3 hf, decodeImmediate_error_iff]
    grind

/-! ## The encoder on the fields of a word gives the word with its ignored bits 0 (R53, log 16) -/

theorem formatBits_eq {w : Word} {f : BitVec 2} (h : formatField w = f.toFin) : f = w.extractLsb' 14 2 :=
  BitVec.toFin_inj.mp h.symm

theorem opBits_eq {w : Word} {op : BitVec 2} (h : opField w = op.toFin) : op = w.extractLsb' 12 2 :=
  BitVec.toFin_inj.mp h.symm

theorem condBits_eq {w : Word} {cond : Cond} (h : condField w = cond.code.toFin) : cond.code = w.extractLsb' 8 4 :=
  BitVec.toFin_inj.mp h.symm

theorem subBits_eq {w : Word} {sub : BitVec 3} (h : subField w = sub.toFin) : sub = w.extractLsb' 8 3 :=
  BitVec.toFin_inj.mp h.symm

theorem unitBits_eq {w : Word} {unit : BitVec 2} (h : unitField w = unit.toFin) : unit = w.extractLsb' 9 2 :=
  BitVec.toFin_inj.mp h.symm

theorem aluOpBits_eq {w : Word} {op : BitVec 3} (h : aluOpField w = op.toFin) : op = w.extractLsb' 6 3 :=
  BitVec.toFin_inj.mp h.symm

theorem regBits_rdField (w : Word) : regBits (rdField w) = w.extractLsb' 11 3 := rfl

theorem regBits_raField (w : Word) : regBits (raField w) = w.extractLsb' 3 3 := rfl

theorem regBits_rbField (w : Word) : regBits (rbField w) = w.extractLsb' 0 3 := rfl

theorem regBits_zero : regBits 0 = 0#3 := rfl

/-- The format and op together, the top four bits of format 00 (R42). -/
theorem controlBits_eq {w : Word} {b : BitVec 4} {op : BitVec 2} (hformat : formatField w = 0)
    (hop : opField w = op.toFin) (hb : 0#2 ++ op = b) : b = w.extractLsb' 12 4 := by
  rw [← hb, formatBits_eq (f := 0#2) hformat, opBits_eq hop]
  apply BitVec.eq_of_getLsbD_eq
  intro i hi
  simp only [BitVec.getLsbD_append, BitVec.getLsbD_extractLsb']
  interval_cases i <;> simp

theorem encode_nop_of_fields {w : Word} (hformat : formatField w = 0) (hop : opField w = 0) :
    encode .nop = w &&& 0xF000#16 := by
  refine ((masked_iff_fields 0xF000#16 0x0000#16 [(14, 2), (12, 2)] (by decide) rfl).mpr ?_).symm
  simp only [List.mem_cons, List.not_mem_nil, or_false, forall_eq_or_imp, forall_eq]
  exact ⟨(formatBits_eq (f := 0#2) hformat).symm, (opBits_eq (op := 0#2) hop).symm⟩

theorem encodeBr_of_fields {w : Word} {cond : Cond} (hformat : formatField w = 0) (hop : opField w = 1)
    (hcond : condField w = cond.code.toFin) :
    encodeBr cond (byteField w) = w &&& 0xFFFF#16 := by
  rw [encodeBr, controlBits_eq (b := 1#4) (op := 1#2) hformat hop rfl, condBits_eq hcond]
  apply BitVec.eq_of_getLsbD_eq
  intro i hi
  simp only [byteField, BitVec.getLsbD_and, BitVec.getLsbD_append, BitVec.getLsbD_extractLsb']
  interval_cases i <;> simp

/-- The word of a JMP or JAL with the ignored bits 7 to 3 zero. -/
theorem jumpFields_append (w : Word) :
    w.extractLsb' 12 4 ++ w.extractLsb' 8 4 ++ 0#5 ++ w.extractLsb' 0 3 = w &&& 0xFF07#16 := by
  apply BitVec.eq_of_getLsbD_eq
  intro i hi
  simp only [BitVec.getLsbD_and, BitVec.getLsbD_append, BitVec.getLsbD_extractLsb']
  interval_cases i <;> simp

theorem encodeJmp_of_fields {w : Word} {cond : Cond} (hformat : formatField w = 0) (hop : opField w = 2)
    (hcond : condField w = cond.code.toFin) :
    encodeJmp cond (rbField w) = w &&& 0xFF07#16 := by
  rw [encodeJmp, controlBits_eq (b := 2#4) (op := 2#2) hformat hop rfl,
    condBits_eq hcond, regBits_rbField, jumpFields_append]

theorem encodeJal_of_fields {w : Word} {cond : Cond} (hformat : formatField w = 0) (hop : opField w = 3)
    (hcond : condField w = cond.code.toFin) :
    encodeJal cond (rbField w) = w &&& 0xFF07#16 := by
  rw [encodeJal, controlBits_eq (b := 3#4) (op := 3#2) hformat hop rfl,
    condBits_eq hcond, regBits_rbField, jumpFields_append]

theorem encodeTransfer_of_rd_ra {w : Word} {sub : BitVec 3} (hformat : formatField w = 1)
    (hsub : subField w = sub.toFin) :
    encodeTransfer (rdField w) sub (raField w) 0 = w &&& 0xFF38#16 := by
  rw [encodeTransfer, formatBits_eq (f := 1#2) hformat, subBits_eq hsub, regBits_rdField, regBits_raField, regBits_zero]
  apply BitVec.eq_of_getLsbD_eq
  intro i hi
  simp only [BitVec.getLsbD_and, BitVec.getLsbD_append, BitVec.getLsbD_extractLsb']
  interval_cases i <;> simp

theorem encodeTransfer_of_ra_rb {w : Word} {sub : BitVec 3} (hformat : formatField w = 1)
    (hsub : subField w = sub.toFin) :
    encodeTransfer 0 sub (raField w) (rbField w) = w &&& 0xC73F#16 := by
  rw [encodeTransfer, formatBits_eq (f := 1#2) hformat, subBits_eq hsub, regBits_raField, regBits_rbField, regBits_zero]
  apply BitVec.eq_of_getLsbD_eq
  intro i hi
  simp only [BitVec.getLsbD_and, BitVec.getLsbD_append, BitVec.getLsbD_extractLsb']
  interval_cases i <;> simp

theorem encodeTransfer_of_sub {w : Word} {sub : BitVec 3} (hformat : formatField w = 1)
    (hsub : subField w = sub.toFin) :
    encodeTransfer 0 sub 0 0 = w &&& 0xC700#16 := by
  rw [encodeTransfer, formatBits_eq (f := 1#2) hformat, subBits_eq hsub, regBits_zero]
  apply BitVec.eq_of_getLsbD_eq
  intro i hi
  simp only [BitVec.getLsbD_and, BitVec.getLsbD_append, BitVec.getLsbD_extractLsb']
  interval_cases i <;> simp

theorem encode_int_of_fields {w : Word} (hformat : formatField w = 1) (hsub : subField w = 7) :
    encode (.int (byteField w)) = w &&& 0xC7FF#16 := by
  rw [encode, formatBits_eq (f := 1#2) hformat, subBits_eq (sub := 7#3) hsub]
  apply BitVec.eq_of_getLsbD_eq
  intro i hi
  simp only [byteField, BitVec.getLsbD_and, BitVec.getLsbD_append, BitVec.getLsbD_extractLsb']
  interval_cases i <;> simp

theorem encodeAlu_of_rd_ra_rb {w : Word} {unit : BitVec 2} {op : BitVec 3} (hformat : formatField w = 2)
    (hunit : unitField w = unit.toFin) (hop : aluOpField w = op.toFin) :
    encodeAlu (rdField w) unit op (raField w) (rbField w) = w &&& 0xFFFF#16 := by
  rw [encodeAlu, formatBits_eq (f := 2#2) hformat, unitBits_eq hunit, aluOpBits_eq hop, regBits_rdField,
    regBits_raField, regBits_rbField]
  apply BitVec.eq_of_getLsbD_eq
  intro i hi
  simp only [BitVec.getLsbD_and, BitVec.getLsbD_append, BitVec.getLsbD_extractLsb']
  interval_cases i <;> simp

theorem encodeAlu_of_rd_ra {w : Word} {unit : BitVec 2} {op : BitVec 3} (hformat : formatField w = 2)
    (hunit : unitField w = unit.toFin) (hop : aluOpField w = op.toFin) :
    encodeAlu (rdField w) unit op (raField w) 0 = w &&& 0xFFF8#16 := by
  rw [encodeAlu, formatBits_eq (f := 2#2) hformat, unitBits_eq hunit, aluOpBits_eq hop, regBits_rdField,
    regBits_raField, regBits_zero]
  apply BitVec.eq_of_getLsbD_eq
  intro i hi
  simp only [BitVec.getLsbD_and, BitVec.getLsbD_append, BitVec.getLsbD_extractLsb']
  interval_cases i <;> simp

theorem encodeImmediate_of_rd_imm {w : Word} {sub : BitVec 3} (hformat : formatField w = 3)
    (hsub : subField w = sub.toFin) :
    encodeImmediate (rdField w) sub (byteField w) = w &&& 0xFFFF#16 := by
  rw [encodeImmediate, formatBits_eq (f := 3#2) hformat, subBits_eq hsub, regBits_rdField]
  apply BitVec.eq_of_getLsbD_eq
  intro i hi
  simp only [byteField, BitVec.getLsbD_and, BitVec.getLsbD_append, BitVec.getLsbD_extractLsb']
  interval_cases i <;> simp

theorem encodeImmediate_of_sub {w : Word} {sub : BitVec 3} (hformat : formatField w = 3)
    (hsub : subField w = sub.toFin) :
    encodeImmediate 0 sub 0#8 = w &&& 0xC700#16 := by
  rw [encodeImmediate, formatBits_eq (f := 3#2) hformat, subBits_eq hsub, regBits_zero]
  apply BitVec.eq_of_getLsbD_eq
  intro i hi
  simp only [BitVec.getLsbD_and, BitVec.getLsbD_append, BitVec.getLsbD_extractLsb']
  interval_cases i <;> simp

/-! ## What the decoder answers (R51) -/

theorem code_of_condOf {field : Fin 16} {cond : Cond} (h : condOf field = .ok cond) : field = cond.code.toFin := by
  revert field
  cases cond <;> decide

theorem map_eq_ok_iff {α β : Type} {x : Except IllegalClass α} {f : α → β} {b : β} :
    x.map f = .ok b ↔ ∃ a, x = .ok a ∧ f a = b := by
  cases x <;> simp [Except.map]

theorem encode_of_decodeControl {w : Word} {i : Instr} (hformat : formatField w = 0) (h : decodeControl w = .ok i) :
    encode i = w &&& (rowOf i).used := by
  unfold decodeControl at h
  split at h
  · rename_i hop
    cases h
    exact encode_nop_of_fields hformat hop
  · rename_i hop
    obtain ⟨cond, hcond, rfl⟩ := map_eq_ok_iff.mp h
    have := encodeBr_of_fields hformat hop (code_of_condOf hcond)
    cases cond <;> exact this
  · rename_i hop
    obtain ⟨cond, hcond, rfl⟩ := map_eq_ok_iff.mp h
    have := encodeJmp_of_fields hformat hop (code_of_condOf hcond)
    cases cond <;> exact this
  · rename_i hop
    obtain ⟨cond, hcond, rfl⟩ := map_eq_ok_iff.mp h
    have := encodeJal_of_fields hformat hop (code_of_condOf hcond)
    cases cond <;> exact this

theorem encode_of_decodeTransfer {w : Word} {i : Instr} (hformat : formatField w = 1)
    (h : decodeTransfer w = .ok i) : encode i = w &&& (rowOf i).used := by
  unfold decodeTransfer at h
  split at h <;> rename_i hsub <;> cases h
  case h_1 | h_3 => exact encodeTransfer_of_rd_ra hformat hsub
  case h_4 => exact encodeTransfer_of_ra_rb hformat hsub
  case h_5 | h_6 | h_7 => exact encodeTransfer_of_sub hformat hsub
  case h_8 => exact encode_int_of_fields hformat hsub

theorem encode_of_decodeAlu {w : Word} {i : Instr} (hformat : formatField w = 2) (h : decodeAlu w = .ok i) :
    encode i = w &&& (rowOf i).used := by
  unfold decodeAlu at h
  split at h <;> cases h <;> rename_i hunit hop
  case h_1 | h_2 | h_3 | h_4 | h_10 | h_11 | h_12 => exact encodeAlu_of_rd_ra_rb hformat hunit hop
  all_goals exact encodeAlu_of_rd_ra hformat hunit hop

theorem encode_of_decodeImmediate {w : Word} {i : Instr} (hformat : formatField w = 3)
    (h : decodeImmediate w = .ok i) : encode i = w &&& (rowOf i).used := by
  unfold decodeImmediate at h
  split at h <;> rename_i hsub <;> cases h
  case h_1 | h_2 | h_3 => exact encodeImmediate_of_rd_imm hformat hsub
  case h_4 | h_5 | h_6 => exact encodeImmediate_of_sub hformat hsub

/-- A decoded word is the encoding of its instruction but for the ignored bits (R53). -/
theorem encode_of_decode {w : Word} {i : Instr} (h : decode w = .ok i) : encode i = w &&& (rowOf i).used := by
  match hf : formatField w with
  | 0 => exact encode_of_decodeControl hf (decode_of_format0 hf ▸ h)
  | 1 => exact encode_of_decodeTransfer hf (decode_of_format1 hf ▸ h)
  | 2 => exact encode_of_decodeAlu hf (decode_of_format2 hf ▸ h)
  | 3 => exact encode_of_decodeImmediate hf (decode_of_format3 hf ▸ h)

/-! ## Words that differ only in ignored bits (R53) -/

open Laws in
/-- The row of every instruction stands in the opcode map and covers the instruction's word. -/
theorem encodingRow : ∀ i : Instr, EncodingRow.Statement i
  | .nop => EncodingRow.nop
  | .br disp => EncodingRow.br disp
  | .brZ disp => EncodingRow.brZ disp
  | .brNz disp => EncodingRow.brNz disp
  | .brC disp => EncodingRow.brC disp
  | .brNc disp => EncodingRow.brNc disp
  | .brN disp => EncodingRow.brN disp
  | .brNn disp => EncodingRow.brNn disp
  | .brO disp => EncodingRow.brO disp
  | .brNo disp => EncodingRow.brNo disp
  | .brP disp => EncodingRow.brP disp
  | .brNp disp => EncodingRow.brNp disp
  | .jmp rs => EncodingRow.jmp rs
  | .jmpZ rs => EncodingRow.jmpZ rs
  | .jmpNz rs => EncodingRow.jmpNz rs
  | .jmpC rs => EncodingRow.jmpC rs
  | .jmpNc rs => EncodingRow.jmpNc rs
  | .jmpN rs => EncodingRow.jmpN rs
  | .jmpNn rs => EncodingRow.jmpNn rs
  | .jmpO rs => EncodingRow.jmpO rs
  | .jmpNo rs => EncodingRow.jmpNo rs
  | .jmpP rs => EncodingRow.jmpP rs
  | .jmpNp rs => EncodingRow.jmpNp rs
  | .jal rs => EncodingRow.jal rs
  | .jalZ rs => EncodingRow.jalZ rs
  | .jalNz rs => EncodingRow.jalNz rs
  | .jalC rs => EncodingRow.jalC rs
  | .jalNc rs => EncodingRow.jalNc rs
  | .jalN rs => EncodingRow.jalN rs
  | .jalNn rs => EncodingRow.jalNn rs
  | .jalO rs => EncodingRow.jalO rs
  | .jalNo rs => EncodingRow.jalNo rs
  | .jalP rs => EncodingRow.jalP rs
  | .jalNp rs => EncodingRow.jalNp rs
  | .mov rd ra => EncodingRow.mov rd ra
  | .load rd ra => EncodingRow.load rd ra
  | .stor ra rb => EncodingRow.stor ra rb
  | .eni => EncodingRow.eni
  | .dsi => EncodingRow.dsi
  | .rti => EncodingRow.rti
  | .int n => EncodingRow.int n
  | .add rd ra rb => EncodingRow.add rd ra rb
  | .sub rd ra rb => EncodingRow.sub rd ra rb
  | .addc rd ra rb => EncodingRow.addc rd ra rb
  | .subb rd ra rb => EncodingRow.subb rd ra rb
  | .dec rd ra => EncodingRow.dec rd ra
  | .inc rd ra => EncodingRow.inc rd ra
  | .com rd ra => EncodingRow.com rd ra
  | .and rd ra rb => EncodingRow.and rd ra rb
  | .or rd ra rb => EncodingRow.or rd ra rb
  | .xor rd ra rb => EncodingRow.xor rd ra rb
  | .shr rd ra => EncodingRow.shr rd ra
  | .shl rd ra => EncodingRow.shl rd ra
  | .shra rd ra => EncodingRow.shra rd ra
  | .shla rd ra => EncodingRow.shla rd ra
  | .ror rd ra => EncodingRow.ror rd ra
  | .rol rd ra => EncodingRow.rol rd ra
  | .rorc rd ra => EncodingRow.rorc rd ra
  | .rolc rd ra => EncodingRow.rolc rd ra
  | .mvi rd imm8 => EncodingRow.mvi rd imm8
  | .mvih rd imm8 => EncodingRow.mvih rd imm8
  | .mvil rd imm8 => EncodingRow.mvil rd imm8
  | .clc => EncodingRow.clc
  | .stc => EncodingRow.stc
  | .cmc => EncodingRow.cmc

/-- The bits that a row fixes are used. -/
theorem used_and_mask : ∀ r ∈ opcodeRows, r.used &&& r.mask = r.mask := by
  decide

theorem encode_injective {i j : Instr} (h : encode i = encode j) : i = j :=
  Except.ok.inj ((decode_encode i).symm.trans ((congrArg decode h).trans (decode_encode j)))

/-- A word that agrees with the word of i in all bits but the ignored ones is i: it lies in the row of i, and what it
decodes to has the encoding of i. -/
theorem decode_of_used {w : Word} {i : Instr} (h : encode i = w &&& (rowOf i).used) : decode w = .ok i := by
  obtain ⟨hmem, hcovers⟩ := encodingRow i
  have hmasked : w &&& (rowOf i).mask = (rowOf i).value :=
    calc w &&& (rowOf i).mask = encode i &&& (rowOf i).mask := by rw [h, BitVec.and_assoc, used_and_mask _ hmem]
      _ = (rowOf i).value := of_decide_eq_true hcovers
  obtain ⟨j, hj, hrow⟩ := decode_of_row hmem hmasked
  have hij : j = i := encode_injective (by rw [encode_of_decode hj, hrow, h])
  rw [hj, hij]

/-- Settles O3: the encoder's word of a decoded word is the word with its ignored bits 0, and it decodes alike. -/
theorem ignoredBitsDoNotChangeTheInstruction : Obligations.IgnoredBitsDoNotChangeTheInstruction := by
  intro w i h
  exact ⟨encode_of_decode h, fun w' hw' => decode_of_used ((encode_of_decode h).trans hw'.symm)⟩

end Sys2Proof.Machine
end

section
/-! PROOF. CMP decides the order of its operands (30_encoding.md R60, 42_alu.md R84). -/

namespace Sys2Proof.Machine

open Sys2Proof.Claims

/-- The raw result of SUB as a number: bit 16 is the borrow (R79, R84). -/
theorem rawResult_sub (a b : Word) :
    (rawResult ((a.toNat : Int) - b.toNat)).toNat = (a.toNat + 131072 - b.toNat) % 131072 := by
  have ha := a.isLt
  have hb := b.isLt
  simp only [rawResult, BitVec.toNat_ofInt]
  omega

/-- SUB's result, borrow and overflow as numbers (R84). -/
theorem aluSub_spec (a b : Word) :
    (aluSub a b).result.toNat = (a.toNat + 65536 - b.toNat) % 65536 ∧
    (∃ c, (aluSub a b).carry = some c ∧ (c = true ↔ a.toNat < b.toNat)) ∧
    (aluSub a b).overflow = some (subOverflow a b (aluSub a b).result) := by
  have ha := a.isLt
  have hb := b.isLt
  obtain ⟨c, hc, hborrow⟩ := arithOut_carry (subOverflow a b) (rawResult_sub a b)
  refine ⟨(arithOut_result (subOverflow a b) (rawResult_sub a b)).trans (by omega), ⟨c, hc, ?_⟩,
    arithOut_overflow _ (subOverflow a b)⟩
  rw [hborrow]
  omega

/-- N differs from O exactly when the left operand is less as a signed number: the sign of the exact difference is N,
corrected by O where the difference does not fit. -/
theorem sub_sign_ne_overflow_iff {a b r : Word} (hr : r.toNat = (a.toNat + 65536 - b.toNat) % 65536) :
    r.getLsbD 15 ≠ subOverflow a b r ↔ a.toInt < b.toInt := by
  have ha := a.isLt
  have hb := b.isLt
  rw [ne_eq, Bool.eq_iff_iff, signBit_iff, subOverflow_iff, toInt_eq_ite, toInt_eq_ite]
  split <;> split <;> omega

/-- Settles O47: SUB writes no register, and its flags are those of the exact difference. -/
theorem compareDecidesEqualityAndBothOrders : Obligations.CompareDecidesEqualityAndBothOrders := by
  intro ra rb s
  obtain ⟨hresult, ⟨c, hcarry, hborrow⟩, hoverflow⟩ := aluSub_spec (s.readReg ra) (s.readReg rb)
  refine ⟨_, rfl, fun _ => rfl, ?_, ?_, ?_⟩
  all_goals simp only [advance_flags, applyAlu_flags, AluOut.flags]
  · have ha := (s.readReg ra).isLt
    have hb := (s.readReg rb).isLt
    rw [decide_eq_true_eq, ← BitVec.toNat_inj, hresult, ← BitVec.toNat_inj, BitVec.toNat_ofNat]
    omega
  · rw [hcarry]
    exact hborrow
  · rw [hoverflow]
    exact sub_sign_ne_overflow_iff hresult

end Sys2Proof.Machine
end

section
/-! PROOF. The expansions of the pseudo-instructions: constants, the stack, CALL and RET (30_encoding.md R59). -/

namespace Sys2Proof.Claims

open Sys2Proof.Machine

/-! ## Writing one register -/

theorem WritesReg.of_writeReg (s : State) (rd : Reg) (v : Word) : WritesReg rd v s (s.writeReg rd v) :=
  fun x => readReg_writeReg s rd x v

/-- Of two writes to one register the second counts. -/
theorem WritesReg.overwrite {rd : Reg} {v v' : Word} {s t u : State} (h : WritesReg rd v s t)
    (h' : WritesReg rd v' t u) : WritesReg rd v' s u := by
  intro x
  rw [h' x, h x]
  grind

/-- Only a register other than R0 keeps what is written to it (10_state.md R11). -/
theorem WritesReg.congr {rd : Reg} {v v' : Word} {s t : State} (h : WritesReg rd v s t) (hv : rd ≠ 0 → v = v') :
    WritesReg rd v' s t := by
  intro x
  rw [h x]
  grind

/-- What a register other than R0 reads after it is written. -/
theorem WritesReg.self {rd : Reg} {v : Word} {s t : State} (h : WritesReg rd v s t) (hrd : rd ≠ 0) :
    t.readReg rd = v := by
  rw [h rd, if_neg hrd, if_pos rfl]

theorem WritesReg.other {rd x : Reg} {v : Word} {s t : State} (h : WritesReg rd v s t) (hx : x ≠ rd) :
    t.readReg x = s.readReg x := by
  rw [h x, if_neg hx]
  split
  · rename_i h0
    rw [h0, readReg_zero]
  · rfl

end Sys2Proof.Claims

namespace Sys2Proof.Machine

open Sys2Proof.Claims

/-! ## A constant into a register (R103, R104) -/

theorem execAll_append {l : List Instr} {s t : State} (l' : List Instr) (h : execAll l s = .next t) :
    execAll (l ++ l') s = execAll l' t := by
  induction l generalizing s with
  | nil => cases h; rfl
  | cons i rest ih =>
    simp only [List.cons_append, execAll] at h ⊢
    split at h
    · exact ih h
    · cases h
    · cases h

theorem exec_mvih (rd : Reg) (imm8 : Byte) (s : State) :
    exec (.mvih rd imm8) s = .next ((s.writeReg rd (withHighByte (s.readReg rd) imm8)).advance none) := rfl

theorem exec_mvil (rd : Reg) (imm8 : Byte) (s : State) :
    exec (.mvil rd imm8) s = .next ((s.writeReg rd (withLowByte (s.readReg rd) imm8)).advance none) := rfl

/-- A word put together from its two bytes, the high one first. -/
theorem withLowByte_withHighByte (x k : Word) :
    withLowByte (withHighByte x (k.extractLsb' 8 8)) (k.extractLsb' 0 8) = k := by
  unfold withLowByte withHighByte
  apply BitVec.eq_of_getLsbD_eq
  intro i hi
  simp only [BitVec.getLsbD_append, BitVec.getLsbD_extractLsb']
  interval_cases i <;> simp

theorem withHighByte_withLowByte (x k : Word) :
    withHighByte (withLowByte x (k.extractLsb' 0 8)) (k.extractLsb' 8 8) = k := by
  unfold withLowByte withHighByte
  apply BitVec.eq_of_getLsbD_eq
  intro i hi
  simp only [BitVec.getLsbD_append, BitVec.getLsbD_extractLsb']
  interval_cases i <;> simp

theorem exec_mvih_writes (rd : Reg) (imm8 : Byte) (s : State) :
    ∃ t, exec (.mvih rd imm8) s = .next t ∧ WritesReg rd (withHighByte (s.readReg rd) imm8) s t ∧
      t.flags = s.flags ∧ t.dmem = s.dmem :=
  ⟨_, rfl, WritesReg.of_writeReg s rd _, rfl, rfl⟩

theorem exec_mvil_writes (rd : Reg) (imm8 : Byte) (s : State) :
    ∃ t, exec (.mvil rd imm8) s = .next t ∧ WritesReg rd (withLowByte (s.readReg rd) imm8) s t ∧
      t.flags = s.flags ∧ t.dmem = s.dmem :=
  ⟨_, rfl, WritesReg.of_writeReg s rd _, rfl, rfl⟩

/-- MVIH then MVIL of a constant's bytes. -/
theorem execAll_loadConst (rd : Reg) (k : Word) (s : State) :
    ∃ t, execAll (loadConst rd k) s = .next t ∧ WritesReg rd k s t ∧ t.flags = s.flags ∧ t.dmem = s.dmem := by
  obtain ⟨u, hu, huw, huf, hum⟩ := exec_mvih_writes rd (k.extractLsb' 8 8) s
  obtain ⟨t, ht, htw, htf, htm⟩ := exec_mvil_writes rd (k.extractLsb' 0 8) u
  refine ⟨t, ?_, (huw.overwrite htw).congr fun hrd => ?_, htf.trans huf, htm.trans hum⟩
  · rw [loadConst, execAll_cons _ hu, execAll_cons _ ht, execAll]
  · rw [huw.self hrd, withLowByte_withHighByte]

/-- The same bytes in the other order. -/
theorem execAll_loadConst_reverse (rd : Reg) (k : Word) (s : State) :
    ∃ t, execAll (loadConst rd k).reverse s = .next t ∧ WritesReg rd k s t ∧ t.flags = s.flags := by
  obtain ⟨u, hu, huw, huf, -⟩ := exec_mvil_writes rd (k.extractLsb' 0 8) s
  obtain ⟨t, ht, htw, htf, -⟩ := exec_mvih_writes rd (k.extractLsb' 8 8) u
  refine ⟨t, ?_, (huw.overwrite htw).congr fun hrd => ?_, htf.trans huf⟩
  · rw [show (loadConst rd k).reverse = [.mvil rd (k.extractLsb' 0 8), .mvih rd (k.extractLsb' 8 8)] from rfl,
      execAll_cons _ hu, execAll_cons _ ht, execAll]
  · rw [huw.self hrd, withHighByte_withLowByte]

/-- Settles O53: of the two bytes each instruction writes one and keeps the other. -/
theorem mvihAndMvilLoadAConstantInEitherOrder : Obligations.MvihAndMvilLoadAConstantInEitherOrder := by
  intro rd k s
  obtain ⟨t, ht, hw, hf, -⟩ := execAll_loadConst rd k s
  exact ⟨⟨t, ht, hw, hf⟩, execAll_loadConst_reverse rd k s⟩

/-! ## The stack in data memory (R59) -/

theorem aluDec_result (a : Word) : (aluDec a).result = a - 1#16 := by
  apply BitVec.eq_of_toNat_eq
  have ha := a.isLt
  simp only [aluDec, arithOut, rawResult, BitVec.toNat_setWidth, BitVec.toNat_ofInt, BitVec.toNat_sub,
    BitVec.toNat_ofNat]
  omega

theorem aluInc_result (a : Word) : (aluInc a).result = a + 1#16 := by
  apply BitVec.eq_of_toNat_eq
  have ha := a.isLt
  simp only [aluInc, arithOut, rawResult, BitVec.toNat_setWidth, BitVec.toNat_ofInt, BitVec.toNat_add,
    BitVec.toNat_ofNat]
  omega

theorem exec_dec_writes (rd ra : Reg) (s : State) :
    ∃ t, exec (.dec rd ra) s = .next t ∧ WritesReg rd (s.readReg ra - 1#16) s t ∧ t.dmem = s.dmem := by
  rw [← aluDec_result]
  exact ⟨_, rfl, fun x => readReg_applyAlu s rd x _, rfl⟩

theorem exec_inc_writes (rd ra : Reg) (s : State) :
    ∃ t, exec (.inc rd ra) s = .next t ∧ WritesReg rd (s.readReg ra + 1#16) s t ∧ t.dmem = s.dmem := by
  rw [← aluInc_result]
  exact ⟨_, rfl, fun x => readReg_applyAlu s rd x _, rfl⟩

/-- The word of data memory that a data address below the I/O window names (20_memory.md R24, R25). -/
def dataWord (a : Word) : PAddr := BitVec.ofNat 15 (a.toNat % 32768)

theorem exec_stor_dmem {ra : Reg} (rb : Reg) {s : State} (h : (s.readReg ra).toNat < 0xFF00) :
    ∃ t, exec (.stor ra rb) s = .next t ∧ SameRegs s t ∧
      t.dmem = s.dmem.writeWord (dataWord (s.readReg ra)) (s.readReg rb) := by
  rw [exec_stor, busWrite_of_lt s _ h]
  exact ⟨_, rfl, fun _ => rfl, rfl⟩

theorem exec_load_dmem (rd : Reg) {ra : Reg} {s : State} (h : (s.readReg ra).toNat < 0xFF00) :
    ∃ t, exec (.load rd ra) s = .next t ∧ WritesReg rd (s.dmem.readWord (dataWord (s.readReg ra))) s t := by
  rw [exec_load, busRead_of_lt s h]
  exact ⟨_, rfl, WritesReg.of_writeReg s rd _⟩

/-- STOR rb at R6, then R6 down. -/
theorem execAll_push (rb : Reg) {s : State} (hsp : (s.readReg 6).toNat < 0xFF00) :
    ∃ t, execAll [.stor 6 rb, .dec 6 6] s = .next t ∧ t.readReg 6 = s.readReg 6 - 1#16 ∧
      t.dmem = s.dmem.writeWord (dataWord (s.readReg 6)) (s.readReg rb) := by
  obtain ⟨u, hu, hregs, hum⟩ := exec_stor_dmem rb hsp
  obtain ⟨t, ht, hw, hm⟩ := exec_dec_writes 6 6 u
  refine ⟨t, by rw [execAll_cons _ hu, execAll_cons _ ht, execAll], ?_, hm.trans hum⟩
  rw [hw.self (by decide), hregs 6]

/-- R6 up, then LOAD rd from it. -/
theorem execAll_pop {rd : Reg} (hrd : rd ≠ 6) {s : State} (hsp : (s.readReg 6 + 1#16).toNat < 0xFF00) :
    ∃ t, execAll [.inc 6 6, .load rd 6] s = .next t ∧ t.readReg 6 = s.readReg 6 + 1#16 ∧
      (rd ≠ 0 → t.readReg rd = s.dmem.readWord (dataWord (s.readReg 6 + 1#16))) := by
  obtain ⟨u, hu, huw, hum⟩ := exec_inc_writes 6 6 s
  have hsix : u.readReg 6 = s.readReg 6 + 1#16 := huw.self (by decide)
  obtain ⟨t, ht, hw⟩ := exec_load_dmem rd (ra := 6) (s := u) (by rwa [hsix])
  rw [hsix, hum] at hw
  exact ⟨t, by rw [execAll_cons _ hu, execAll_cons _ ht, execAll], (hw.other hrd.symm).trans hsix, hw.self⟩

theorem sub_one_toNat (x : Word) : (x - 1#16).toNat = (x.toNat + 65535) % 65536 := by
  rw [BitVec.toNat_sub, BitVec.toNat_ofNat]
  omega

/-- Settles O56: POP raises R6 to the address that PUSH stored at. -/
theorem popReturnsWhatPushStored : Obligations.PopReturnsWhatPushStored := by
  intro rb rd a s hwf hrd hrd6 hsp
  obtain ⟨t, ht, hsix, htm⟩ := execAll_push rb hsp
  have hback : t.readReg 6 + 1#16 = s.readReg 6 := by rw [hsix, BitVec.sub_add_cancel]
  have hstored : t.dmem.readWord (dataWord (s.readReg 6)) = s.readReg rb := by
    rw [htm, readWord_writeWord_same hwf]
  obtain ⟨u, hu, husix, hurd⟩ := execAll_pop hrd6 (s := t) (by rwa [hback])
  refine ⟨t, u, ht, hstored, by rw [hsix, sub_one_toNat], hu, husix.trans hback, ?_⟩
  rw [hurd hrd, hback, hstored]

/-! ## CALL and RET (R59, R69) -/

/-- JMP is always taken, to the low 15 bits of its register. -/
theorem exec_jmp (rs : Reg) (s : State) : exec (.jmp rs) s = .next (s.advance (some (jumpTarget (s.readReg rs)))) :=
  rfl

theorem emit_delaySlots (i : Instr) : emit true i = [i] := by
  simp [emit, filler]

theorem execAll_emit_jmp (s : State) :
    ∃ t, execAll (emit true (.jmp 7)) s = .next t ∧ t.jp = true ∧ t.jt.toNat = (s.readReg 7).toNat % 32768 ∧
      SameRegs s t ∧ t.dmem = s.dmem := by
  rw [emit_delaySlots, execAll_cons _ (exec_jmp 7 s)]
  exact ⟨_, rfl, rfl, BitVec.toNat_setWidth 15 (s.readReg 7), fun _ => rfl, rfl⟩

/-- CALL's return address is not reduced (R59). -/
theorem callReturn_toNat (a : PAddr) : (callReturn a).toNat = a.toNat + 8 := by
  have ha := a.isLt
  rw [callReturn, BitVec.toNat_add, BitVec.toNat_setWidth, BitVec.toNat_ofNat]
  omega

theorem execAll_call (a : PAddr) (l : Word) {s : State} (hsp : (s.readReg 6).toNat < 0xFF00) :
    ∃ t, execAll (expand true a (.call l)) s = .next t ∧ t.jp = true ∧ t.jt.toNat = l.toNat % 32768 ∧
      t.dmem = s.dmem.writeWord (dataWord (s.readReg 6)) (callReturn a) ∧ t.readReg 6 = s.readReg 6 - 1#16 := by
  obtain ⟨s1, h1, hw1, -, hm1⟩ := execAll_loadConst 7 (callReturn a) s
  have hsp1 : s1.readReg 6 = s.readReg 6 := hw1.other (by decide)
  obtain ⟨s2, h2, hsp2, hm2⟩ := execAll_push 7 (s := s1) (by rwa [hsp1])
  obtain ⟨s3, h3, hw3, -, hm3⟩ := execAll_loadConst 7 l s2
  obtain ⟨t, ht, hjp, hjt, hregs, hm⟩ := execAll_emit_jmp s3
  refine ⟨t, ?_, hjp, ?_, ?_, ?_⟩
  · rw [expand, List.append_assoc, List.append_assoc, execAll_append _ h1, execAll_append _ h2,
      execAll_append _ h3, ht]
  · rw [hjt, hw3.self (by decide)]
  · rw [hm, hm3, hm2, hm1, hsp1, hw1.self (by decide)]
  · rw [hregs 6, hw3.other (by decide), hsp2, hsp1]

theorem execAll_ret (b : PAddr) {s : State} (hsp : (s.readReg 6 + 1#16).toNat < 0xFF00) :
    ∃ t, execAll (expand true b .ret) s = .next t ∧ t.jp = true ∧
      t.jt.toNat = (s.dmem.readWord (dataWord (s.readReg 6 + 1#16))).toNat % 32768 ∧
      t.readReg 6 = s.readReg 6 + 1#16 := by
  obtain ⟨u, hu, husix, hurd⟩ := execAll_pop (rd := 7) (by decide) hsp
  obtain ⟨t, ht, hjp, hjt, hregs, -⟩ := execAll_emit_jmp u
  refine ⟨t, ?_, hjp, ?_, (hregs 6).trans husix⟩
  · rw [expand, execAll_append _ hu, ht]
  · rw [hjt, hurd (by decide)]

/-- Settles O57: RET pops the word that CALL pushed. -/
theorem retJumpsToTheWordAfterTheCall : Obligations.RetJumpsToTheWordAfterTheCall := by
  intro a b l s hwf hsp
  obtain ⟨t, ht, hjp, hjt, hmem, hsix⟩ := execAll_call a l hsp
  have hback : t.readReg 6 + 1#16 = s.readReg 6 := by rw [hsix, BitVec.sub_add_cancel]
  have hstored : (t.dmem.readWord (dataWord (s.readReg 6))).toNat = a.toNat + 8 := by
    rw [hmem, readWord_writeWord_same hwf, callReturn_toNat]
  obtain ⟨u, hu, hujp, hujt, husix⟩ := execAll_ret b (s := t) (by rwa [hback])
  refine ⟨t, u, ht, hjp, hjt, hstored, by rw [hsix, sub_one_toNat], hu, hujp, ?_, husix.trans hback⟩
  rw [hujt, hback, hstored]

end Sys2Proof.Machine
end

section
/-! PROOF. The displacement byte of an assembled BR (30_encoding.md R58, 40_control.md R68). -/

namespace Sys2Proof.Machine

open Sys2Proof.Claims

/-- A taken BR's target as a number (R68). -/
theorem branchTarget_toNat (a : PAddr) (disp : Byte) :
    ((branchTarget a disp).toNat : Int) = (a.toNat + disp.toInt) % 32768 := by
  rw [branchTarget, BitVec.signExtend, BitVec.toNat_add, BitVec.toNat_ofInt]
  omega

/-- The byte of a difference, read back as the hardware does: with its sign (R58). -/
theorem ofInt_toInt_of_reach {delta : Int} (h : -128 ≤ delta ∧ delta ≤ 255) :
    (BitVec.ofInt 8 delta).toInt = if delta ≤ 127 then delta else delta - 256 := by
  rw [BitVec.toInt_ofInt, Int.bmod]
  split <;> split <;> omega

theorem branchByte_of_reach {a l : PAddr} (h : -128 ≤ (l.toNat : Int) - a.toNat ∧ (l.toNat : Int) - a.toNat ≤ 255) :
    branchByte a l = some (BitVec.ofInt 8 (l.toNat - a.toNat)) := if_pos h

theorem branchByte_of_out_of_reach {a l : PAddr}
    (h : ¬ (-128 ≤ (l.toNat : Int) - a.toNat ∧ (l.toNat : Int) - a.toNat ≤ 255)) : branchByte a l = none := if_neg h

/-- BR is always taken. -/
theorem exec_br (disp : Byte) (s : State) : exec (.br disp) s = .next (s.advance (some (branchTarget s.pc disp))) :=
  rfl

/-- Settles O55: the assembler stores the low 8 bits of a difference up to 255, which BR reads back with a sign. -/
theorem assembledBranchLandsOnItsLabelUpToOneHundredTwentySeven :
    Obligations.AssembledBranchLandsOnItsLabelUpToOneHundredTwentySeven := by
  intro a l delta
  have hdelta : delta = (l.toNat : Int) - a.toNat := rfl
  have hl := l.isLt
  refine ⟨fun hfar => branchByte_of_out_of_reach (by omega),
    fun hreach => ⟨BitVec.ofInt 8 delta, branchByte_of_reach hreach, fun s hpc => ?_⟩⟩
  subst hpc
  have htarget := branchTarget_toNat s.pc (BitVec.ofInt 8 delta)
  rw [ofInt_toInt_of_reach hreach] at htarget
  refine ⟨_, exec_br _ s, rfl, fun hnear => ?_, fun hbeyond => ?_⟩
  · rw [if_pos hnear] at htarget
    exact BitVec.eq_of_toNat_eq (by rw [advance_jt, Option.getD_some]; omega)
  · rw [if_neg (by omega)] at htarget
    rw [advance_jt, Option.getD_some]
    omega

end Sys2Proof.Machine
end

section
/-! PROOF. The filler after an emitted BR, JMP, JAL or RTI (30_encoding.md R57, R59). -/

namespace Sys2Proof.Machine

open Sys2Proof.Claims

/-- The model's predicate is the four families of R63. -/
theorem isBranchClass_iff (i : Instr) : isBranchClass i = true ↔ BranchClass i := by
  constructor
  · intro h
    cases i with
    | br d => exact .inl ⟨.always, d, rfl⟩
    | brZ d => exact .inl ⟨.z, d, rfl⟩
    | brNz d => exact .inl ⟨.nz, d, rfl⟩
    | brC d => exact .inl ⟨.c, d, rfl⟩
    | brNc d => exact .inl ⟨.nc, d, rfl⟩
    | brN d => exact .inl ⟨.n, d, rfl⟩
    | brNn d => exact .inl ⟨.nn, d, rfl⟩
    | brO d => exact .inl ⟨.o, d, rfl⟩
    | brNo d => exact .inl ⟨.no, d, rfl⟩
    | brP d => exact .inl ⟨.p, d, rfl⟩
    | brNp d => exact .inl ⟨.np, d, rfl⟩
    | jmp r => exact .inr <| .inl ⟨.always, r, rfl⟩
    | jmpZ r => exact .inr <| .inl ⟨.z, r, rfl⟩
    | jmpNz r => exact .inr <| .inl ⟨.nz, r, rfl⟩
    | jmpC r => exact .inr <| .inl ⟨.c, r, rfl⟩
    | jmpNc r => exact .inr <| .inl ⟨.nc, r, rfl⟩
    | jmpN r => exact .inr <| .inl ⟨.n, r, rfl⟩
    | jmpNn r => exact .inr <| .inl ⟨.nn, r, rfl⟩
    | jmpO r => exact .inr <| .inl ⟨.o, r, rfl⟩
    | jmpNo r => exact .inr <| .inl ⟨.no, r, rfl⟩
    | jmpP r => exact .inr <| .inl ⟨.p, r, rfl⟩
    | jmpNp r => exact .inr <| .inl ⟨.np, r, rfl⟩
    | jal r => exact .inr <| .inr <| .inl ⟨.always, r, rfl⟩
    | jalZ r => exact .inr <| .inr <| .inl ⟨.z, r, rfl⟩
    | jalNz r => exact .inr <| .inr <| .inl ⟨.nz, r, rfl⟩
    | jalC r => exact .inr <| .inr <| .inl ⟨.c, r, rfl⟩
    | jalNc r => exact .inr <| .inr <| .inl ⟨.nc, r, rfl⟩
    | jalN r => exact .inr <| .inr <| .inl ⟨.n, r, rfl⟩
    | jalNn r => exact .inr <| .inr <| .inl ⟨.nn, r, rfl⟩
    | jalO r => exact .inr <| .inr <| .inl ⟨.o, r, rfl⟩
    | jalNo r => exact .inr <| .inr <| .inl ⟨.no, r, rfl⟩
    | jalP r => exact .inr <| .inr <| .inl ⟨.p, r, rfl⟩
    | jalNp r => exact .inr <| .inr <| .inl ⟨.np, r, rfl⟩
    | rti => exact .inr <| .inr <| .inr rfl
    | _ => cases h
  · rintro (⟨cond, disp, rfl⟩ | ⟨cond, rs, rfl⟩ | ⟨cond, rs, rfl⟩ | rfl)
    · cases cond <;> rfl
    · cases cond <;> rfl
    · cases cond <;> rfl
    · rfl

/-- After every branch-class instruction of the list comes a NOP. -/
def Filled (l : List Instr) : Prop := ∀ n i, l[n]? = some i → BranchClass i → l[n + 1]? = some .nop

theorem Filled.append {l l' : List Instr} (h : Filled l) (h' : Filled l') : Filled (l ++ l') := by
  intro n i hi hb
  by_cases hn : n < l.length
  · rw [List.getElem?_append_left hn] at hi
    have hnext := h n i hi hb
    obtain ⟨hlt, -⟩ := List.getElem?_eq_some_iff.mp hnext
    rw [List.getElem?_append_left hlt, hnext]
  · have hle := Nat.le_of_not_lt hn
    rw [List.getElem?_append_right hle] at hi
    rw [List.getElem?_append_right (Nat.le_succ_of_le hle), Nat.succ_sub hle]
    exact h' _ i hi hb

theorem emit_of_branchClass {i : Instr} (h : BranchClass i) : emit false i = [i, .nop] := by
  simp [emit, (isBranchClass_iff i).mpr h, filler]

theorem not_branchClass_iff (i : Instr) : ¬ BranchClass i ↔ isBranchClass i = false := by
  rw [← isBranchClass_iff, Bool.not_eq_true]

theorem emit_of_not_branchClass (b : Bool) {i : Instr} (h : ¬ BranchClass i) : emit b i = [i] := by
  simp [emit, (not_branchClass_iff i).mp h]

theorem not_branchClass_nop : ¬ BranchClass .nop := (not_branchClass_iff _).mpr rfl

theorem filled_emit (i : Instr) : Filled (emit false i) := by
  intro n j hj hb
  by_cases hi : BranchClass i
  · rw [emit_of_branchClass hi] at hj ⊢
    match n with
    | 0 => rfl
    | 1 => cases hj; exact absurd hb not_branchClass_nop
    | n + 2 => cases hj
  · rw [emit_of_not_branchClass false hi] at hj
    match n with
    | 0 => cases hj; exact absurd hb hi
    | n + 1 => cases hj

theorem assemble_cons (b : Bool) (i : Instr) (l : List Instr) : assemble b (i :: l) = emit b i ++ assemble b l := rfl

theorem assemble_append (b : Bool) (l l' : List Instr) : assemble b (l ++ l') = assemble b l ++ assemble b l' :=
  List.flatMap_append

theorem filled_assemble (l : List Instr) : Filled (assemble false l) := by
  induction l with
  | nil => intro n i hi; cases hi
  | cons i rest ih => exact (filled_emit i).append ih

theorem assemble_of_not_branchClass (b : Bool) {l : List Instr} (h : ∀ i ∈ l, ¬ BranchClass i) : assemble b l = l := by
  induction l with
  | nil => rfl
  | cons i rest ih =>
    obtain ⟨hi, hrest⟩ := List.forall_mem_cons.mp h
    rw [assemble_cons, emit_of_not_branchClass b hi, ih hrest, List.singleton_append]

theorem assemble_delaySlots (l : List Instr) : assemble true l = l := by
  induction l with
  | nil => rfl
  | cons i rest ih => rw [assemble_cons, emit_delaySlots, ih, List.singleton_append]

theorem assemble_emit (i : Instr) : assemble false (emit true i) = emit false i := by
  rw [emit_delaySlots, assemble_cons]
  exact List.append_nil _

theorem not_branchClass_shift (op : ShiftOp) (rd : Reg) : ¬ BranchClass (op.instr rd) :=
  (not_branchClass_iff _).mpr (by cases op <;> rfl)

theorem not_branchClass_binary (op : BinaryOp) (ra rb : Reg) : ¬ BranchClass (op.instr ra rb) :=
  (not_branchClass_iff _).mpr (by cases op <;> rfl)

theorem assemble_loadConst (rd : Reg) (k : Word) : assemble false (loadConst rd k) = loadConst rd k := rfl

theorem assemble_replicate (n : Nat) {i : Instr} (h : ¬ BranchClass i) :
    assemble false (List.replicate n i) = List.replicate n i :=
  assemble_of_not_branchClass false fun _ hj => (List.eq_of_mem_replicate hj) ▸ h

/-- The fillers are all that the option adds to an expansion (R59). -/
theorem expand_eq_assemble (a : PAddr) (p : Pseudo) : expand false a p = assemble false (expand true a p) := by
  cases p with
  | movFromMem | movToMem | movConst | push | pop => rfl
  | binary op ra rb =>
    rw [expand, expand, assemble_cons, emit_of_not_branchClass _ (not_branchClass_binary op ra rb)]
    rfl
  | shift op rd k =>
    rw [expand, expand]
    split
    · exact (assemble_replicate k (not_branchClass_shift op rd)).symm
    · rfl
  | jmpLabel | jalLabel => simp only [expand, assemble_append, assemble_emit, assemble_loadConst]
  | call | ret =>
    simp only [expand, assemble_append, assemble_emit, assemble_loadConst]
    rfl
  | retn n =>
    rw [expand, expand, assemble_append, assemble_append, assemble_emit,
      assemble_replicate n ((not_branchClass_iff _).mpr rfl)]
    rfl

/-- Settles O58: each emitted branch brings its filler, and appending keeps it next to its branch. -/
theorem emittedBranchesAreFollowedByAFiller : Obligations.EmittedBranchesAreFollowedByAFiller := by
  refine ⟨?_, fun l => assemble_of_not_branchClass false, expand_eq_assemble, assemble_delaySlots⟩
  rintro l out (rfl | ⟨a, p, rfl⟩)
  · exact filled_assemble l
  · rw [expand_eq_assemble]
    exact filled_assemble _

end Sys2Proof.Machine
end

section
/-! PROOF. Format 00 and the delay slot: NOP, BR, JMP and JAL (40_control.md R62 to R70). -/

namespace Sys2Proof.Machine

open Sys2Proof.Claims

/-! ## The words of format 00 (30_encoding.md R42, R47) -/

theorem controlWord_fields (op : Fin 4) (cond : Cond) :
    let v := BitVec.ofNat 16 (0x1000 * op.val + 256 * condValue cond)
    formatField v = 0 ∧ opField v = op ∧ condField v = cond.code.toFin := by
  cases cond <;> revert op <;> decide

/-- The high byte of a BR, JMP or JAL fixes its format, op and condition fields. -/
theorem controlFields_of_masked {w : Word} (op : Fin 4) (cond : Cond)
    (h : w &&& 0xFF00#16 = BitVec.ofNat 16 (0x1000 * op.val + 256 * condValue cond)) :
    formatField w = 0 ∧ opField w = op ∧ condField w = cond.code.toFin := by
  obtain ⟨hformat, hop, hcond⟩ := controlWord_fields op cond
  exact ⟨(congrArg BitVec.toFin (extractLsb'_of_masked h rfl)).trans hformat,
    (congrArg BitVec.toFin (extractLsb'_of_masked h rfl)).trans hop,
    (congrArg BitVec.toFin (extractLsb'_of_masked h rfl)).trans hcond⟩

theorem rbField_eq_rbOf (w : Word) : rbField w = rbOf w := by
  ext
  simp [rbField, rbOf, regAt, Fin.ofNat]

theorem byteField_eq_byteOf (w : Word) : byteField w = byteOf w := rfl

theorem encoded_nop : Encoded 0x0000#16 0xF000#16 (fun _ => .nop) := by
  intro w hw
  have hformat : formatField w = 0 := congrArg BitVec.toFin (extractLsb'_of_masked (lo := 14) (len := 2) hw rfl)
  have hop : opField w = 0 := congrArg BitVec.toFin (extractLsb'_of_masked (lo := 12) (len := 2) hw rfl)
  rw [decode_of_format0 hformat, decodeControl, hop]

theorem encoded_brOf (cond : Cond) :
    Encoded (BitVec.ofNat 16 (0x1000 + 256 * condValue cond)) 0xFF00#16 (fun w => brOf cond (byteOf w)) := by
  intro w hw
  obtain ⟨hformat, hop, hcond⟩ := controlFields_of_masked 1 cond hw
  rw [decode_of_format0 hformat, decodeControl, hop, hcond, condOf_code, byteField_eq_byteOf]
  rfl

theorem encoded_jmpOf (cond : Cond) :
    Encoded (BitVec.ofNat 16 (0x2000 + 256 * condValue cond)) 0xFF00#16 (fun w => jmpOf cond (rbOf w)) := by
  intro w hw
  obtain ⟨hformat, hop, hcond⟩ := controlFields_of_masked 2 cond hw
  rw [decode_of_format0 hformat, decodeControl, hop, hcond, condOf_code, rbField_eq_rbOf]
  rfl

theorem encoded_jalOf (cond : Cond) :
    Encoded (BitVec.ofNat 16 (0x3000 + 256 * condValue cond)) 0xFF00#16 (fun w => jalOf cond (rbOf w)) := by
  intro w hw
  obtain ⟨hformat, hop, hcond⟩ := controlFields_of_masked 3 cond hw
  rw [decode_of_format0 hformat, decodeControl, hop, hcond, condOf_code, rbField_eq_rbOf]
  rfl

/-! ## The program counter's advance (R62, R65) -/

theorem add_one_toNat (a : PAddr) : (a + 1#15).toNat = (a.toNat + 1) % 32768 := by
  rw [BitVec.toNat_add, BitVec.toNat_ofNat]

theorem nextPc_of_pc {s t : State} (h : t.pc = if s.jp then s.jt else s.pc + 1#15) : NextPc s t := by
  refine ⟨fun hj => ?_, fun hj => ?_⟩
  · rw [h, if_pos hj]
  · rw [h, hj, if_neg Bool.false_ne_true, add_one_toNat]

theorem nextPc_advance (s : State) (take : Option PAddr) : NextPc s (s.advance take) := nextPc_of_pc rfl

theorem sameControl_advance (s : State) (take : Option PAddr) : SameControl s (s.advance take) :=
  ⟨rfl, rfl, rfl, rfl, rfl, rfl, rfl, rfl, rfl⟩

theorem sameMemory_advance (s : State) (take : Option PAddr) : SameMemory s (s.advance take) :=
  ⟨fun _ => ⟨rfl, rfl, rfl⟩, rfl⟩

/-! ## Conditions (R66) -/

/-- Each even code selects a flag or P, and each odd code its negation. -/
theorem holds_iff (f : Flags) (cond : Cond) : f.holds cond = true ↔ CondHolds f cond := by
  cases cond <;> simp [Flags.holds, Flags.condBase, Flags.positive, Cond.code, CondHolds]

/-- A jump on a condition is pending at its target exactly when the condition holds. -/
theorem advance_on_cond (s : State) (cond : Cond) (target : PAddr) {t : State}
    (ht : t = s.advance (if s.flags.holds cond then some target else none)) :
    (CondHolds s.flags cond → t.jp = true ∧ t.jt = target) ∧ (¬ CondHolds s.flags cond → t.jp = false) := by
  subst ht
  rw [← holds_iff]
  refine ⟨fun hc => ?_, fun hc => ?_⟩
  · rw [if_pos hc]
    exact ⟨rfl, rfl⟩
  · rw [if_neg hc]
    rfl

/-! ## NOP, BR, JMP and JAL -/

theorem exec_nop (s : State) : exec .nop s = .next (s.advance none) := rfl

/-- Settles O15: NOP is the advance alone. -/
theorem nopOnlyGoesOn : Obligations.NopOnlyGoesOn :=
  ⟨encoded_nop, rfl, fun s => ⟨s.advance none, exec_nop s, fun _ => rfl, rfl, ⟨nextPc_advance s none, rfl⟩,
    sameControl_advance s none, sameMemory_advance s none⟩⟩

/-- Settles O16: BR is an advance that takes the branch target exactly when the condition holds. -/
theorem brJumpsRelativeWhenItsConditionHolds : Obligations.BrJumpsRelativeWhenItsConditionHolds := by
  refine fun cond => ⟨encoded_brOf cond, fun disp s => ?_⟩
  obtain ⟨htaken, hnot⟩ := advance_on_cond s cond (branchTarget s.pc disp) rfl
  refine ⟨_, exec_brOf cond disp s, fun hc => ?_, hnot, nextPc_advance s _, fun _ => rfl, rfl,
    sameControl_advance s _, sameMemory_advance s _⟩
  obtain ⟨hjp, hjt⟩ := htaken hc
  exact ⟨hjp, by rw [hjt, branchTarget_toNat]⟩

theorem jumpTarget_toNat (x : Word) : (jumpTarget x).toNat = x.toNat % 32768 := BitVec.toNat_setWidth 15 x

/-- Settles O17: JMP is an advance that takes the register's low 15 bits exactly when the condition holds. -/
theorem jmpJumpsToTheRegisterWhenItsConditionHolds : Obligations.JmpJumpsToTheRegisterWhenItsConditionHolds := by
  refine fun cond => ⟨encoded_jmpOf cond, fun rs s => ?_⟩
  obtain ⟨htaken, hnot⟩ := advance_on_cond s cond (jumpTarget (s.readReg rs)) rfl
  refine ⟨_, exec_jmpOf cond rs s, fun hc => ?_, hnot, nextPc_advance s _, fun _ => rfl, rfl,
    sameControl_advance s _, sameMemory_advance s _⟩
  obtain ⟨hjp, hjt⟩ := htaken hc
  exact ⟨hjp, by rw [hjt, jumpTarget_toNat]⟩

theorem linkValue_toNat (a : PAddr) : (linkValue a).toNat = (a.toNat + Config.jalLinkOfs.toNat) % 32768 := by
  rw [linkValue, BitVec.toNat_setWidth, BitVec.toNat_add, BitVec.toNat_ofNat]
  omega

theorem exec_jalOf_taken {cond : Cond} {s : State} (rs : Reg) (h : CondHolds s.flags cond) :
    exec (jalOf cond rs) s =
      .next ((s.writeReg Config.jalLinkReg (linkValue s.pc)).advance (some (jumpTarget (s.readReg rs)))) := by
  rw [exec_jalOf, jumpLinkOn, if_pos ((holds_iff _ _).mpr h)]

theorem exec_jalOf_not_taken {cond : Cond} {s : State} (rs : Reg) (h : ¬ CondHolds s.flags cond) :
    exec (jalOf cond rs) s = .next (s.advance none) := by
  rw [exec_jalOf, jumpLinkOn, if_neg fun hc => h ((holds_iff _ _).mp hc)]

/-- Settles O18: a taken JAL writes the link and advances to the target read before; one not taken only advances. -/
theorem jalLinksAndJumpsWhenItsConditionHolds : Obligations.JalLinksAndJumpsWhenItsConditionHolds := by
  refine fun cond => ⟨encoded_jalOf cond, fun rs s => ?_⟩
  by_cases hc : CondHolds s.flags cond
  · have hlink := WritesReg.of_writeReg s Config.jalLinkReg (linkValue s.pc)
    exact ⟨_, exec_jalOf_taken rs hc,
      fun _ => ⟨rfl, jumpTarget_toNat (s.readReg rs), linkValue s.pc, linkValue_toNat s.pc, hlink⟩,
      fun hnot => absurd hc hnot, nextPc_of_pc rfl, rfl, ⟨rfl, rfl, rfl, rfl, rfl, rfl, rfl, rfl, rfl⟩,
      ⟨fun _ => ⟨rfl, rfl, rfl⟩, rfl⟩⟩
  · exact ⟨_, exec_jalOf_not_taken rs hc, fun h => absurd h hc, fun _ => ⟨rfl, fun _ => rfl⟩,
      nextPc_advance s none, rfl, sameControl_advance s none, sameMemory_advance s none⟩

/-! ## The step and its boundary (R62, 60_exceptions.md R115) -/

theorem step_of_exec {s t : State} {i : Instr} (hrun : s.run = .running) (hi : decode s.fetch = .ok i)
    (ht : exec i s = .next t) : step s = .next (t.boundary (isSoftwareInterrupt i)) := by
  simp only [step, hrun, hi, ht]

/-- Settles O6, by step_of_exec. -/
theorem stepRunsTheDecodedInstruction : Obligations.StepRunsTheDecodedInstruction := fun _ _ _ => step_of_exec

/-- A boundary at s has nothing to do: no request is scheduled or held, and no re-scan is owed that a pending jump
does not put off. -/
structure NothingDue (s : State) : Prop where
  raises : s.raises = []
  held : s.held = []
  rescan : s.jp = false → s.rescan = false

theorem takeRequests_of_no_raises {s : State} (h : s.raises = []) : s.takeRequests = s := by
  rcases takeRequests_cases s with ⟨-, e⟩ | ⟨now, later, hr, -⟩
  · exact e
  · cases h.symm.trans hr

theorem deliverRaises_of_no_held {s : State} (h : s.held = []) : s.deliverRaises = s := by
  rw [State.deliverRaises, h, List.foldl_nil, ← h]

theorem NothingDue.boundary_eq {s : State} (h : NothingDue s) (b : Bool) : s.boundary b = s := by
  cases hj : s.jp with
  | true => rw [boundary_jump b hj, takeRequests_of_no_raises h.raises]
  | false =>
    rw [boundary_deliver b hj (h.rescan hj), takeRequests_of_no_raises h.raises, deliverRaises_of_no_held h.held]

theorem NothingDue.step_eq {s t : State} {i : Instr} (h : NothingDue t) (hrun : s.run = .running)
    (hi : decode s.fetch = .ok i) (ht : exec i s = .next t) : step s = .next t := by
  rw [step_of_exec hrun hi ht, h.boundary_eq]

/-- With no request and no re-scan owed, the step of an instruction that only advances is the advance. -/
theorem step_advance {s : State} {i : Instr} {take : Option PAddr} (hi : decode s.fetch = .ok i)
    (h : exec i s = .next (s.advance take)) (hrun : s.run = .running) (hraises : s.raises = []) (hheld : s.held = [])
    (hrescan : s.rescan = false) : step s = .next (s.advance take) :=
  NothingDue.step_eq ⟨hraises, hheld, fun _ => hrescan⟩ hrun hi h

/-! ## The delay slot (R63) -/

theorem exec_next (i : Instr) (s : State) : ∃ t, exec i s = .next t := by
  cases i <;> exact ⟨_, rfl⟩

/-- An INT that is executed leaves no jump pending; every other instruction advances PC. -/
theorem exec_pc {i : Instr} {s t : State} (h : exec i s = .next t) :
    (t.pc = if s.jp then s.jt else s.pc + 1#15) ∨ (isSoftwareInterrupt i = true ∧ t.jp = false) := by
  rcases exec_shape h with ⟨u, take, rfl, hkept, -⟩ | ⟨n, rfl, rfl⟩
  · left
    rw [advance_pc, hkept.pc, hkept.jp, hkept.jt]
  · exact .inr ⟨rfl, rfl⟩

/-- A step that leaves a jump pending advances PC: its boundary services nothing (R115). -/
theorem step_pc_of_jump {s t : State} (hrun : s.run = .running) (h : step s = .next t) (hjp : t.jp = true)
    (ht : t.run = .running) : t.pc = if s.jp then s.jt else s.pc + 1#15 := by
  rcases step_cases h with ⟨hstuck, -⟩ | ⟨-, -, rfl⟩ | ⟨-, i, u, -, hu, rfl⟩
  · exact absurd hrun hstuck
  · cases ht
  · rw [boundary_jp] at hjp
    rw [boundary_jump _ hjp, takeRequests_pc]
    rcases exec_pc hu with hpc | ⟨-, hnone⟩
    · exact hpc
    · cases hjp.symm.trans hnone

/-- Only ENI and RTI owe a re-scan, and RTI's waits for its jump. -/
theorem exec_nothingDue {i : Instr} {s t : State} (h : exec i s = .next t) (heni : i ≠ .eni)
    (hrescan : s.rescan = false) (hraises : s.raises = []) (hheld : s.held = []) : NothingDue t := by
  by_cases hrti : i = .rti
  · subst hrti
    cases h
    exact ⟨hraises, hheld, fun hjp => nomatch hjp⟩
  · rcases exec_shape h with ⟨u, take, rfl, hkept, hsame, -⟩ | ⟨n, -, rfl⟩
    · exact ⟨hkept.raises.trans hraises, hkept.held.trans hheld, fun _ => (hsame heni hrti).trans hrescan⟩
    · exact ⟨hraises, hheld, fun _ => hrescan⟩

/-- Settles O19: both boundaries leave PC as the instruction before them set it. -/
theorem takenJumpLandsAfterItsDelaySlot : Obligations.TakenJumpLandsAfterItsDelaySlot := by
  intro s t i hsrun hstep hjp htrun hi heni hint hrescan hraises hheld
  refine ⟨(nextPc_of_pc (step_pc_of_jump hsrun hstep hjp htrun)).2, ?_⟩
  obtain ⟨u, hu⟩ := exec_next i t
  refine ⟨u, (exec_nothingDue hu heni hrescan hraises hheld).step_eq htrun hi hu, ?_⟩
  rcases exec_pc hu with hpc | ⟨hsoft, -⟩
  · rw [hpc, if_pos hjp]
  · cases hint.symm.trans hsoft

/-- Settles O20: no boundary of the three steps has anything to do, so each step is an advance. -/
theorem branchInADelaySlotRunsItsOwnSlotAtTheFirstTarget :
    Obligations.BranchInADelaySlotRunsItsOwnSlotAtTheFirstTarget := by
  intro s d1 d2 t u hrun hjp hrescan hraises hheld hbr1 hstep1 hbr2 hstep2 hnop
  cases hstep1.symm.trans (step_advance hbr1 (exec_br d1 s) hrun hraises hheld hrescan)
  cases hstep2.symm.trans (step_advance hbr2 (exec_br d2 _) hrun hraises hheld hrescan)
  have hslot := (nextPc_advance s (some (branchTarget s.pc d1))).2 hjp
  refine ⟨hslot, branchTarget_toNat s.pc d1, _, step_advance hnop (exec_nop _) hrun hraises hheld hrescan, ?_, rfl⟩
  refine (branchTarget_toNat _ d2).trans ?_
  rw [hslot]
  omega

end Sys2Proof.Machine
end

section
/-! PROOF. Format 01: the transfer and the system instructions' own effects (41_transfer_system.md R71 to R77). -/

namespace Sys2Proof.Machine

open Sys2Proof.Claims

/-! ## The words of format 01 (30_encoding.md R43, R49) -/

theorem rdField_eq_rdOf (w : Word) : rdField w = rdOf w := by
  ext
  simp [rdField, rdOf, regAt, Fin.ofNat, Nat.shiftRight_eq_div_pow]

theorem raField_eq_raOf (w : Word) : raField w = raOf w := by
  ext
  simp [raField, raOf, regAt, Fin.ofNat, Nat.shiftRight_eq_div_pow]

theorem transferWord_fields (sub : Fin 8) :
    let v := BitVec.ofNat 16 (0x4000 + 256 * sub.val)
    v &&& 0xC700#16 = v ∧ formatField v = 1 ∧ subField v = sub := by
  revert sub
  decide

/-- The format and the sub field choose the instruction; its operands are read from the rest of the word. -/
theorem encoded_transfer (sub : Fin 8) {f : Word → Instr}
    (h : ∀ w, subField w = sub → decodeTransfer w = .ok (f w)) :
    Encoded (BitVec.ofNat 16 (0x4000 + 256 * sub.val)) 0xC700#16 f := by
  intro w hw
  obtain ⟨hmask, hformatv, hsubv⟩ := transferWord_fields sub
  obtain ⟨hformat, hsub⟩ := (formatSub_iff hmask).mp hw
  rw [decode_of_format1 (hformat.trans hformatv), h w (hsub.trans hsubv)]

theorem encoded_mov : Encoded 0x4000#16 0xC700#16 (fun w => .mov (rdOf w) (raOf w)) :=
  encoded_transfer 0 fun w hsub => by rw [decodeTransfer, hsub, rdField_eq_rdOf, raField_eq_raOf]

theorem encoded_load : Encoded 0x4200#16 0xC700#16 (fun w => .load (rdOf w) (raOf w)) :=
  encoded_transfer 2 fun w hsub => by rw [decodeTransfer, hsub, rdField_eq_rdOf, raField_eq_raOf]

theorem encoded_stor : Encoded 0x4300#16 0xC700#16 (fun w => .stor (raOf w) (rbOf w)) :=
  encoded_transfer 3 fun w hsub => by rw [decodeTransfer, hsub, raField_eq_raOf, rbField_eq_rbOf]

theorem encoded_eni : Encoded 0x4400#16 0xC700#16 (fun _ => .eni) :=
  encoded_transfer 4 fun w hsub => by rw [decodeTransfer, hsub]

theorem encoded_dsi : Encoded 0x4500#16 0xC700#16 (fun _ => .dsi) :=
  encoded_transfer 5 fun w hsub => by rw [decodeTransfer, hsub]

theorem encoded_rti : Encoded 0x4600#16 0xC700#16 (fun _ => .rti) :=
  encoded_transfer 6 fun w hsub => by rw [decodeTransfer, hsub]

theorem encoded_int : Encoded 0x4700#16 0xC700#16 (fun w => .int (byteOf w)) :=
  encoded_transfer 7 fun w hsub => by rw [decodeTransfer, hsub, byteField_eq_byteOf]

/-! ## Going on after an instruction's own effect (40_control.md R62) -/

theorem nextPc_of_kept {s u : State} (h : Kept s u) (take : Option PAddr) : NextPc s (u.advance take) :=
  nextPc_of_pc (by rw [advance_pc, h.jp, h.jt, h.pc])

theorem goesOn_of_kept {s u : State} (h : Kept s u) : GoesOn s (u.advance none) := ⟨nextPc_of_kept h none, rfl⟩

/-! ## MOV (R71) -/

theorem sameControl_writeReg (s : State) (rd : Reg) (v : Word) : SameControl s (s.writeReg rd v) :=
  ⟨rfl, rfl, rfl, rfl, rfl, rfl, rfl, rfl, rfl⟩

theorem sameMemory_writeReg (s : State) (rd : Reg) (v : Word) : SameMemory s (s.writeReg rd v) :=
  ⟨fun _ => ⟨rfl, rfl, rfl⟩, rfl⟩

theorem exec_mov (rd ra : Reg) (s : State) :
    exec (.mov rd ra) s = .next ((s.writeReg rd (s.readReg ra)).advance none) := rfl

/-- Settles O21: MOV is a register write and the advance. -/
theorem movCopiesARegister : Obligations.MovCopiesARegister :=
  ⟨encoded_mov, fun rd ra s => ⟨_, exec_mov rd ra s, WritesReg.of_writeReg s rd _, rfl,
    goesOn_of_kept ((Kept.refl s).writeReg rd _), sameControl_writeReg s rd (s.readReg ra),
    sameMemory_writeReg s rd (s.readReg ra)⟩⟩

/-! ## LOAD (R72, 20_memory.md R26) -/

@[simp] theorem readReg_busRead (s : State) (a : Word) (j : Reg) : (s.busRead a).2.readReg j = s.readReg j :=
  readReg_congr (busRead_regs s a) j

/-- An unmapped address of the I/O window reaches nothing (R24, R26). -/
theorem busTarget_of_unmapped {a : Word} (hio : 0xFF00 ≤ a.toNat) (himask : a ≠ Config.addrImask)
    (hmap : Config.ioMap a = none) : busTarget a = .unmapped := by
  simp only [busTarget, if_pos ((topByte_iff_window a).mpr hio), if_neg himask, hmap]

theorem busRead_of_mapped (s : State) {a : Word} {r : PeriphReg} (hio : 0xFF00 ≤ a.toNat)
    (himask : a ≠ Config.addrImask) (hmap : Config.ioMap a = some r) :
    s.busRead a = (Config.devRead s.devEvents r, { s with devEvents := .read r :: s.devEvents }) := by
  simp only [State.busRead, busTarget_device_iff.mpr ⟨hio, himask, hmap⟩]

theorem busRead_of_unmapped (s : State) {a : Word} (hio : 0xFF00 ≤ a.toNat) (himask : a ≠ Config.addrImask)
    (hmap : Config.ioMap a = none) : s.busRead a = (0xFFFF#16, s) := by
  simp only [State.busRead, busTarget_of_unmapped hio himask hmap]

/-- A bus read changes neither the interrupt controller nor the requests; that it arms no timer is log 7. -/
theorem sameControl_busRead (s : State) (a : Word) : SameControl s (s.busRead a).2 := by
  simp [SameControl, SameRequests]

theorem sameBytes_busRead (s : State) (a : Word) : SameBytes s (s.busRead a).2 := by
  simp [SameBytes]

/-- Settles O22: a bus read and a write of rd; by the address the bus read is one of four. -/
theorem loadReadsTheDataBus : Obligations.LoadReadsTheDataBus := by
  refine ⟨encoded_load, fun rd ra s => ?_⟩
  have hwrites : WritesReg rd (s.busRead (s.readReg ra)).1 s
      ((s.busRead (s.readReg ra)).2.writeReg rd (s.busRead (s.readReg ra)).1) := fun x => by
    rw [readReg_writeReg, readReg_busRead]
  refine ⟨_, _, exec_load rd ra s, hwrites, busRead_flags s _, goesOn_of_kept ((Kept.busRead s _).writeReg rd _),
    sameControl_busRead s _, sameBytes_busRead s _, ?_⟩
  rw [advance_devEvents, writeReg_devEvents]
  split
  · rename_i hlow
    rw [busRead_of_lt s hlow]
    exact ⟨rfl, rfl⟩
  · rename_i hhigh
    have hio : 0xFF00 ≤ (s.readReg ra).toNat := Nat.le_of_not_lt hhigh
    split
    · rename_i himask
      rw [himask, busRead_addrImask]
      exact ⟨rfl, rfl⟩
    · rename_i himask
      split
      · rename_i r hmap
        rw [busRead_of_mapped s hio himask hmap]
        exact ⟨rfl, rfl⟩
      · rename_i hmap
        rw [busRead_of_unmapped s hio himask hmap]
        exact ⟨rfl, rfl⟩

/-! ## STOR (R73, 20_memory.md R27, R30) -/

theorem busWrite_of_mapped (s : State) {a : Word} (v : Word) {r : PeriphReg} (hio : 0xFF00 ≤ a.toNat)
    (himask : a ≠ Config.addrImask) (hmap : Config.ioMap a = some r) :
    s.busWrite a v = { s with devEvents := .write r v :: s.devEvents, timerArmed := s.timerAfterWrite r v } := by
  simp only [State.busWrite, busTarget_device_iff.mpr ⟨hio, himask, hmap⟩]

theorem busWrite_of_unmapped (s : State) {a : Word} (v : Word) (hio : 0xFF00 ≤ a.toNat)
    (himask : a ≠ Config.addrImask) (hmap : Config.ioMap a = none) : s.busWrite a v = s := by
  simp only [State.busWrite, busTarget_of_unmapped hio himask hmap]

/-- A word write touches the two cells of its word only (log 9). -/
theorem readByte_writeWord_other (m : Memory) {a : PAddr} (v : Word) {k : Nat} (h : k / 2 ≠ a.toNat) :
    (m.writeWord a v).readByte k = m.readByte k := by
  rw [Memory.writeWord, readByte_writeByte_other _ _ (by omega), readByte_writeByte_other _ _ (by omega)]

/-- Settles O23: by the address the bus write is one of four, and each changes one component of the state. -/
theorem storWritesTheDataBus : Obligations.StorWritesTheDataBus := by
  refine ⟨encoded_stor, fun ra rb s hwf => ?_⟩
  have hkept : Kept s (s.busWrite (s.readReg ra) (s.readReg rb)) := Kept.busWrite s _ _
  refine ⟨_, exec_stor ra rb s, readReg_busWrite s _ _, busWrite_flags s _ _, goesOn_of_kept hkept, hkept.ipend,
    hkept.se, hkept.ra, busWrite_rescan s _ _, hkept.run, hkept.raises, hkept.held,
    fun k => ⟨congrArg (Memory.readByte · k) hkept.pmem, congrArg (Memory.readByte · k) hkept.dmemInit⟩, ?_⟩
  rw [advance_dmem, advance_imask, advance_devEvents, advance_timerArmed]
  split
  · rename_i hlow
    rw [busWrite_of_lt s _ hlow]
    refine ⟨fun a => ?_, fun k hk => readByte_writeWord_other _ _ (by simpa using hk), rfl, rfl, rfl⟩
    rw [readWord_writeWord hwf]
    simp [eq_comm]
  · rename_i hhigh
    have hio : 0xFF00 ≤ (s.readReg ra).toNat := Nat.le_of_not_lt hhigh
    split
    · rename_i himask
      rw [himask, busWrite_addrImask]
      exact ⟨fun _ => rfl, rfl, rfl, rfl⟩
    · rename_i himask
      split
      · rename_i r hmap
        rw [busWrite_of_mapped s _ hio himask hmap]
        refine ⟨fun _ => rfl, rfl, rfl, ?_⟩
        rw [State.timerAfterWrite]
        split
        · cases Config.timerEffect s.devEvents r (s.readReg rb) <;> rfl
        · rfl
      · rename_i hmap
        rw [busWrite_of_unmapped s _ hio himask hmap]
        exact ⟨fun _ => rfl, rfl, rfl, rfl⟩

/-! ## DSI, ENI, RTI and INT (R74 to R77) -/

theorem sameMemory_flags (s : State) (f : Flags) (b : Bool) : SameMemory s { s with flags := f, rescan := b } :=
  ⟨fun _ => ⟨rfl, rfl, rfl⟩, rfl⟩

theorem exec_dsi (s : State) :
    exec .dsi s = .next (State.advance { s with flags := { s.flags with e := false } } none) := rfl

/-- Settles O26: DSI clears E and advances. -/
theorem dsiClearsEnableOnly : Obligations.DsiClearsEnableOnly :=
  ⟨encoded_dsi, fun s => ⟨_, exec_dsi s, rfl, fun _ => rfl, goesOn_of_kept (Kept.flags s _ s.rescan),
    ⟨rfl, rfl, rfl, rfl, rfl, rfl, rfl, rfl, rfl⟩, sameMemory_flags s { s.flags with e := false } s.rescan⟩⟩

/-- ENI's own effect, before the boundary makes the re-scan it owes (R74). -/
def eniEffect (s : State) : State :=
  State.advance { s with flags := { s.flags with e := true }, rescan := true } none

theorem exec_eni (s : State) : exec .eni s = .next (eniEffect s) := rfl

theorem goesOn_eniEffect (s : State) : GoesOn s (eniEffect s) := goesOn_of_kept (Kept.flags s _ true)

theorem sameMemory_eniEffect (s : State) : SameMemory s (eniEffect s) :=
  sameMemory_flags s { s.flags with e := true } true

/-- Settles O27, by exec_eni. -/
theorem eniSetsEnableAndOwesARescan : Obligations.EniSetsEnableAndOwesARescan :=
  ⟨encoded_eni, fun s => ⟨_, exec_eni s, rfl, rfl, fun _ => rfl, goesOn_eniEffect s, rfl, rfl, rfl, rfl, rfl,
    ⟨rfl, rfl, rfl⟩, sameMemory_eniEffect s⟩⟩

theorem exec_rti (s : State) : exec .rti s = .next s.returnFromInterrupt := rfl

/-- Settles O28: RTI is a taken jump to RA with E restored and a re-scan owed. -/
theorem rtiRestoresEnableAndJumpsToTheReturnAddress :
    Obligations.RtiRestoresEnableAndJumpsToTheReturnAddress :=
  ⟨encoded_rti, fun s => ⟨_, exec_rti s, rfl, rfl, nextPc_of_kept (Kept.flags s _ true) _, rfl, rfl, fun _ => rfl,
    rfl, rfl, rfl, rfl, rfl, ⟨rfl, rfl, rfl⟩, sameMemory_flags s { s.flags with e := s.se } true⟩⟩

theorem exec_int (n : Byte) (s : State) : exec (.int n) s = .next ((s.advance none).service (swVector n)) := rfl

/-- The low byte of the vector base is 0, so OR adds (60_exceptions.md R109). -/
theorem swVector_toNat (n : Byte) : (swVector n).toNat = swEntry n := by
  rw [swVector, BitVec.toNat_or, BitVec.toNat_setWidth_of_le (by omega)]
  exact (Nat.two_pow_add_eq_or_of_lt n.isLt 0x7F).symm

/-- Settles O29: INT is the service of its vector from the state that went on. -/
theorem intEntersItsVectorAndSavesEnableAndReturnAddress :
    Obligations.IntEntersItsVectorAndSavesEnableAndReturnAddress := by
  refine ⟨encoded_int, fun n s => ?_⟩
  obtain ⟨hslot, hnext⟩ := nextPc_advance s none
  exact ⟨_, exec_int n s, swVector_toNat n, rfl, rfl, rfl, hslot, hnext, fun _ => rfl, rfl, rfl, rfl, rfl,
    ⟨rfl, rfl, rfl⟩, sameMemory_advance s none⟩

end Sys2Proof.Machine
end

section
/-! PROOF. The re-scan that ENI and RTI ask for, at the boundary after ENI and after RTI's delay slot
(41_transfer_system.md R74, R76, 60_exceptions.md R112 to R116). -/

namespace Sys2Proof.Machine

open Sys2Proof.Claims

/-! ## The lowest ready source (R113) -/

theorem ready_iff (s : State) (k : Source) : (s.ipend &&& s.imask).getLsbD k.val = true ↔ Ready s k := by
  rw [BitVec.getLsbD_and, Bool.and_eq_true]
  rfl

/-- A re-scan by readiness: no source is ready and nothing is serviced, or the lowest ready one is. -/
theorem runRescan_ready_cases (s : State) :
    ((∀ k, ¬ Ready s k) ∧ s.runRescan = { s with rescan := false }) ∨
    ∃ k, LowestReady s k ∧
      s.runRescan = State.service { s with rescan := false, ipend := s.ipend &&& ~~~(BitVec.twoPow 16 k.val) }
        (hwVector k) := by
  rcases runRescan_cases s with ⟨hzero, e⟩ | ⟨k, hk, hbelow, e⟩
  · refine .inl ⟨fun k hk => ?_, e⟩
    rw [← ready_iff, hzero] at hk
    simp at hk
  · refine .inr ⟨k, ⟨(ready_iff s k).mp hk, fun j hj hready => ?_⟩, e⟩
    exact Bool.false_ne_true ((hbelow j hj).symm.trans ((ready_iff s j).mpr hready))

theorem lowestReady_unique {s : State} {j k : Source} (hj : LowestReady s j) (hk : LowestReady s k) : j = k := by
  obtain ⟨hj, hbelowj⟩ := hj
  obtain ⟨hk, hbelowk⟩ := hk
  rcases lt_trichotomy j k with hlt | heq | hgt
  · exact absurd hj (hbelowk j hlt)
  · exact heq
  · exact absurd hk (hbelowj k hgt)

theorem runRescan_of_not_ready {s : State} (h : ∀ k, ¬ Ready s k) : s.runRescan = { s with rescan := false } := by
  rcases runRescan_ready_cases s with ⟨-, e⟩ | ⟨k, ⟨hk, -⟩, -⟩
  · exact e
  · exact absurd hk (h k)

theorem runRescan_of_lowestReady {s : State} {k : Source} (h : LowestReady s k) :
    s.runRescan = State.service { s with rescan := false, ipend := s.ipend &&& ~~~(BitVec.twoPow 16 k.val) }
      (hwVector k) := by
  rcases runRescan_ready_cases s with ⟨hnone, -⟩ | ⟨j, hj, e⟩
  · obtain ⟨hk, -⟩ := h
    exact absurd hk (hnone k)
  · rw [e, lowestReady_unique hj h]

theorem hwVector_toNat (k : Source) : (hwVector k).toNat = hwEntry k := by
  revert k
  decide

/-! ## The requests a boundary presents (R112, R115, R116) -/

theorem maskAllows_iff (s : State) (k : Source) : MaskAllows s k ↔ k = 15 ∨ s.unmasked k = true := by
  rw [MaskAllows, State.unmasked, Fin.ext_iff]
  rfl

/-- A boundary that presents l takes in just that list, and leaves the schedule after it. -/
theorem takeRequests_of_presented {s : State} {l : List Source} {later : List (List Source)}
    (h : Presented s l later) : s.takeRequests.held = l ∧ s.takeRequests.raises = later := by
  obtain ⟨now, hraises | ⟨hraises, rfl, rfl⟩, hcount, rfl⟩ := h
  · rw [takeRequests_of_count_le hraises hcount]
    exact ⟨rfl, rfl⟩
  · rw [takeRequests_of_no_raises hraises]
    exact ⟨(List.append_nil _).symm, hraises⟩

/-- Requests none of which qualifies all pend, and nothing else happens (R112). -/
theorem deliverRaises_pend {s : State} (h : ∀ x ∈ s.held, ¬ Qualifies s x) :
    ∃ ip, s.deliverRaises = { s with held := [], ipend := ip } ∧
      ∀ j : Source, ip.getLsbD j.val = (s.ipend.getLsbD j.val || decide (j ∈ s.held)) := by
  refine foldl_raise_pend (s := { s with held := [] }) fun x hx ⟨he, hmask⟩ => ?_
  exact h x hx ⟨he, (maskAllows_iff s x).mpr hmask⟩

theorem raise_of_qualifies {s : State} {k : Source} (h : Qualifies s k) : s.raise k = s.service (hwVector k) := by
  obtain ⟨he, hmask⟩ := h
  rw [maskAllows_iff] at hmask
  simp [State.raise, he, hmask]

/-- The first request that qualifies is serviced; that clears E, so every other one pends (R112, R116). -/
theorem deliverRaises_first {s : State} {pre rest : List Source} {k : Source} (hheld : s.held = pre ++ k :: rest)
    (hpre : ∀ x ∈ pre, ¬ Qualifies s x) (hk : Qualifies s k) :
    ∃ ip, s.deliverRaises = State.service { s with held := [], ipend := ip } (hwVector k) ∧
      ∀ j : Source, ip.getLsbD j.val = (s.ipend.getLsbD j.val || decide (j ∈ pre ++ rest)) := by
  obtain ⟨ip, hfold, hip⟩ := foldl_raise_pend (s := { s with held := [] }) (l := pre) fun x hx ⟨he, hmask⟩ =>
    hpre x hx ⟨he, (maskAllows_iff s x).mpr hmask⟩
  have hraise : State.raise { s with held := [], ipend := ip } k =
      State.service { s with held := [], ipend := ip } (hwVector k) := raise_of_qualifies hk
  obtain ⟨ip', hfold', hip'⟩ := foldl_raise_pend (l := rest)
    (s := State.service { s with held := [], ipend := ip } (hwVector k)) fun _ _ ⟨he, _⟩ => Bool.false_ne_true he
  refine ⟨ip', ?_, fun j => ?_⟩
  · rw [State.deliverRaises, hheld, List.foldl_append, hfold, List.foldl_cons, hraise, hfold']
    rfl
  · simp only [hip', service_ipend, hip, Bool.or_assoc, List.mem_append, Bool.decide_or]

/-! ## A re-scan and the requests after it (R115) -/

/-- The re-scan services the lowest ready source and clears E, so every request after it pends. -/
theorem rescan_deliver_ready {s : State} {k : Source} (h : LowestReady s k) :
    ∃ ip, s.runRescan.deliverRaises =
        State.service { s with held := [], rescan := false, ipend := ip } (hwVector k) ∧
      ∀ j : Source, ip.getLsbD j.val = ((s.ipend.getLsbD j.val && j ≠ k) || decide (j ∈ s.held)) := by
  obtain ⟨ip, hdeliver, hip⟩ := deliverRaises_pend (s := s.runRescan) fun _ _ ⟨he, _⟩ => by
    rw [runRescan_of_lowestReady h] at he
    exact Bool.false_ne_true he
  refine ⟨ip, ?_, fun j => ?_⟩
  · rw [hdeliver, runRescan_of_lowestReady h]
    rfl
  · rw [hip, runRescan_held, runRescan_of_lowestReady h, service_ipend, pending_clear]

/-- With no source ready the first request that qualifies is serviced, and every other one pends. -/
theorem rescan_deliver_first {s : State} {pre rest : List Source} {k : Source} (h : ∀ k, ¬ Ready s k)
    (hheld : s.held = pre ++ k :: rest) (hpre : ∀ x ∈ pre, ¬ Qualifies s x) (hk : Qualifies s k) :
    ∃ ip, s.runRescan.deliverRaises =
        State.service { s with held := [], rescan := false, ipend := ip } (hwVector k) ∧
      ∀ j : Source, ip.getLsbD j.val = (s.ipend.getLsbD j.val || decide (j ∈ pre ++ rest)) := by
  rw [runRescan_of_not_ready h]
  exact deliverRaises_first (s := { s with rescan := false }) hheld hpre hk

/-- With no source ready and no request that qualifies, every request pends. -/
theorem rescan_deliver_pend {s : State} (h : ∀ k, ¬ Ready s k) (hheld : ∀ x ∈ s.held, ¬ Qualifies s x) :
    ∃ ip, s.runRescan.deliverRaises = { s with held := [], rescan := false, ipend := ip } ∧
      ∀ j : Source, ip.getLsbD j.val = (s.ipend.getLsbD j.val || decide (j ∈ s.held)) := by
  rw [runRescan_of_not_ready h]
  exact deliverRaises_pend (s := { s with rescan := false }) hheld

/-! ## RESCAN (10_state.md R17): the re-scan clears it, raises leave it -/

@[simp] theorem raise_rescan (s : State) (src : Source) : (s.raise src).rescan = s.rescan := by
  rcases raise_cases s src with ⟨-, -, e⟩ | ⟨-, e⟩ <;> rw [e]
  rfl

@[simp] theorem foldl_raise_rescan (l : List Source) (s : State) : (l.foldl State.raise s).rescan = s.rescan := by
  induction l generalizing s with
  | nil => rfl
  | cons x rest ih => rw [List.foldl_cons, ih, raise_rescan]

@[simp] theorem deliverRaises_rescan (s : State) : s.deliverRaises.rescan = s.rescan := foldl_raise_rescan _ _

/-- A re-scan is owed no more once it is made (R113). -/
@[simp] theorem runRescan_rescan (s : State) : s.runRescan.rescan = false := by
  rcases runRescan_cases s with ⟨-, e⟩ | ⟨src, -, -, e⟩ <;> rw [e]
  rfl

/-! ## ENI's step (R74) -/

/-- The state in which ENI's boundary makes its re-scan: its requests are taken in (R115). -/
def eniBoundary (s : State) : State := (eniEffect s).takeRequests

/-- ENI's boundary makes the re-scan, then delivers the requests it presents (R115). -/
theorem step_eni {s : State} (hrun : s.run = .running) (hi : decode s.fetch = .ok .eni) :
    step s = .next (eniBoundary s).runRescan.deliverRaises :=
  (step_of_exec hrun hi (exec_eni s)).trans (congrArg _ (boundary_rescan rfl rfl))

theorem ready_eniBoundary (s : State) (k : Source) : Ready (eniBoundary s) k ↔ Ready s k := by
  rw [Ready, eniBoundary, takeRequests_ipend, takeRequests_imask]
  rfl

theorem lowestReady_eniBoundary (s : State) (k : Source) : LowestReady (eniBoundary s) k ↔ LowestReady s k := by
  simp only [LowestReady, ready_eniBoundary]

/-- ENI's boundary raises its requests with E = 1. -/
theorem qualifies_eniBoundary (s : State) (k : Source) : Qualifies (eniBoundary s) k ↔ MaskAllows s k := by
  rw [Qualifies, MaskAllows, eniBoundary, takeRequests_flags, takeRequests_imask]
  exact and_iff_right rfl

theorem ipend_eniBoundary (s : State) : (eniBoundary s).ipend = s.ipend := takeRequests_ipend (eniEffect s)

theorem pc_eniBoundary (s : State) : (eniBoundary s).pc = (eniEffect s).pc := takeRequests_pc (eniEffect s)

/-- A service of source k from ENI's boundary: E is 1 there, and PC has gone on. -/
theorem entersFrom_of_service {s r : State} (k : Source) (hflags : r.flags = (eniBoundary s).flags)
    (hpc : r.pc = (eniBoundary s).pc) : EntersFrom s (r.service (hwVector k)) k := by
  obtain ⟨⟨hslot, hnext⟩, -⟩ := goesOn_eniEffect s
  have hra : (r.service (hwVector k)).ra = (eniEffect s).pc := hpc.trans (pc_eniBoundary s)
  refine ⟨hwVector_toNat k, ?_, rfl, fun hj => hra.trans (hslot hj), fun hj => ?_⟩
  · rw [service_se, hflags, eniBoundary, takeRequests_flags]
    rfl
  · rw [hra, hnext hj]

/-- Neither the re-scan nor the requests touch more than the arbiter's own state. -/
theorem eniStep_frame (s : State) :
    let t := (eniBoundary s).runRescan.deliverRaises
    t.jp = false ∧ t.imask = s.imask ∧ SameRegs s t ∧ SameMemory s t := by
  refine ⟨?_, ?_, readReg_congr ?_, fun k => ⟨?_, ?_, ?_⟩, ?_⟩ <;> simp [eniBoundary, eniEffect]

/-- Settles O30: the re-scan services the lowest ready source and clears E, so that every request pends; with no
source ready the requests are raised with E = 1. -/
theorem eniStepServicesTheLowestReadySource : Obligations.EniStepServicesTheLowestReadySource := by
  intro s l later hrun hi hpresented
  obtain ⟨hheld, hraises⟩ : (eniBoundary s).held = l ∧ (eniBoundary s).raises = later :=
    takeRequests_of_presented (s := eniEffect s) hpresented
  obtain ⟨hjp, himask, hregs, hmem⟩ := eniStep_frame s
  refine ⟨_, step_eni hrun hi, hjp, by simp, himask, hregs, hmem, by simp [hraises], by simp, fun k hk => ?_,
    fun hnone => ⟨fun pre k rest hl hpre hk => ?_, fun hl => ?_⟩⟩
  · obtain ⟨ip, hstep, hip⟩ := rescan_deliver_ready ((lowestReady_eniBoundary s k).mpr hk)
    rw [hheld, ipend_eniBoundary] at hip
    rw [hstep]
    exact ⟨entersFrom_of_service k rfl rfl, hip⟩
  · obtain ⟨ip, hstep, hip⟩ := rescan_deliver_first (s := eniBoundary s)
      (fun j hj => hnone j ((ready_eniBoundary s j).mp hj)) (hheld.trans hl)
      (fun x hx hq => hpre x hx ((qualifies_eniBoundary s x).mp hq)) ((qualifies_eniBoundary s k).mpr hk)
    rw [ipend_eniBoundary] at hip
    rw [hstep]
    exact ⟨entersFrom_of_service k rfl rfl, hip⟩
  · obtain ⟨ip, hstep, hip⟩ := rescan_deliver_pend (s := eniBoundary s)
      (fun j hj => hnone j ((ready_eniBoundary s j).mp hj))
      (fun x hx hq => hl x (hheld ▸ hx) ((qualifies_eniBoundary s x).mp hq))
    rw [hheld, ipend_eniBoundary] at hip
    rw [hstep]
    exact ⟨by simp [eniBoundary, eniEffect], nextPc_of_pc (pc_eniBoundary s), by simp [eniBoundary, eniEffect],
      by simp [eniBoundary, eniEffect], hip⟩

/-! ## RTI and its delay slot (R76, R113) -/

/-- With no requests, RTI's step makes the jump to RA pending and its boundary waits for the slot. -/
theorem step_rti {s : State} (hrun : s.run = .running) (hi : decode s.fetch = .ok .rti) (hraises : s.raises = [])
    (hheld : s.held = []) : step s = .next s.returnFromInterrupt :=
  NothingDue.step_eq ⟨hraises, hheld, fun hjp => nomatch hjp⟩ hrun hi (exec_rti s)

/-- A boundary with a re-scan owed and no requests only makes the re-scan (R115). -/
theorem boundary_rescan_only {s : State} (hjp : s.jp = false) (hrescan : s.rescan = true) (hraises : s.raises = [])
    (hheld : s.held = []) : s.boundary false = s.runRescan := by
  rw [boundary_rescan hjp hrescan, takeRequests_of_no_raises hraises,
    deliverRaises_of_no_held ((runRescan_held s).trans hheld)]

/-- With no requests, a NOP's step that is owed a re-scan goes on and makes it. -/
theorem step_nop_rescan {s : State} (hrun : s.run = .running) (hi : decode s.fetch = .ok .nop)
    (hrescan : s.rescan = true) (hraises : s.raises = []) (hheld : s.held = []) :
    step s = .next (s.advance none).runRescan :=
  (step_of_exec hrun hi (exec_nop s)).trans (congrArg _ (boundary_rescan_only rfl hrescan hraises hheld))

/-- Settles O31: the slot's NOP brings PC to RA, and its boundary makes the re-scan that RTI owes. -/
theorem rtiReturnsOrServicesAfterItsSlot : Obligations.RtiReturnsOrServicesAfterItsSlot := by
  intro s t hrun hjp hi hraises hheld hstep hnop
  cases hstep.symm.trans (step_rti hrun hi hraises hheld)
  obtain ⟨-, hnext⟩ := nextPc_of_kept (Kept.flags s { s.flags with e := s.se } true) (some s.ra)
  refine ⟨rfl, hnext hjp, rfl, _, step_nop_rescan hrun hnop rfl hraises hheld, runRescan_jp _, runRescan_rescan _,
    ?_⟩
  rcases runRescan_ready_cases (s.returnFromInterrupt.advance none) with ⟨hnone, e⟩ | ⟨k, hk, e⟩ <;> rw [e]
  · exact ⟨rfl, fun _ => rfl, fun _ => ⟨rfl, rfl, rfl⟩, fun k ⟨hk, _⟩ => absurd hk (hnone k)⟩
  · refine ⟨rfl, fun _ => rfl, fun hnone => ?_, fun j hj => ?_⟩
    · obtain ⟨hready, -⟩ := hk
      exact absurd hready (hnone k)
    · cases lowestReady_unique hj hk
      exact ⟨hwVector_toNat k, rfl, rfl, fun i => pending_clear s.ipend k i⟩

end Sys2Proof.Machine
end

section
/-! PROOF. Format 10: the arithmetic, logic and shift units' results, flags and frames (42_alu.md R78 to R101). -/

namespace Sys2Proof.Machine

open Sys2Proof.Claims

/-! ## The words of format 10 (30_encoding.md R45, R48, R49) -/

/-- The format, unit and op fields together. -/
theorem formatUnitOp_iff {w v : Word} (hv : v &&& 0xC7C0#16 = v) :
    w &&& 0xC7C0#16 = v ↔ formatField w = formatField v ∧ unitField w = unitField v ∧ aluOpField w = aluOpField v := by
  simp only [masked_iff_fields 0xC7C0#16 v [(14, 2), (9, 2), (6, 3)] (by decide) hv, List.mem_cons, List.not_mem_nil,
    or_false, forall_eq_or_imp, forall_eq]
  exact BitVec.toFin_inj.symm.and (BitVec.toFin_inj.symm.and BitVec.toFin_inj.symm)

theorem aluWord_fields (unit : Fin 4) (op : Fin 8) :
    let v := BitVec.ofNat 16 (0x8000 + 512 * unit.val + 64 * op.val)
    v &&& 0xC7C0#16 = v ∧ formatField v = 2 ∧ unitField v = unit ∧ aluOpField v = op := by
  revert unit op
  decide

/-- The unit and the op field choose the instruction; its operands are read from the rest of the word. -/
theorem encoded_alu (unit : Fin 4) (op : Fin 8) {f : Word → Instr}
    (h : ∀ w, unitField w = unit → aluOpField w = op → decodeAlu w = .ok (f w)) :
    Encoded (BitVec.ofNat 16 (0x8000 + 512 * unit.val + 64 * op.val)) 0xC7C0#16 f := by
  intro w hw
  obtain ⟨hmask, hformatv, hunitv, hopv⟩ := aluWord_fields unit op
  obtain ⟨hformat, hunit, hop⟩ := (formatUnitOp_iff hmask).mp hw
  rw [decode_of_format2 (hformat.trans hformatv), h w (hunit.trans hunitv) (hop.trans hopv)]

/-- An ALU word with two operand registers. -/
theorem encoded_aluBinary (unit : Fin 4) (op : Fin 8) {f : Reg → Reg → Reg → Instr}
    (h : ∀ w, unitField w = unit → aluOpField w = op → decodeAlu w = .ok (f (rdField w) (raField w) (rbField w))) :
    Encoded (BitVec.ofNat 16 (0x8000 + 512 * unit.val + 64 * op.val)) 0xC7C0#16
      (fun w => f (rdOf w) (raOf w) (rbOf w)) :=
  encoded_alu unit op fun w hunit hop => by
    rw [h w hunit hop, rdField_eq_rdOf, raField_eq_raOf, rbField_eq_rbOf]

/-- An ALU word with one operand register. -/
theorem encoded_aluUnary (unit : Fin 4) (op : Fin 8) {f : Reg → Reg → Instr}
    (h : ∀ w, unitField w = unit → aluOpField w = op → decodeAlu w = .ok (f (rdField w) (raField w))) :
    Encoded (BitVec.ofNat 16 (0x8000 + 512 * unit.val + 64 * op.val)) 0xC7C0#16 (fun w => f (rdOf w) (raOf w)) :=
  encoded_alu unit op fun w hunit hop => by rw [h w hunit hop, rdField_eq_rdOf, raField_eq_raOf]

/-! ## What every ALU instruction leaves (R80, R81) -/

/-- The common effect of the ALU instructions: C and O are the unit's where it defines them, else as before. -/
theorem aluEffect_applyAlu (s : State) (rd : Reg) (out : AluOut) :
    AluEffect rd out.result (out.carry.getD s.flags.c) (out.overflow.getD s.flags.o) s
      ((s.applyAlu rd out).advance none) := by
  refine ⟨fun x => readReg_applyAlu s rd x out, signBit_iff out.result, ?_, rfl, rfl, rfl,
    goesOn_of_kept (Kept.applyAlu s rd out), ⟨rfl, rfl, rfl, rfl, rfl, rfl, rfl, rfl, rfl⟩,
    ⟨fun _ => ⟨rfl, rfl, rfl⟩, rfl⟩⟩
  rw [advance_flags, applyAlu_flags, AluOut.flags, decide_eq_true_eq, ← BitVec.toNat_inj, BitVec.toNat_ofNat]

/-- An instruction runs with the results of its unit once these are known as numbers. -/
theorem aluRuns_of_applyAlu {i : Instr} {rd : Reg} {s : State} {out : AluOut} {value : Nat} {carry : Prop}
    {overflow : Word → Prop} (hexec : exec i s = .next ((s.applyAlu rd out).advance none))
    (hvalue : out.result.toNat = value) (hcarry : out.carry.getD s.flags.c = true ↔ carry)
    (hoverflow : out.overflow.getD s.flags.o = true ↔ overflow out.result) : AluRuns i rd s value carry overflow :=
  ⟨_, _, _, _, hexec, hvalue, hcarry, hoverflow, aluEffect_applyAlu s rd out⟩

/-- The arithmetic unit: the value and the carry of the exact integer, and O by its formula on the result (R79). -/
theorem aluRuns_of_arithOut {i : Instr} {rd : Reg} {s : State} {exact : Int} {f : Word → Bool} {value : Nat}
    {carry : Prop} {overflow : Word → Prop}
    (hexec : exec i s = .next ((s.applyAlu rd (arithOut exact f)).advance none))
    (hvalue : (value : Int) = exact % 65536) (hcarry : 65536 ≤ exact % 131072 ↔ carry)
    (hoverflow : ∀ r : Word, r.toNat = value → (f r = true ↔ overflow r)) : AluRuns i rd s value carry overflow := by
  have hraw : (rawResult exact).toNat = (exact % 131072).toNat := BitVec.toNat_ofInt ..
  have hresult : (arithOut exact f).result.toNat = value := by
    rw [arithOut_result f hraw]
    omega
  obtain ⟨c, hc, hcm⟩ := arithOut_carry f hraw
  refine aluRuns_of_applyAlu hexec hresult ?_ (hoverflow _ hresult)
  rw [hc, Option.getD_some, hcm, ← hcarry]
  omega

/-- The logic unit writes its result and keeps C and O (R80). -/
theorem logic_runs {i : Instr} {rd : Reg} {s : State} {r : Word}
    (hexec : exec i s = .next ((s.applyAlu rd (logicOut r)).advance none)) {p : Word → Prop} (hr : p r) :
    ∃ t r', exec i s = .next t ∧ p r' ∧ AluEffect rd r' s.flags.c s.flags.o s t :=
  ⟨_, r, hexec, hr, aluEffect_applyAlu s rd (logicOut r)⟩

/-- The shift unit: C is the bit that leaves, and O is kept (R80, R93). -/
theorem aluRuns_of_shiftOut {i : Instr} {rd : Reg} {s : State} {r : Word} {out : Bool} {value : Nat} {carry : Prop}
    (hexec : exec i s = .next ((s.applyAlu rd (shiftOut r out)).advance none)) (hvalue : r.toNat = value)
    (hcarry : out = true ↔ carry) : AluRuns i rd s value carry (fun _ => s.flags.o = true) :=
  aluRuns_of_applyAlu hexec hvalue hcarry Iff.rfl

/-! ## The arithmetic unit (R83 to R88) -/

theorem bit_le_one (b : Bool) : bit b ≤ 1 := by
  cases b <;> decide

theorem bit_injective {b c : Bool} (h : bit b = bit c) : b = c := by
  revert b c
  decide

theorem carryIn_eq_bit (f : Flags) : carryIn f = bit f.c := by
  unfold carryIn bit
  split <;> rfl

section
variable (rd ra rb : Reg) (s : State)

theorem add_runs :
    AluRuns (.add rd ra rb) rd s (((s.readReg ra).toNat + (s.readReg rb).toNat) % 65536)
      (65536 ≤ (s.readReg ra).toNat + (s.readReg rb).toNat)
      (fun r => (neg (s.readReg ra) ↔ neg (s.readReg rb)) ∧ ¬ (neg r ↔ neg (s.readReg ra))) :=
  aluRuns_of_arithOut rfl (by omega) (by omega) fun r _ => addOverflow_iff _ _ r

theorem addc_runs :
    AluRuns (.addc rd ra rb) rd s (((s.readReg ra).toNat + (s.readReg rb).toNat + bit s.flags.c) % 65536)
      (65536 ≤ (s.readReg ra).toNat + (s.readReg rb).toNat + bit s.flags.c)
      (fun r => (neg (s.readReg ra) ↔ neg (s.readReg rb)) ∧ ¬ (neg r ↔ neg (s.readReg ra))) := by
  have hcin := bit_le_one s.flags.c
  have hbit := carryIn_eq_bit s.flags
  exact aluRuns_of_arithOut rfl (by omega) (by omega) fun r _ => addOverflow_iff _ _ r

theorem sub_runs :
    AluRuns (.sub rd ra rb) rd s ((65536 + (s.readReg ra).toNat - (s.readReg rb).toNat) % 65536)
      ((s.readReg ra).toNat < (s.readReg rb).toNat)
      (fun r => ¬ (neg (s.readReg ra) ↔ neg (s.readReg rb)) ∧ ¬ (neg r ↔ neg (s.readReg ra))) :=
  aluRuns_of_arithOut rfl (by omega) (by omega) fun r _ => subOverflow_iff _ _ r

theorem subb_runs :
    AluRuns (.subb rd ra rb) rd s
      ((131072 + (s.readReg ra).toNat - (s.readReg rb).toNat - bit s.flags.c) % 65536)
      ((s.readReg ra).toNat < (s.readReg rb).toNat + bit s.flags.c)
      (fun r => ¬ (neg (s.readReg ra) ↔ neg (s.readReg rb)) ∧ ¬ (neg r ↔ neg (s.readReg ra))) := by
  have hcin := bit_le_one s.flags.c
  have hbit := carryIn_eq_bit s.flags
  exact aluRuns_of_arithOut rfl (by omega) (by omega) fun r _ => subOverflow_iff _ _ r

/-- The sign formula of R87 holds for the operand 0x8000 alone. -/
theorem dec_runs :
    AluRuns (.dec rd ra) rd s (((s.readReg ra).toNat + 65535) % 65536) ((s.readReg ra).toNat = 0)
      (fun _ => (s.readReg ra).toNat = 0x8000) := by
  refine aluRuns_of_arithOut rfl (by omega) (by omega) fun r hr => ?_
  rw [Bool.and_eq_true, Bool.not_eq_true', ← Bool.not_eq_true, signBit_iff, signBit_iff]
  omega

/-- The sign formula of R88 holds for the operand 0x7FFF alone. -/
theorem inc_runs :
    AluRuns (.inc rd ra) rd s (((s.readReg ra).toNat + 1) % 65536) ((s.readReg ra).toNat = 0xFFFF)
      (fun _ => (s.readReg ra).toNat = 0x7FFF) := by
  refine aluRuns_of_arithOut rfl (by omega) (by omega) fun r hr => ?_
  rw [Bool.and_eq_true, Bool.not_eq_true', ← Bool.not_eq_true, signBit_iff, signBit_iff]
  omega

end

/-- Settles O40, by add_runs and addc_runs. -/
theorem addAndAddcResults : Obligations.AddAndAddcResults :=
  ⟨encoded_aluBinary 0 0 fun w hunit hop => by rw [decodeAlu, hunit, hop],
    encoded_aluBinary 0 2 fun w hunit hop => by rw [decodeAlu, hunit, hop],
    fun rd ra rb s => ⟨add_runs rd ra rb s, addc_runs rd ra rb s⟩⟩

/-- Settles O41, by sub_runs and subb_runs. -/
theorem subAndSubbResults : Obligations.SubAndSubbResults :=
  ⟨encoded_aluBinary 0 1 fun w hunit hop => by rw [decodeAlu, hunit, hop],
    encoded_aluBinary 0 3 fun w hunit hop => by rw [decodeAlu, hunit, hop],
    fun rd ra rb s => ⟨sub_runs rd ra rb s, subb_runs rd ra rb s⟩⟩

/-- Settles O42, by dec_runs and inc_runs. -/
theorem decAndIncResults : Obligations.DecAndIncResults :=
  ⟨encoded_aluUnary 0 4 fun w hunit hop => by rw [decodeAlu, hunit, hop],
    encoded_aluUnary 0 5 fun w hunit hop => by rw [decodeAlu, hunit, hop],
    fun rd ra s => ⟨dec_runs rd ra s, inc_runs rd ra s⟩⟩

/-! ## O and the exact signed result (R82) -/

/-- The one next state of an ALU instruction has the overflow of its result. -/
theorem aluRuns_overflow {i : Instr} {rd : Reg} {s t : State} {value : Nat} {carry : Prop} {overflow : Word → Prop}
    (h : AluRuns i rd s value carry overflow) (ht : exec i s = .next t) :
    ∃ r : Word, r.toNat = value ∧ (t.flags.o = true ↔ overflow r) := by
  obtain ⟨t', r, c, o, ht', hr, -, ho, -, -, -, -, hflag, -⟩ := h
  cases ht.symm.trans ht'
  exact ⟨r, hr, hflag ▸ ho⟩

/-- A sum of two words and a carry does not fit exactly when the signs of the words are equal and the result's
differs. -/
theorem sum_overflow_iff {a b r : Word} {cin : Nat} (hcin : cin ≤ 1)
    (hr : r.toNat = (a.toNat + b.toNat + cin) % 65536) :
    ((neg a ↔ neg b) ∧ ¬ (neg r ↔ neg a)) ↔
      ¬ (-32768 ≤ a.toInt + b.toInt + cin ∧ a.toInt + b.toInt + cin ≤ 32767) := by
  rw [toInt_eq_ite, toInt_eq_ite, neg, neg, neg]
  split <;> split <;> omega

/-- A difference of two words and a borrow does not fit exactly when the signs of the words differ and the result's
differs from the first word's. -/
theorem difference_overflow_iff {a b r : Word} {cin : Nat} (hcin : cin ≤ 1)
    (hr : r.toNat = (131072 + a.toNat - b.toNat - cin) % 65536) :
    (¬ (neg a ↔ neg b) ∧ ¬ (neg r ↔ neg a)) ↔
      ¬ (-32768 ≤ a.toInt - b.toInt - cin ∧ a.toInt - b.toInt - cin ≤ 32767) := by
  rw [toInt_eq_ite, toInt_eq_ite, neg, neg, neg]
  split <;> split <;> omega

/-- Settles O46: each overflow condition, on the words as numbers, says that the exact signed result does not fit. -/
theorem overflowMeansTheSignedResultDoesNotFit : Obligations.OverflowMeansTheSignedResultDoesNotFit := by
  intro rd ra rb s t
  have hcin := bit_le_one s.flags.c
  refine ⟨fun h => ?add, fun h => ?addc, fun h => ?sub, fun h => ?subb, fun h => ?dec, fun h => ?inc⟩
  case add =>
    obtain ⟨r, hr, ho⟩ := aluRuns_overflow (add_runs rd ra rb s) h
    simpa using ho.trans (sum_overflow_iff (Nat.zero_le 1) hr)
  case addc =>
    obtain ⟨r, hr, ho⟩ := aluRuns_overflow (addc_runs rd ra rb s) h
    exact ho.trans (sum_overflow_iff hcin hr)
  case sub =>
    obtain ⟨r, hr, ho⟩ := aluRuns_overflow (sub_runs rd ra rb s) h
    simpa using ho.trans (difference_overflow_iff (Nat.zero_le 1) (by omega))
  case subb =>
    obtain ⟨r, hr, ho⟩ := aluRuns_overflow (subb_runs rd ra rb s) h
    exact ho.trans (difference_overflow_iff hcin hr)
  case dec =>
    obtain ⟨-, -, ho⟩ := aluRuns_overflow (dec_runs rd ra s) h
    rw [ho, toInt_eq_ite]
    split <;> omega
  case inc =>
    obtain ⟨-, -, ho⟩ := aluRuns_overflow (inc_runs rd ra s) h
    rw [ho, toInt_eq_ite]
    split <;> omega

/-! ## 32-bit addition -/

/-- A register other than R0 holds an ALU instruction's result, and C its carry. -/
theorem aluRuns_result {i : Instr} {rd : Reg} {s : State} {value : Nat} {carry : Prop} {overflow : Word → Prop}
    (h : AluRuns i rd s value carry overflow) (hrd : rd ≠ 0) :
    ∃ t, exec i s = .next t ∧ WritesReg rd (t.readReg rd) s t ∧ (t.readReg rd).toNat = value ∧
      (t.flags.c = true ↔ carry) := by
  obtain ⟨t, r, c, o, ht, hr, hc, -, hw, -, -, hflag, -⟩ := h
  refine ⟨t, ht, ?_⟩
  rw [hw.self hrd]
  exact ⟨hw, hr, hflag ▸ hc⟩

/-- The carry and the 16-bit result together are the exact sum. -/
theorem carry_and_sum {c : Bool} {sum value : Nat} (hsum : sum < 131072) (hvalue : value = sum % 65536)
    (hc : c = true ↔ 65536 ≤ sum) : 65536 * bit c + value = sum := by
  simp only [bit, hc]
  split <;> omega

/-- Settles O48: the carry of the low sum is the carry-in of the high one. -/
theorem addThenAddcAddsThirtyTwoBits : Obligations.AddThenAddcAddsThirtyTwoBits := by
  intro rdl ral rbl rdh rah rbh s hrdl hrdh hne hrah hrbh
  obtain ⟨u, hu, hlow, hlowValue, hlowCarry⟩ := aluRuns_result (add_runs rdl ral rbl s) hrdl
  obtain ⟨t, ht, hhigh, hhighValue, hhighCarry⟩ := aluRuns_result (addc_runs rdh rah rbh u) hrdh
  refine ⟨t, ?_, ?_⟩
  · rw [execAll_cons _ hu, execAll_cons _ ht, execAll]
  · have hcin := bit_le_one u.flags.c
    have hlowSum := carry_and_sum (by omega) hlowValue hlowCarry
    have hhighSum := carry_and_sum (by omega) hhighValue hhighCarry
    rw [hlow.other hrah.symm, hlow.other hrbh.symm] at hhighSum
    rw [hhigh.other hne]
    omega

/-! ## The logic unit (R89 to R92) -/

/-- Settles O43: each result is the word operation, whose bits the library gives. -/
theorem logicResults : Obligations.LogicResults :=
  ⟨encoded_aluUnary 1 0 fun w hunit hop => by rw [decodeAlu, hunit, hop],
    encoded_aluBinary 1 1 fun w hunit hop => by rw [decodeAlu, hunit, hop],
    encoded_aluBinary 1 2 fun w hunit hop => by rw [decodeAlu, hunit, hop],
    encoded_aluBinary 1 3 fun w hunit hop => by rw [decodeAlu, hunit, hop],
    fun rd ra rb s =>
      ⟨logic_runs rfl fun k hk => by rw [BitVec.getLsbD_not, decide_eq_true hk, Bool.true_and],
        logic_runs rfl fun _ _ => BitVec.getLsbD_and, logic_runs rfl fun _ _ => BitVec.getLsbD_or,
        logic_runs rfl fun _ _ => BitVec.getLsbD_xor⟩⟩

/-! ## The shift unit: shifts (R94 to R97) -/

theorem shiftRight_one_toNat (a : Word) : (a >>> 1).toNat = a.toNat / 2 := by
  rw [BitVec.toNat_ushiftRight, Nat.shiftRight_eq_div_pow, Nat.pow_one]

theorem shiftLeft_one_toNat (a : Word) : (a <<< 1).toNat = 2 * a.toNat % 65536 := by
  rw [BitVec.toNat_shiftLeft, Nat.shiftLeft_eq, Nat.pow_one, Nat.mul_comm]

/-- SHRA's result is the library's arithmetic shift. -/
theorem aluShra_result (a : Word) : (aluShra a).result = a.sshiftRight 1 := by
  apply BitVec.eq_of_getLsbD_eq
  intro i hi
  simp only [aluShra, shiftOut, BitVec.getLsbD_or, BitVec.getLsbD_and, BitVec.getLsbD_ushiftRight,
    BitVec.getLsbD_sshiftRight, BitVec.msb_eq_getLsbD_last]
  interval_cases i <;> simp

/-- The sign changes under doubling exactly when bits 15 and 14 differ (R97). -/
theorem aluShla_overflow_iff (a : Word) :
    (a.getLsbD 15 != (a <<< 1).getLsbD 15) = true ↔ 0x4000 ≤ a.toNat ∧ a.toNat < 0xC000 := by
  rw [bne_iff_ne, ne_eq, Bool.eq_iff_iff, signBit_iff, signBit_iff, shiftLeft_one_toNat]
  omega

/-- Settles O44: each shift as a number, and C the bit at the end it moves to. -/
theorem shiftResults : Obligations.ShiftResults := by
  refine ⟨encoded_aluUnary 2 0 fun w hunit hop => by rw [decodeAlu, hunit, hop],
    encoded_aluUnary 2 1 fun w hunit hop => by rw [decodeAlu, hunit, hop],
    encoded_aluUnary 2 2 fun w hunit hop => by rw [decodeAlu, hunit, hop],
    encoded_aluUnary 2 3 fun w hunit hop => by rw [decodeAlu, hunit, hop], fun rd ra s => ⟨?shr, ?shl, ?shra, ?shla⟩⟩
  case shr => exact aluRuns_of_shiftOut rfl (shiftRight_one_toNat _) (lowBit_iff _)
  case shl => exact aluRuns_of_shiftOut rfl (shiftLeft_one_toNat _) (signBit_iff _)
  case shra =>
    refine ⟨_, _, _, rfl, ?_, lowBit_iff _, aluEffect_applyAlu s rd (aluShra (s.readReg ra))⟩
    rw [aluShra_result, BitVec.toInt_sshiftRight, Int.shiftRight_eq_div_pow]
    rfl
  case shla =>
    exact aluRuns_of_applyAlu (out := aluShla (s.readReg ra)) rfl (shiftLeft_one_toNat _) (signBit_iff _)
      (aluShla_overflow_iff _)

/-! ## The shift unit: rotates (R98 to R101) -/

/-- Two fields side by side, as a number. -/
theorem append_toNat {m n : Nat} (x : BitVec m) (y : BitVec n) : (x ++ y).toNat = 2 ^ n * x.toNat + y.toNat := by
  rw [BitVec.toNat_append, ← Nat.shiftLeft_add_eq_or_of_lt y.isLt, Nat.shiftLeft_eq, Nat.mul_comm]

theorem extractLsb'_val (a : Word) (lo len : Nat) : (a.extractLsb' lo len).toNat = a.toNat / 2 ^ lo % 2 ^ len := by
  rw [BitVec.extractLsb'_toNat, Nat.shiftRight_eq_div_pow]

theorem ofBool_toNat (b : Bool) : (BitVec.ofBool b).toNat = bit b := by
  cases b <;> rfl

theorem aluRor_result (a : Word) : (aluRor a).result.toNat = a.toNat / 2 + 32768 * (a.toNat % 2) := by
  rw [aluRor, shiftOut, append_toNat, extractLsb'_val, extractLsb'_val]
  omega

theorem aluRol_result (a : Word) : (aluRol a).result.toNat = 2 * a.toNat % 65536 + a.toNat / 32768 := by
  rw [aluRol, shiftOut, append_toNat, extractLsb'_val, extractLsb'_val]
  omega

theorem aluRorc_result (f : Flags) (a : Word) : (aluRorc f a).result.toNat = a.toNat / 2 + 32768 * bit f.c := by
  rw [aluRorc, shiftOut, append_toNat, extractLsb'_val, ofBool_toNat]
  omega

theorem aluRolc_result (f : Flags) (a : Word) : (aluRolc f a).result.toNat = 2 * a.toNat % 65536 + bit f.c := by
  rw [aluRolc, shiftOut, append_toNat, extractLsb'_val, ofBool_toNat]
  omega

/-- Settles O45: each rotate as a number, and C the bit that leaves. -/
theorem rotateResults : Obligations.RotateResults :=
  ⟨encoded_aluUnary 2 4 fun w hunit hop => by rw [decodeAlu, hunit, hop],
    encoded_aluUnary 2 5 fun w hunit hop => by rw [decodeAlu, hunit, hop],
    encoded_aluUnary 2 6 fun w hunit hop => by rw [decodeAlu, hunit, hop],
    encoded_aluUnary 2 7 fun w hunit hop => by rw [decodeAlu, hunit, hop],
    fun rd ra s =>
      ⟨aluRuns_of_shiftOut rfl (aluRor_result (s.readReg ra)) (lowBit_iff _),
        aluRuns_of_shiftOut rfl (aluRol_result (s.readReg ra)) (signBit_iff _),
        aluRuns_of_shiftOut rfl (aluRorc_result s.flags (s.readReg ra)) (lowBit_iff _),
        aluRuns_of_shiftOut rfl (aluRolc_result s.flags (s.readReg ra)) (signBit_iff _)⟩⟩

/-! ## Full turns (R99, R100, R101) -/

/-- An instruction turns the word that view shows of the state: the bit that arrives at each place comes from k places
above it, around the end, and no register but rd changes. -/
def Turns (i : Instr) (rd : Reg) {w : Nat} (view : State → BitVec w) (k : Nat) : Prop :=
  ∀ s, ∃ t, exec i s = .next t ∧ (∀ x, x ≠ rd → t.readReg x = s.readReg x) ∧
    ∀ j < w, (view t).getLsbD j = (view s).getLsbD ((j + k) % w)

/-- Turns add up. -/
theorem turns_replicate {i : Instr} {rd : Reg} {w k : Nat} {view : State → BitVec w} (h : Turns i rd view k) (n : Nat)
    (s : State) : ∃ t, execAll (List.replicate n i) s = .next t ∧ (∀ x, x ≠ rd → t.readReg x = s.readReg x) ∧
      ∀ j < w, (view t).getLsbD j = (view s).getLsbD ((j + n * k) % w) := by
  induction n generalizing s with
  | zero =>
    exact ⟨s, rfl, fun _ _ => rfl, fun j hj => by rw [Nat.zero_mul, Nat.add_zero, Nat.mod_eq_of_lt hj]⟩
  | succ n ih =>
    obtain ⟨u, hu, hkept, hturn⟩ := h s
    obtain ⟨t, ht, hkept', hturn'⟩ := ih u
    refine ⟨t, ?_, fun x hx => (hkept' x hx).trans (hkept x hx), fun j hj => ?_⟩
    · rw [List.replicate_succ, execAll_cons _ hu, ht]
    · rw [hturn' j hj, hturn _ (Nat.mod_lt _ (Nat.zero_lt_of_lt hj)), Nat.mod_add_mod, Nat.succ_mul, Nat.add_assoc]

/-- As many turns as the word has bits restore it. -/
theorem turns_full {i : Instr} {rd : Reg} {w k : Nat} {view : State → BitVec w} (h : Turns i rd view k) (s : State) :
    ∃ t, execAll (List.replicate w i) s = .next t ∧ (∀ x, x ≠ rd → t.readReg x = s.readReg x) ∧ view t = view s := by
  obtain ⟨t, ht, hkept, hturn⟩ := turns_replicate h w s
  refine ⟨t, ht, hkept, BitVec.eq_of_getLsbD_eq fun j hj => ?_⟩
  rw [hturn j hj, Nat.add_mul_mod_self_left, Nat.mod_eq_of_lt hj]

/-- C above a register: the 17 bits that RORC and ROLC turn. -/
def carryAndReg (rd : Reg) (s : State) : BitVec 17 := BitVec.ofBool s.flags.c ++ s.readReg rd

theorem carryAndReg_inj {rd : Reg} {s t : State} (h : carryAndReg rd t = carryAndReg rd s) :
    t.flags.c = s.flags.c ∧ t.readReg rd = s.readReg rd := by
  have hnum := congrArg BitVec.toNat h
  rw [carryAndReg, carryAndReg, append_toNat, append_toNat, ofBool_toNat, ofBool_toNat] at hnum
  refine ⟨bit_injective ?_, BitVec.eq_of_toNat_eq ?_⟩ <;> omega

/-- A shift-unit instruction on one register turns C and that register together when the bit that leaves and the
result do. -/
theorem turns_carryAndReg {i : Instr} {rd : Reg} {k : Nat} {out : Word → Bool} {r : Bool → Word → Word} (hrd : rd ≠ 0)
    (hexec : ∀ s, exec i s =
      .next ((s.applyAlu rd (shiftOut (r s.flags.c (s.readReg rd)) (out (s.readReg rd)))).advance none))
    (hbits : ∀ c x, ∀ j < 17,
      (BitVec.ofBool (out x) ++ r c x).getLsbD j = (BitVec.ofBool c ++ x).getLsbD ((j + k) % 17)) :
    Turns i rd (carryAndReg rd) k := by
  intro s
  obtain ⟨hw, -, -, hc, -⟩ :=
    aluEffect_applyAlu s rd (shiftOut (r s.flags.c (s.readReg rd)) (out (s.readReg rd)))
  refine ⟨_, hexec s, fun x hx => hw.other hx, fun j hj => ?_⟩
  rw [carryAndReg, hc, hw.self hrd]
  exact hbits _ _ j hj

theorem turns_rorc {rd : Reg} (hrd : rd ≠ 0) : Turns (.rorc rd rd) rd (carryAndReg rd) 1 := by
  refine turns_carryAndReg (out := fun x => x.getLsbD 0) (r := fun c x => BitVec.ofBool c ++ x.extractLsb' 1 15) hrd
    (fun _ => rfl) fun c x j hj => ?_
  simp only [BitVec.getLsbD_append, BitVec.getLsbD_extractLsb', BitVec.getLsbD_ofBool]
  interval_cases j <;> simp

/-- To turn 17 bits one place to the left is to turn them 16 places to the right. -/
theorem turns_rolc {rd : Reg} (hrd : rd ≠ 0) : Turns (.rolc rd rd) rd (carryAndReg rd) 16 := by
  refine turns_carryAndReg (out := fun x => x.getLsbD 15) (r := fun c x => x.extractLsb' 0 15 ++ BitVec.ofBool c) hrd
    (fun _ => rfl) fun c x j hj => ?_
  simp only [BitVec.getLsbD_append, BitVec.getLsbD_extractLsb', BitVec.getLsbD_ofBool]
  interval_cases j <;> simp

theorem turns_rol {rd : Reg} (hrd : rd ≠ 0) : Turns (.rol rd rd) rd (fun s => s.readReg rd) 15 := by
  intro s
  obtain ⟨hw, -⟩ := aluEffect_applyAlu s rd (aluRol (s.readReg rd))
  refine ⟨_, rfl, fun x hx => hw.other hx, fun j hj => ?_⟩
  beta_reduce
  rw [hw.self hrd]
  simp only [aluRol, shiftOut, BitVec.getLsbD_append, BitVec.getLsbD_extractLsb']
  interval_cases j <;> simp

/-- Nothing changed in rd or outside it. -/
theorem sameRegs_of_self {rd : Reg} {s t : State} (hself : t.readReg rd = s.readReg rd)
    (hother : ∀ x, x ≠ rd → t.readReg x = s.readReg x) : SameRegs s t := by
  intro x
  by_cases hx : x = rd
  · rw [hx, hself]
  · exact hother x hx

/-- A full turn through C restores the register and C. -/
theorem turns_carry_full {i : Instr} {rd : Reg} {k : Nat} (h : Turns i rd (carryAndReg rd) k) (s : State) :
    ∃ t, execAll (List.replicate 17 i) s = .next t ∧ SameRegs s t ∧ t.flags.c = s.flags.c := by
  obtain ⟨t, ht, hkept, hview⟩ := turns_full h s
  obtain ⟨hc, hreg⟩ := carryAndReg_inj hview
  exact ⟨t, ht, sameRegs_of_self hreg hkept, hc⟩

/-- Settles O49: a rotate turns 17 bits with C among them, or the register's 16, by one place each time. -/
theorem fullTurnsOfTheRotatesRestoreTheOperand : Obligations.FullTurnsOfTheRotatesRestoreTheOperand := by
  intro rd s hrd
  refine ⟨turns_carry_full (turns_rorc hrd) s, turns_carry_full (turns_rolc hrd) s, ?_⟩
  obtain ⟨t, ht, hkept, hreg⟩ := turns_full (turns_rol hrd) s
  exact ⟨t, ht, sameRegs_of_self hreg hkept⟩

end Sys2Proof.Machine
end

section
/-! PROOF. Format 11: the immediate moves and the carry instructions (43_immediate_system.md R102 to R107). -/

namespace Sys2Proof.Machine

open Sys2Proof.Claims

/-! ## The words of format 11 (30_encoding.md R46, R49) -/

theorem immediateWord_fields (sub : Fin 8) :
    let v := BitVec.ofNat 16 (0xC000 + 256 * sub.val)
    v &&& 0xC700#16 = v ∧ formatField v = 3 ∧ subField v = sub := by
  revert sub
  decide

/-- The format and the sub field choose the instruction; its operands are read from the rest of the word. -/
theorem encoded_immediate (sub : Fin 8) {f : Word → Instr}
    (h : ∀ w, subField w = sub → decodeImmediate w = .ok (f w)) :
    Encoded (BitVec.ofNat 16 (0xC000 + 256 * sub.val)) 0xC700#16 f := by
  intro w hw
  obtain ⟨hmask, hformatv, hsubv⟩ := immediateWord_fields sub
  obtain ⟨hformat, hsub⟩ := (formatSub_iff hmask).mp hw
  rw [decode_of_format3 (hformat.trans hformatv), h w (hsub.trans hsubv)]

theorem encoded_mvi : Encoded 0xC000#16 0xC700#16 (fun w => .mvi (rdOf w) (byteOf w)) :=
  encoded_immediate 0 fun w hsub => by rw [decodeImmediate, hsub, rdField_eq_rdOf, byteField_eq_byteOf]

theorem encoded_mvih : Encoded 0xC200#16 0xC700#16 (fun w => .mvih (rdOf w) (byteOf w)) :=
  encoded_immediate 2 fun w hsub => by rw [decodeImmediate, hsub, rdField_eq_rdOf, byteField_eq_byteOf]

theorem encoded_mvil : Encoded 0xC300#16 0xC700#16 (fun w => .mvil (rdOf w) (byteOf w)) :=
  encoded_immediate 3 fun w hsub => by rw [decodeImmediate, hsub, rdField_eq_rdOf, byteField_eq_byteOf]

theorem encoded_clc : Encoded 0xC400#16 0xC700#16 (fun _ => .clc) :=
  encoded_immediate 4 fun w hsub => by rw [decodeImmediate, hsub]

theorem encoded_stc : Encoded 0xC500#16 0xC700#16 (fun _ => .stc) :=
  encoded_immediate 5 fun w hsub => by rw [decodeImmediate, hsub]

theorem encoded_cmc : Encoded 0xC600#16 0xC700#16 (fun _ => .cmc) :=
  encoded_immediate 6 fun w hsub => by rw [decodeImmediate, hsub]

/-! ## MVI, MVIH and MVIL (R102, R103, R104) -/

/-- The frame of an instruction that writes one register and goes on. -/
theorem writeReg_advance_frame (s : State) (rd : Reg) (v : Word) :
    let t := (s.writeReg rd v).advance none
    WritesReg rd v s t ∧ t.flags = s.flags ∧ GoesOn s t ∧ SameControl s t ∧ SameMemory s t :=
  ⟨WritesReg.of_writeReg s rd v, rfl, goesOn_of_kept ((Kept.refl s).writeReg rd v), sameControl_writeReg s rd v,
    sameMemory_writeReg s rd v⟩

theorem mviValue_of_sign (h : Config.mviExt = .sign) (imm8 : Byte) : (mviValue imm8).toInt = imm8.toInt := by
  simp only [mviValue, h]
  exact BitVec.toInt_signExtend_of_le (by decide)

theorem mviValue_of_zero (h : Config.mviExt = .zero) (imm8 : Byte) : (mviValue imm8).toNat = imm8.toNat := by
  simp only [mviValue, h]
  exact BitVec.toNat_setWidth_of_le (by decide)

theorem exec_mvi (rd : Reg) (imm8 : Byte) (s : State) :
    exec (.mvi rd imm8) s = .next ((s.writeReg rd (mviValue imm8)).advance none) := rfl

/-- Settles O51: the value is given for each of the two widenings, and the rest is the frame of a register write. -/
theorem mviWritesTheWidenedImmediate : Obligations.MviWritesTheWidenedImmediate :=
  ⟨encoded_mvi, fun rd imm8 s => ⟨_, mviValue imm8, exec_mvi rd imm8 s, fun hsign => mviValue_of_sign hsign imm8,
    fun hzero => mviValue_of_zero hzero imm8, writeReg_advance_frame s rd (mviValue imm8)⟩⟩

theorem withHighByte_toNat (x : Word) (imm8 : Byte) :
    (withHighByte x imm8).toNat = 256 * imm8.toNat + x.toNat % 256 := by
  rw [withHighByte, append_toNat, extractLsb'_val]
  omega

theorem withLowByte_toNat (x : Word) (imm8 : Byte) :
    (withLowByte x imm8).toNat = x.toNat / 256 * 256 + imm8.toNat := by
  rw [withLowByte, append_toNat, extractLsb'_val]
  omega

/-- Settles O52: each writes its byte beside the other byte of the register. -/
theorem mvihAndMvilReplaceOneByte : Obligations.MvihAndMvilReplaceOneByte :=
  ⟨encoded_mvih, encoded_mvil, fun rd imm8 s =>
    ⟨⟨_, _, exec_mvih rd imm8 s, withHighByte_toNat _ imm8, writeReg_advance_frame s rd _⟩,
      ⟨_, _, exec_mvil rd imm8 s, withLowByte_toNat _ imm8, writeReg_advance_frame s rd _⟩⟩⟩

/-! ## CLC, STC and CMC (R105, R106, R107) -/

/-- The frame of an instruction that sets C and goes on. -/
theorem setCarry_advance_frame (s : State) (b : Bool) :
    let t := (s.setCarry b).advance none
    t.flags = { s.flags with c := b } ∧ SameRegs s t ∧ GoesOn s t ∧ SameControl s t ∧ SameMemory s t :=
  ⟨rfl, readReg_setCarry s b, goesOn_of_kept (Kept.flags s _ s.rescan), ⟨rfl, rfl, rfl, rfl, rfl, rfl, rfl, rfl, rfl⟩,
    sameMemory_flags s { s.flags with c := b } s.rescan⟩

theorem exec_clc (s : State) : exec .clc s = .next ((s.setCarry false).advance none) := rfl

theorem exec_stc (s : State) : exec .stc s = .next ((s.setCarry true).advance none) := rfl

theorem exec_cmc (s : State) : exec .cmc s = .next ((s.setCarry (!s.flags.c)).advance none) := rfl

/-- Settles O54: each sets C, to a value of its own. -/
theorem carryInstructionsChangeOnlyTheCarry : Obligations.CarryInstructionsChangeOnlyTheCarry :=
  ⟨encoded_clc, encoded_stc, encoded_cmc, fun s =>
    ⟨⟨_, exec_clc s, setCarry_advance_frame s false⟩, ⟨_, exec_stc s, setCarry_advance_frame s true⟩,
      ⟨_, exec_cmc s, setCarry_advance_frame s (!s.flags.c)⟩⟩⟩

end Sys2Proof.Machine
end

section
/-! PROOF. No instruction faults, and an illegal word stops the core until reset (60_exceptions.md R108, R118). -/

namespace Sys2Proof.Machine

/-- Settles O7: every instruction has a next state, and the steps that run none have one too (log 8). -/
theorem everyStepHasANextState : Obligations.EveryStepHasANextState := by
  refine ⟨exec_next, fun s => ?_⟩
  cases hrun : s.run with
  | illegal a w => exact ⟨s, step_stuck hrun⟩
  | running =>
    cases hdecode : decode s.fetch with
    | error c => exact ⟨_, step_illegal hrun hdecode⟩
    | ok i =>
      obtain ⟨t, ht⟩ := exec_next i s
      exact ⟨_, step_of_exec hrun hdecode ht⟩

theorem after_succ_of_step {s t : State} (n : Nat) (h : step s = .next t) : s.after (n + 1) = t.after n := by
  rw [State.after, h]

/-- A stuck core stays as it is for any number of steps (R118). -/
theorem after_stuck {s : State} {a : PAddr} {w : Word} (h : s.run = .illegal a w) (n : Nat) : s.after n = s := by
  induction n with
  | zero => rfl
  | succ n ih => rw [after_succ_of_step n (step_stuck h), ih]

/-- The words of an illegal class are words that do not decode (30_encoding.md R52). -/
theorem decode_error_of_illegalClass {w : Word} (h : illegalClass w ≠ none) : ∃ c, decode w = .error c := by
  obtain ⟨c, hc⟩ := Option.ne_none_iff_exists'.mp h
  exact ⟨c, (decodeFailsExactlyOnTheIllegalWords w c).mpr hc⟩

/-- Settles O8: the illegal word's step is the stop, and a stopped core stays as it is. -/
theorem illegalWordStopsTheCoreForGood : Obligations.IllegalWordStopsTheCoreForGood := by
  intro s hrun hillegal
  obtain ⟨c, hc⟩ := decode_error_of_illegalClass hillegal
  have hstep : step s = .next s.stopIllegal := step_illegal hrun hc
  have hafter (n : Nat) : s.after (n + 1) = s.stopIllegal := by
    rw [after_succ_of_step n hstep, after_stuck (stopIllegal_run s)]
  exact ⟨hstep, fun n => ⟨hafter n, rfl⟩⟩

end Sys2Proof.Machine
end

section
/-! PROOF. The boundary that ends a step: what it services, what pends and what waits for the next one
(60_exceptions.md R109 to R116). -/

namespace Sys2Proof.Machine

open Sys2Proof.Claims

/-! ## A boundary that makes no re-scan (R112, R115, R116) -/

/-- A boundary takes in the requests it presents, and changes else only the schedule and the timer's armings. -/
theorem takeRequests_eq_of_presented {s : State} {l : List Source} {later : List (List Source)}
    (h : Presented s l later) :
    ∃ armed, s.takeRequests = { s with held := l, raises := later, timerArmed := armed } := by
  obtain ⟨hheld, hraises⟩ := takeRequests_of_presented h
  refine ⟨s.takeRequests.timerArmed, ?_⟩
  rw [← hheld, ← hraises]
  rcases takeRequests_cases s with ⟨-, e⟩ | ⟨now, later', -, e⟩ <;> rw [e]

/-- No re-scan is made: the boundary takes in and delivers the requests. -/
theorem boundary_no_rescan {s : State} {b : Bool} (hjp : s.jp = false) (hrescan : s.rescan = false ∨ b = true) :
    s.boundary b = s.takeRequests.deliverRaises := by
  rcases hrescan with hrescan | rfl
  · exact boundary_deliver b hjp hrescan
  · exact boundary_serviced hjp

section
variable {s : State} {later : List (List Source)} {b : Bool}

/-- Requests none of which qualifies all pend. -/
theorem boundary_pend {l : List Source} (hjp : s.jp = false) (hrescan : s.rescan = false ∨ b = true)
    (hpresented : Presented s l later) (h : ∀ x ∈ l, ¬ Qualifies s x) :
    ∃ armed ip, s.boundary b = { s with held := [], raises := later, timerArmed := armed, ipend := ip } ∧
      ∀ j : Source, ip.getLsbD j.val = (s.ipend.getLsbD j.val || decide (j ∈ l)) := by
  obtain ⟨armed, htake⟩ := takeRequests_eq_of_presented hpresented
  obtain ⟨ip, hdeliver, hip⟩ :=
    deliverRaises_pend (s := { s with held := l, raises := later, timerArmed := armed }) h
  exact ⟨armed, ip, by rw [boundary_no_rescan hjp hrescan, htake, hdeliver], hip⟩

/-- The first request that qualifies is serviced, and all others pend. -/
theorem boundary_first {pre rest : List Source} {k : Source} (hjp : s.jp = false)
    (hrescan : s.rescan = false ∨ b = true) (hpresented : Presented s (pre ++ k :: rest) later)
    (hpre : ∀ x ∈ pre, ¬ Qualifies s x) (hk : Qualifies s k) :
    ∃ armed ip, s.boundary b =
        State.service { s with held := [], raises := later, timerArmed := armed, ipend := ip } (hwVector k) ∧
      ∀ j : Source, ip.getLsbD j.val = (s.ipend.getLsbD j.val || decide (j ∈ pre ++ rest)) := by
  obtain ⟨armed, htake⟩ := takeRequests_eq_of_presented hpresented
  obtain ⟨ip, hdeliver, hip⟩ := deliverRaises_first
    (s := { s with held := pre ++ k :: rest, raises := later, timerArmed := armed }) rfl hpre hk
  exact ⟨armed, ip, by rw [boundary_no_rescan hjp hrescan, htake, hdeliver], hip⟩

end

/-- A set of pending sources is known by its 16 bits. -/
theorem pending_ext {x y : Word} (h : ∀ j : Source, x.getLsbD j.val = y.getLsbD j.val) : x = y :=
  BitVec.eq_of_getLsbD_eq fun i hi => h ⟨i, hi⟩

/-- Settles O32: INT's service leaves E = 0 and no jump pending, so its boundary makes no re-scan and every request
pends. -/
theorem softwareInterruptComesFirstAtItsBoundary : Obligations.SoftwareInterruptComesFirstAtItsBoundary := by
  intro s n l later hrun hi hpresented
  obtain ⟨armed, ip, hboundary, hip⟩ := boundary_pend (s := (s.advance none).service (swVector n)) (b := true) rfl
    (.inr rfl) hpresented fun _ _ ⟨he, _⟩ => Bool.false_ne_true he
  obtain ⟨hslot, hnext⟩ := nextPc_advance s none
  exact ⟨_, (step_of_exec hrun hi (exec_int n s)).trans (congrArg _ hboundary), swVector_toNat n, rfl, rfl, hslot,
    hnext, rfl, rfl, rfl, hip⟩

/-- Settles O35: a single request is either the first that qualifies, with none beside it, or pends. -/
theorem hardwareRequestIsServicedOrPends : Obligations.HardwareRequestIsServicedOrPends := by
  intro s k later b hjp hrescan hpresented
  by_cases hk : Qualifies s k
  · obtain ⟨armed, ip, hboundary, hip⟩ := boundary_first (b := b) (pre := []) hjp (.inl hrescan) hpresented nofun hk
    have hsame : ip = s.ipend := pending_ext fun j => by
      rw [hip, List.append_nil, decide_eq_false List.not_mem_nil, Bool.or_false]
    rw [hboundary]
    exact ⟨fun _ => ⟨⟨rfl, rfl, rfl, hwVector_toNat k⟩, hsame⟩, fun hno => absurd hk hno, rfl, rfl⟩
  · obtain ⟨armed, ip, hboundary, hip⟩ := boundary_pend (b := b) hjp (.inl hrescan) hpresented
      fun x hx => List.mem_singleton.mp hx ▸ hk
    rw [hboundary]
    refine ⟨fun hyes => absurd hyes hk, fun _ => ⟨⟨rfl, rfl, rfl, rfl⟩, ?_⟩, rfl, rfl⟩
    simpa only [List.mem_singleton] using hip

/-- Settles O36, by boundary_first. -/
theorem requestsAfterAServicePend : Obligations.RequestsAfterAServicePend := by
  intro s pre k rest later b hjp hrescan hpresented hpre hk
  obtain ⟨armed, ip, hboundary, hip⟩ := boundary_first (b := b) hjp (.inl hrescan) hpresented hpre hk
  rw [hboundary]
  exact ⟨⟨rfl, rfl, rfl, hwVector_toNat k⟩, rfl, rfl, hip⟩

/-- Settles O37: with E = 0 no request qualifies. -/
theorem requestsPendWhileInterruptsAreDisabled : Obligations.RequestsPendWhileInterruptsAreDisabled := by
  intro s l later b hjp hrescan he hpresented
  obtain ⟨armed, ip, hboundary, hip⟩ := boundary_pend (b := b) hjp (.inl hrescan) hpresented
    fun _ _ ⟨he', _⟩ => Bool.false_ne_true (he.symm.trans he')
  rw [hboundary]
  exact ⟨⟨rfl, rfl, rfl, rfl⟩, rfl, rfl, hip⟩

/-! ## A boundary with a jump pending (R115) -/

/-- An instruction that leaves a jump pending touches no request: STOR, the one that arms and disarms the timer, and
INT take no jump. -/
theorem exec_jump_keeps {i : Instr} {s u : State} (h : exec i s = .next u) (hjp : u.jp = true) :
    u.se = s.se ∧ u.ra = s.ra ∧ u.ipend = s.ipend ∧ (s.rescan = true → u.rescan = true) ∧ SameRequests s u := by
  have harmed : u.timerArmed = s.timerArmed := by
    rcases exec_timerArmed_cases h with e | ⟨ra, rb, r, rfl, -⟩
    · exact e
    · cases h
      cases hjp
  rcases exec_shape h with ⟨v, take, rfl, hkept, -, hrescan, -⟩ | ⟨n, -, rfl⟩
  · exact ⟨hkept.se, hkept.ra, hkept.ipend, hrescan, hkept.raises, hkept.held, harmed⟩
  · cases hjp

theorem presented_congr {s u : State} {l : List Source} {later : List (List Source)} (h : Presented s l later)
    (hsame : SameRequests s u) : Presented u l later := by
  obtain ⟨hraises, hheld, harmed⟩ := hsame
  rwa [Presented, hraises, hheld, harmed]

/-- Taking in the requests of a boundary loses none of any source but the timer's (R30, R115). -/
theorem takeRequests_count (s : State) {k : Source} (hk : k ≠ 15) :
    (s.takeRequests.held ++ s.takeRequests.raises.flatten).count k = (s.held ++ s.raises.flatten).count k := by
  rcases takeRequests_cases s with ⟨-, e⟩ | ⟨now, later, hraises, e⟩ <;> rw [e]
  obtain ⟨-, hcount, -⟩ := arriving_spec s.timerArmed now
  simp only [hraises, List.flatten_cons, List.count_append, hcount k hk, Nat.add_assoc]

/-- Settles O33: with a jump pending the boundary only takes the requests in, and holds them. -/
theorem nothingIsServicedBetweenAJumpAndItsSlot : Obligations.NothingIsServicedBetweenAJumpAndItsSlot := by
  intro s t hrun hstep hjp htrun
  refine ⟨nextPc_of_pc (step_pc_of_jump hrun hstep hjp htrun), ?_⟩
  rcases step_cases hstep with ⟨hstuck, -⟩ | ⟨-, -, rfl⟩ | ⟨-, i, u, -, hu, rfl⟩
  · exact absurd hrun hstuck
  · cases htrun
  · rw [boundary_jp] at hjp
    obtain ⟨hse, hra, hipend, hrescan, hsame⟩ := exec_jump_keeps hu hjp
    rw [boundary_jump _ hjp]
    refine ⟨by simp [hse], by simp [hra], by simp [hipend], by simpa using hrescan, fun l later hpresented => ?_,
      fun k hk => ?_⟩
    · obtain ⟨hheld, hraises⟩ := takeRequests_of_presented (presented_congr hpresented hsame)
      refine ⟨hheld, hraises, ?_⟩
      rintro l' later' ⟨now, -, -, rfl⟩
      exact ⟨now, by rw [hheld]⟩
    · obtain ⟨hraises, hheld, -⟩ := hsame
      rw [takeRequests_count u hk, hraises, hheld]

/-! ## What any boundary can do (R110, R113, R116) -/

/-- The states u and s agree in all but IPEND, RESCAN, the requests and the timer's armings. -/
inductive SameButPending (s : State) : State → Prop where
  | mk (ip : Word) (rs : Bool) (raises : List (List Source)) (held : List Source) (armed : Nat) :
    SameButPending s
      { s with ipend := ip, rescan := rs, raises := raises, held := held, timerArmed := armed }

/-- What a boundary makes of s: no service, and no pending bit cleared; or one service, of source k, and no pending
bit cleared but that of k where its mask bit is set. -/
inductive BoundaryOutcome (s : State) : State → Prop where
  | unserviced {u : State} (same : SameButPending s u)
    (pend : ∀ j : Source, s.ipend.getLsbD j.val = true → u.ipend.getLsbD j.val = true) : BoundaryOutcome s u
  | serviced {u : State} (k : Source) (same : SameButPending s u)
    (pend : ∀ j : Source, s.ipend.getLsbD j.val = true →
      u.ipend.getLsbD j.val = true ∨ (j = k ∧ s.imask.getLsbD j.val = true)) :
    BoundaryOutcome s (u.service (hwVector k))

theorem SameButPending.takeRequests (s : State) : SameButPending s s.takeRequests := by
  rcases takeRequests_cases s with ⟨-, e⟩ | ⟨now, later, -, e⟩ <;> rw [e] <;> exact .mk ..

theorem SameButPending.update {s u : State} (h : SameButPending s u) (ip : Word) (rs : Bool) (held : List Source) :
    SameButPending s { u with ipend := ip, rescan := rs, held := held } := by
  cases h
  exact .mk ..

theorem SameButPending.imask_eq {s u : State} (h : SameButPending s u) : u.imask = s.imask := by
  cases h
  rfl

theorem pending_set_of_pending {ip : Word} {j : Source} (k : Source) (h : ip.getLsbD j.val = true) :
    (ip ||| BitVec.twoPow 16 k.val).getLsbD j.val = true := by
  rw [pending_set, h, Bool.true_or]

/-- A raise services nothing after a service: that has cleared E (R110, R112). -/
theorem BoundaryOutcome.raise {s t : State} (h : BoundaryOutcome s t) (src : Source) :
    BoundaryOutcome s (t.raise src) := by
  cases h with
  | unserviced same pend =>
    rcases raise_cases t src with ⟨-, -, e⟩ | ⟨-, e⟩ <;> rw [e]
    · exact .serviced src same fun j hj => .inl (pend j hj)
    · exact .unserviced (same.update _ t.rescan t.held) fun j hj => pending_set_of_pending src (pend j hj)
  | @serviced u k same pend =>
    rw [raise_disabled src rfl]
    exact .serviced k (same.update (u.ipend ||| BitVec.twoPow 16 src.val) u.rescan u.held) fun j hj =>
      (pend j hj).imp_left (pending_set_of_pending src)

theorem BoundaryOutcome.foldl_raise {s t : State} (h : BoundaryOutcome s t) (l : List Source) :
    BoundaryOutcome s (l.foldl State.raise t) := by
  induction l generalizing t with
  | nil => exact h
  | cons src rest ih => exact ih (h.raise src)

theorem BoundaryOutcome.held {s t : State} (h : BoundaryOutcome s t) (l : List Source) :
    BoundaryOutcome s { t with held := l } := by
  cases h with
  | unserviced same pend => exact .unserviced (same.update t.ipend t.rescan l) pend
  | @serviced u k same pend => exact .serviced k (same.update u.ipend u.rescan l) pend

theorem BoundaryOutcome.deliverRaises {s t : State} (h : BoundaryOutcome s t) : BoundaryOutcome s t.deliverRaises :=
  (h.held []).foldl_raise t.held

theorem BoundaryOutcome.takeRequests (s : State) : BoundaryOutcome s s.takeRequests :=
  .unserviced (.takeRequests s) fun j hj => by rwa [takeRequests_ipend]

/-- The re-scan that comes before every raise clears the pending bit of the source it services (R113). -/
theorem BoundaryOutcome.runRescan (s : State) : BoundaryOutcome s s.takeRequests.runRescan := by
  have same : SameButPending s s.takeRequests := .takeRequests s
  rcases runRescan_ready_cases s.takeRequests with ⟨-, e⟩ | ⟨k, ⟨⟨-, hmask⟩, -⟩, e⟩ <;> rw [e]
  · exact .unserviced (same.update _ false _) fun j hj => by rwa [takeRequests_ipend]
  · rw [same.imask_eq] at hmask
    refine .serviced k (same.update _ false _) fun j hj => ?_
    by_cases hjk : j = k
    · exact .inr ⟨hjk, hjk ▸ hmask⟩
    · refine .inl ?_
      rw [pending_clear, takeRequests_ipend, hj, decide_eq_true hjk, Bool.and_self]

/-- What a boundary can do, said once. -/
theorem boundary_outcome (s : State) (b : Bool) : BoundaryOutcome s (s.boundary b) := by
  rcases boundary_cases s b with ⟨-, e⟩ | ⟨-, -, e⟩ | ⟨-, -, -, e⟩ <;> rw [e]
  · exact .takeRequests s
  · exact (BoundaryOutcome.takeRequests s).deliverRaises
  · exact (BoundaryOutcome.runRescan s).deliverRaises

theorem SameButPending.onlyArbiter {s u : State} (h : SameButPending s u) : OnlyArbiter s u := by
  cases h
  exact ⟨fun _ => rfl, ⟨fun _ => ⟨rfl, rfl, rfl⟩, rfl⟩, rfl, rfl, rfl, rfl, rfl, rfl, rfl, rfl⟩

theorem SameButPending.notServiced {s u : State} (h : SameButPending s u) : NotServiced s u := by
  cases h
  exact ⟨rfl, rfl, rfl, rfl⟩

theorem SameButPending.serviced {s u : State} (h : SameButPending s u) (k : Source) :
    Serviced (hwEntry k) s (u.service (hwVector k)) := by
  cases h
  exact ⟨rfl, rfl, rfl, hwVector_toNat k⟩

/-- Settles O34: a service touches E, SE, RA and PC beside what a boundary without one may change. -/
theorem aBoundaryServicesAtMostOneSource : Obligations.ABoundaryServicesAtMostOneSource := by
  intro s b
  have houtcome : BoundaryOutcome s (s.boundary b) := boundary_outcome s b
  generalize s.boundary b = t at houtcome
  cases houtcome with
  | unserviced same pend => exact ⟨same.onlyArbiter, .inl same.notServiced⟩
  | serviced k same pend => exact ⟨same.onlyArbiter, .inr ⟨k, same.serviced k⟩⟩

/-- Settles O38: only the boundary writes IPEND, and of its outcomes only the re-scan's service clears a bit. -/
theorem aPendingBitIsClearedOnlyByItsService : Obligations.APendingBitIsClearedOnlyByItsService := by
  intro s t k hstep hpending hcleared
  rcases step_cases hstep with ⟨-, rfl⟩ | ⟨-, -, rfl⟩ | ⟨-, i, u, -, hu, rfl⟩
  · cases hpending.symm.trans hcleared
  · cases hpending.symm.trans hcleared
  · obtain ⟨-, hipend⟩ := exec_held_ipend hu
    rw [← hipend] at hpending
    have houtcome := boundary_outcome u (isSoftwareInterrupt i)
    generalize u.boundary (isSoftwareInterrupt i) = t at houtcome hcleared
    cases houtcome with
    | unserviced same pend => cases (pend k hpending).symm.trans hcleared
    | serviced src same pend =>
      rcases pend k hpending with hkept | ⟨rfl, hmask⟩
      · cases hkept.symm.trans hcleared
      · exact ⟨hwVector_toNat k, same.imask_eq ▸ hmask, rfl⟩

end Sys2Proof.Machine
end

section
/-! PROOF. Reset and loading (70_reset_and_hazards.md R126, R127, R129). -/

namespace Sys2Proof.Machine

open Sys2Proof.Claims

/-! ## What a reset sets (R126) -/

/-- Every general register reads 0 in the state after reset (10_state.md R21). -/
theorem readReg_reset (x : Reg) : State.reset.readReg x = 0#16 := by
  revert x
  decide

theorem readReg_hostReset (s : State) (x : Reg) : s.hostReset.readReg x = 0#16 :=
  (readReg_congr rfl x).trans (readReg_reset x)

/-- Settles O13: the registers of the core after a host reset are those of `State.reset`, and program memory stays. -/
theorem resetSetsEveryRegister : Obligations.ResetSetsEveryRegister := fun s =>
  ⟨readReg_hostReset s, rfl, rfl, rfl, rfl, rfl, rfl, rfl, rfl, rfl, rfl, rfl, rfl, rfl, rfl, rfl⟩

/-! ## The images survive every run (R127, R129) -/

/-- No instruction writes the data image. -/
theorem exec_dmemInit {i : Instr} {s t : State} (h : exec i s = .next t) : t.dmemInit = s.dmemInit := by
  rcases exec_shape h with ⟨u, take, rfl, hkept, -⟩ | ⟨n, -, rfl⟩
  · exact hkept.dmemInit
  · rfl

theorem step_dmemInit {s t : State} (h : step s = .next t) : t.dmemInit = s.dmemInit := by
  rcases step_cases h with ⟨-, rfl⟩ | ⟨-, -, rfl⟩ | ⟨-, i, u, -, hu, rfl⟩
  · rfl
  · rfl
  · rw [boundary_dmemInit, exec_dmemInit hu]

theorem after_dmemInit (s : State) (n : Nat) : (s.after n).dmemInit = s.dmemInit :=
  after_keeps (P := fun t => t.dmemInit = s.dmemInit) (fun _ _ ht hstep => (step_dmemInit hstep).trans ht) rfl n

/-! ## Empty program memory (R127) -/

/-- With no jump pending, going on is PC's increment alone. -/
theorem advance_none_of_no_jump {s : State} (hjp : s.jp = false) :
    s.advance none = { s with pc := s.pc + 1#15 } := by
  cases s
  cases hjp
  rfl

/-- A word 0 is a NOP, whose step with nothing due only increments PC (40_control.md R67). -/
theorem step_of_fetch_zero {s : State} (hrun : s.run = .running) (hjp : s.jp = false) (hdue : NothingDue s)
    (hzero : s.fetch = 0#16) : step s = .next { s with pc := s.pc + 1#15 } := by
  have hnop : decode s.fetch = .ok .nop := encoded_nop _ (by rw [hzero]; rfl)
  rw [step_advance hnop (exec_nop s) hrun hdue.raises hdue.held (hdue.rescan hjp), advance_none_of_no_jump hjp]

/-- A running core whose program memory reads 0 everywhere only counts PC, modulo 2^15, while nothing is due. -/
theorem after_of_zero_pmem {s : State} (hrun : s.run = .running) (hjp : s.jp = false) (hdue : NothingDue s)
    (hzero : ∀ a : PAddr, s.pmem.readWord a = 0#16) (n : Nat) :
    s.after n = { s with pc := s.pc + BitVec.ofNat 15 n } := by
  induction n generalizing s with
  | zero => simp [State.after]
  | succ n ih =>
    have hpc : s.pc + 1#15 + BitVec.ofNat 15 n = s.pc + BitVec.ofNat 15 (n + 1) := by
      rw [BitVec.add_assoc, ← BitVec.ofNat_add, Nat.add_comm 1 n]
    rw [after_succ_of_step n (step_of_fetch_zero hrun hjp hdue (hzero s.pc)),
      ih (s := { s with pc := s.pc + 1#15 }) hrun hjp ⟨hdue.raises, hdue.held, hdue.rescan⟩ hzero, hpc]

/-- The run from reset changes only PC, which is the number of steps modulo 2^15. -/
theorem reset_after (n : Nat) : State.reset.after n = { State.reset with pc := BitVec.ofNat 15 n } := by
  have hdue : NothingDue State.reset := ⟨rfl, rfl, fun _ => rfl⟩
  rw [after_of_zero_pmem (s := State.reset) rfl rfl hdue readWord_nil n, show State.reset.pc = 0#15 from rfl,
    BitVec.zero_add]

/-- Settles O14: no run changes program memory or the data image, and the run from reset is `reset_after`. -/
theorem resetRestoresTheImagesAndEmptyMemoryRunsNops :
    Obligations.ResetRestoresTheImagesAndEmptyMemoryRunsNops := by
  refine ⟨fun s p d n => ⟨noRunChangesProgramMemory (s.hostLoad p d) n, after_dmemInit (s.hostLoad p d) n⟩,
    fun a => ⟨readWord_nil a, readWord_nil a⟩, fun n => ?_⟩
  rw [reset_after]
  exact ⟨BitVec.toNat_ofNat n 15, fun _ => rfl, rfl, rfl, ⟨rfl, rfl, rfl, rfl, rfl, rfl, rfl, rfl, rfl⟩,
    fun _ => ⟨rfl, rfl, rfl⟩, rfl⟩

end Sys2Proof.Machine
end
